-- ==== Sys2Proof/Word.lean ====
section
/-! DEFINITION. The word types of the block: the 32-bit register and command word, one bit per pin, vector identifiers. -/

namespace Sys2Proof

/-- A register or a command word: 32 bits, bit 0 the least significant, always unsigned (R5, R6, R9). -/
abbrev Word := BitVec 32

/-- One bit for each of the 16 pins of a port, or each of the 16 interrupt lines (R5). -/
abbrev PinBits := BitVec 16

/-- A platform vector identifier `0..255`: an opaque name, never computed with (R37, R97). -/
abbrev VectorId := Fin 256

/-- An interrupt line: 16 of them always exist (R30). -/
abbrev Line := Fin 16

end Sys2Proof
end

