-- ==== Sys2Proof/Syntax.lean ====
section
/-! DEFINITION. The eight commands of opcode_table.json with their operands, the enumerant names, and the assembler text. -/

namespace Sys2Proof

/-- The port operand: the null reference `0xF`, or a port number `0..14` that the machine may or may not implement (R99). -/
inductive PortSel
  | null
  | index (p : Fin 15)
  deriving DecidableEq, Repr

/-- The edge selection of `IEDG`: the four recognised values, and the unrecognised codes `4..15` (R96). -/
inductive EdgeSel
  | neither
  | rising
  | falling
  | both
  | unrecognised (code : Nat)
  deriving DecidableEq, Repr

/-- One constructor per row of opcode_table.json (R92). `pin` is the unsigned 8-bit operand (R100); the `CFG` value operands
are one bit wider than the fields they feed (R93). -/
inductive Instr
  /-- configure pin (R121) -/
  | cfg (port : PortSel) (pin : Nat) (mode : BitVec 3) (otype : BitVec 2) (speed : BitVec 3) (pull : BitVec 3) (af : BitVec 4)
  /-- read pin (R140) -/
  | rdp (port : PortSel) (pin : Nat)
  /-- write pin (R141) -/
  | wrp (port : PortSel) (pin : Nat) (value : Bool)
  /-- toggle pin (R142) -/
  | tgl (port : PortSel) (pin : Nat)
  /-- set alternate function (R126) -/
  | saf (port : PortSel) (pin : Nat) (af : BitVec 4)
  /-- configure interrupt edge (R160) -/
  | iedg (pin : Nat) (edge : EdgeSel)
  /-- enable interrupt (R161) -/
  | ien (pin : Nat) (vector : VectorId)
  /-- clear interrupt pending (R162) -/
  | iclr (pin : Nat)
  deriving DecidableEq, Repr

/-- The pin operand of a command. -/
def Instr.pin : Instr → Nat
  | .cfg _ n _ _ _ _ _ => n
  | .rdp _ n => n
  | .wrp _ n _ => n
  | .tgl _ n => n
  | .saf _ n _ => n
  | .iedg n _ => n
  | .ien n _ => n
  | .iclr n => n

/-- The mnemonic of Table R92. -/
def Instr.mnemonic : Instr → String
  | .cfg .. => "CFG"
  | .rdp .. => "RDP"
  | .wrp .. => "WRP"
  | .tgl .. => "TGL"
  | .saf .. => "SAF"
  | .iedg .. => "IEDG"
  | .ien .. => "IEN"
  | .iclr .. => "ICLR"

/-- The mode enumerants, in the order of R22. -/
inductive PinMode
  | input | output | alternate | analog
  deriving DecidableEq, Repr

/-- The output-type enumerants (R23). -/
inductive OutType
  | pushPull | openDrain
  deriving DecidableEq, Repr

/-- The speed enumerants, in increasing order (R24). -/
inductive Speed
  | low | medium | fast | high
  deriving DecidableEq, Repr

/-- The named pull enumerants; the fourth encoding has no name (R25). -/
inductive Pull
  | none | up | down
  deriving DecidableEq, Repr

/-- The number of a mode (R106). -/
def PinMode.code : PinMode → BitVec 3
  | .input => 0 | .output => 1 | .alternate => 2 | .analog => 3

/-- The number of an output type (R106). -/
def OutType.code : OutType → BitVec 2
  | .pushPull => 0 | .openDrain => 1

/-- The number of a speed (R106). -/
def Speed.code : Speed → BitVec 3
  | .low => 0 | .medium => 1 | .fast => 2 | .high => 3

/-- The number of a pull, `DOWN` standing for the parameter `PULL_DOWN_CODE` (R106). -/
def Pull.code (pullDownCode : BitVec 3) : Pull → BitVec 3
  | .none => 0 | .up => 1 | .down => pullDownCode

/-- Port operands in text: letters for numbers, `NULL` for the null reference (R105). -/
def PortSel.text : PortSel → String
  | .null => "NULL"
  | .index p => ["A", "B", "C", "D", "E", "F", "G", "H", "I", "J", "K", "L", "M", "N", "O"].getD p.val "NULL"

/-- A value by its enumerant name, or as a number where it has none (R105, R106). -/
def enumText (names : List String) (v : Nat) : String := names.getD v (toString v)

/-- The pull operand in text: `DOWN` is printed for the value of `PULL_DOWN_CODE` (R106). -/
def pullText (pullDownCode : BitVec 3) (v : BitVec 3) : String :=
  if v = 0 then "NONE" else if v = 1 then "UP" else if v = pullDownCode then "DOWN" else toString v.toNat

/-- The edge selection in text (R106). -/
def EdgeSel.text : EdgeSel → String
  | .neither => "NONE"
  | .rising => "RISE"
  | .falling => "FALL"
  | .both => "BOTH"
  | .unrecognised c => toString c

/-- The textual form of a command, operands in the order of Table R92 (R105). -/
def Instr.text (pullDownCode : BitVec 3) : Instr → String
  | .cfg p n m t s u a =>
      "CFG " ++ ", ".intercalate [p.text, toString n, enumText ["IN", "OUT", "AF", "AN"] m.toNat, enumText ["PP", "OD"] t.toNat,
        enumText ["LOW", "MED", "FAST", "HIGH"] s.toNat, pullText pullDownCode u, toString a.toNat]
  | .rdp p n => "RDP " ++ ", ".intercalate [p.text, toString n]
  | .wrp p n v => "WRP " ++ ", ".intercalate [p.text, toString n, if v then "1" else "0"]
  | .tgl p n => "TGL " ++ ", ".intercalate [p.text, toString n]
  | .saf p n a => "SAF " ++ ", ".intercalate [p.text, toString n, toString a.toNat]
  | .iedg n e => "IEDG " ++ ", ".intercalate [toString n, e.text]
  | .ien n v => "IEN " ++ ", ".intercalate [toString n, toString v.val]
  | .iclr n => "ICLR " ++ toString n

end Sys2Proof
end

