-- ==== Sys2Proof/WellFormed.lean ====
section
/-! DEFINITION. Which terms of `Instr` a command word can carry. -/

namespace Sys2Proof

/-- `PIN` is an 8-bit field: `0..255` (R100). -/
def pinFits (pin : Nat) : Bool := pin < 256

/-- The unrecognised codes are exactly `4..15` (R96). -/
def EdgeSel.wellFormed : EdgeSel → Bool
  | .neither => true
  | .rising => true
  | .falling => true
  | .both => true
  | .unrecognised c => 4 ≤ c && c ≤ 15

/-- Every operand fits its field (R91, R93 to R100). -/
def Instr.wellFormed : Instr → Bool
  | .cfg _ n _ _ _ _ _ => pinFits n
  | .rdp _ n => pinFits n
  | .wrp _ n _ => pinFits n
  | .tgl _ n => pinFits n
  | .saf _ n _ => pinFits n
  | .iedg n e => pinFits n && e.wellFormed
  | .ien n _ => pinFits n
  | .iclr n => pinFits n

end Sys2Proof
end

