-- ==== Sys2Proof/Decode.lean ====
section
/-! DEFINITION. The decoder of command words, total and rejecting by name, the opcode table as data, and the encoder. -/

namespace Sys2Proof

/-- One row of opcode_table.json: a word is this command exactly when `(w & mask) = match` (R101, R104). -/
structure OpcodeRow where
  mnemonic  : String
  matchWord : Word
  mask      : Word
  deriving DecidableEq, Repr

/-- Table R104. -/
def opcodeTable : List OpcodeRow :=
  [ ⟨"CFG", 0x10000000, 0xF0008000⟩, ⟨"RDP", 0x20000000, 0xF000FFFF⟩, ⟨"WRP", 0x30000000, 0xF000FFFE⟩,
    ⟨"TGL", 0x40000000, 0xF000FFFF⟩, ⟨"SAF", 0x50000000, 0xF000FFF0⟩, ⟨"IEDG", 0x60000000, 0xFF00FFF0⟩,
    ⟨"IEN", 0x70000000, 0xFF00FF00⟩, ⟨"ICLR", 0x80000000, 0xFF00FFFF⟩ ]

/-- The word matches the row. -/
def OpcodeRow.matchesWord (r : OpcodeRow) (w : Word) : Bool := w &&& r.mask = r.matchWord

/-- Why a word is no command (R101). -/
inductive Invalid
  /-- `OP` is `0x0` or `0x9` to `0xF`. -/
  | reservedOpcode
  /-- A must-be-zero bit of `ARG`, or of `PORT` in an interrupt operation, is set. -/
  | mustBeZero
  deriving DecidableEq, Repr

/-- The decoder's verdict on a word (R101). -/
inductive Verdict
  | command (i : Instr)
  | invalid (why : Invalid)
  deriving DecidableEq, Repr

/-- `OP = w[31:28]` (R91). -/
def opField (w : Word) : BitVec 4 := w.extractLsb' 28 4

/-- `PORT = w[27:24]` (R91). -/
def portField (w : Word) : BitVec 4 := w.extractLsb' 24 4

/-- `PIN = w[23:16]` (R91). -/
def pinField (w : Word) : BitVec 8 := w.extractLsb' 16 8

/-- `ARG = w[15:0]` (R91). -/
def argField (w : Word) : BitVec 16 := w.extractLsb' 0 16

/-- The port selector of a four-bit field: `0xF` is null (R99). -/
def portSelOf (b : BitVec 4) : PortSel :=
  if h : b.toNat < 15 then .index ⟨b.toNat, h⟩ else .null

/-- The edge selection of a four-bit field (R96). -/
def edgeSelOf (b : BitVec 4) : EdgeSel :=
  if b = 0 then .neither else if b = 1 then .rising else if b = 2 then .falling else if b = 3 then .both
  else .unrecognised b.toNat

/-- The vector identifier of an eight-bit field (R97). -/
def vectorOf (b : BitVec 8) : VectorId := ⟨b.toNat, b.isLt⟩

/-- The command if the row's must-be-zero bits are zero (R101). -/
def ifFixed (w mask matchWord : Word) (i : Instr) : Verdict :=
  if w &&& mask = matchWord then .command i else .invalid .mustBeZero

/-- The decoder: the `OP` field chooses the row, the row's mask checks the must-be-zero bits, the operands are cut out of the
word (R91 to R104). -/
def decode (w : Word) : Verdict :=
  let port := portSelOf (portField w)
  let pin := (pinField w).toNat
  let arg := argField w
  match (opField w).toNat with
  | 1 => ifFixed w 0xF0008000 0x10000000
          (.cfg port pin (arg.extractLsb' 0 3) (arg.extractLsb' 3 2) (arg.extractLsb' 5 3) (arg.extractLsb' 8 3)
            (arg.extractLsb' 11 4))
  | 2 => ifFixed w 0xF000FFFF 0x20000000 (.rdp port pin)
  | 3 => ifFixed w 0xF000FFFE 0x30000000 (.wrp port pin (arg.getLsbD 0))
  | 4 => ifFixed w 0xF000FFFF 0x40000000 (.tgl port pin)
  | 5 => ifFixed w 0xF000FFF0 0x50000000 (.saf port pin (arg.extractLsb' 0 4))
  | 6 => ifFixed w 0xFF00FFF0 0x60000000 (.iedg pin (edgeSelOf (arg.extractLsb' 0 4)))
  | 7 => ifFixed w 0xFF00FF00 0x70000000 (.ien pin (vectorOf (arg.extractLsb' 0 8)))
  | 8 => ifFixed w 0xFF00FFFF 0x80000000 (.iclr pin)
  | _ => .invalid .reservedOpcode

/-- The command of a verdict, if it is one. -/
def Verdict.command? : Verdict → Option Instr
  | .command i => some i
  | .invalid _ => none

/-- The instruction the decoder reads from a table word of `nbits` bits; every bit above them is zero. -/
def decodeTableWord (nbits w : Nat) : Option Instr := (decode (BitVec.ofNat 32 (w % 2 ^ nbits))).command?

/-- R108: `(OP << 28) | (PORT << 24) | (PIN << 16) | ARG`. -/
def pack (op port : BitVec 4) (pin : BitVec 8) (arg : BitVec 16) : Word :=
  op.setWidth 32 <<< 28 ||| port.setWidth 32 <<< 24 ||| pin.setWidth 32 <<< 16 ||| arg.setWidth 32

/-- R108: `ARG(CFG)`. -/
def cfgArg (mode : BitVec 3) (otype : BitVec 2) (speed pull : BitVec 3) (af : BitVec 4) : BitVec 16 :=
  mode.setWidth 16 ||| otype.setWidth 16 <<< 3 ||| speed.setWidth 16 <<< 5 ||| pull.setWidth 16 <<< 8 ||| af.setWidth 16 <<< 11

/-- The four-bit field of a port selector (R99). -/
def PortSel.bits : PortSel → BitVec 4
  | .null => 0xF
  | .index p => BitVec.ofNat 4 p.val

/-- The four-bit field of an edge selection (R96). -/
def EdgeSel.bits : EdgeSel → BitVec 4
  | .neither => 0
  | .rising => 1
  | .falling => 2
  | .both => 3
  | .unrecognised c => BitVec.ofNat 4 c

/-- The command word of a well-formed instruction (R91 to R98, R108). -/
def encode : Instr → Word
  | .cfg port pin mode otype speed pull af => pack 1 port.bits (BitVec.ofNat 8 pin) (cfgArg mode otype speed pull af)
  | .rdp port pin => pack 2 port.bits (BitVec.ofNat 8 pin) 0
  | .wrp port pin value => pack 3 port.bits (BitVec.ofNat 8 pin) (if value then 1 else 0)
  | .tgl port pin => pack 4 port.bits (BitVec.ofNat 8 pin) 0
  | .saf port pin af => pack 5 port.bits (BitVec.ofNat 8 pin) (af.setWidth 16)
  | .iedg pin edge => pack 6 0 (BitVec.ofNat 8 pin) (edge.bits.setWidth 16)
  | .ien pin vector => pack 7 0 (BitVec.ofNat 8 pin) ((BitVec.ofNat 8 vector.val).setWidth 16)
  | .iclr pin => pack 8 0 (BitVec.ofNat 8 pin) 0

end Sys2Proof
end

