-- ==== Sys2Proof/Config.lean ====
section
/-! DEFINITION. The open parameters of Table R5, as one record of plain data, with the spec's defaults; the one free value.

NPORTS is the length of the machine's list of ports and RESET an argument of the power-on state (Machine/State.lean). -/

namespace Sys2Proof

/-- The eight registers of a port instance (R21 to R28). -/
inductive PortReg
  | mode | otype | ospeed | pull | idr | odr | afl | afh
  deriving DecidableEq, Repr

/-- The four registers of the external-interrupt controller (R30). -/
inductive ExtiReg
  | rtsr | ftsr | imr | pr
  deriving DecidableEq, Repr

/-- A register of the block, which the engine reads or writes by name: `PORT(p)` or `EXTI` (R7, R60). -/
inductive Reg
  | port (p : Nat) (r : PortReg)
  | exti (r : ExtiReg)
  deriving DecidableEq, Repr

/-- A register of the platform, `PLAT` (R7, R60): the clock control, with one bit per port, and the eight words of vector enables
(Table R61). -/
inductive PlatReg
  | clockControl
  | vectorEnable (k : Fin 8)
  deriving DecidableEq, Repr

/-- Everything that is addressable on the register bus (R60). -/
inductive BusReg
  | block (r : Reg)
  | plat (r : PlatReg)
  deriving DecidableEq, Repr

/-- The place of a port register in a list of eight. -/
def PortReg.idx : PortReg → Fin 8
  | .mode => 0 | .otype => 1 | .ospeed => 2 | .pull => 3 | .idr => 4 | .odr => 5 | .afl => 6 | .afh => 7

/-- The place of an `EXTI` register in a list of four. -/
def ExtiReg.idx : ExtiReg → Fin 4
  | .imr => 0 | .rtsr => 1 | .ftsr => 2 | .pr => 3

/-- Every port register, in the order of Table R61. -/
def PortReg.all : List PortReg := [.mode, .otype, .ospeed, .pull, .idr, .odr, .afl, .afh]

/-- Every `EXTI` register, in the order of Table R61. -/
def ExtiReg.all : List ExtiReg := [.imr, .rtsr, .ftsr, .pr]

/-- Every register of the block, with `nports` ports (R60). -/
def Reg.all (nports : Nat) : List Reg :=
  (List.range nports).flatMap (fun p => PortReg.all.map (Reg.port p)) ++ ExtiReg.all.map Reg.exti

/-- Every register of the platform (R60). -/
def PlatReg.all : List PlatReg := .clockControl :: (List.finRange 8).map .vectorEnable

/-- Every register on the bus (R60). -/
def BusReg.all (nports : Nat) : List BusReg := (Reg.all nports).map .block ++ PlatReg.all.map .plat

/-- `ADDR(block, reg)`: a base for each port instance, fixed offsets within an instance, and the platform's addresses (R60, R61). -/
structure AddrMap where
  portBase     : Vector Nat 15
  portOffset   : Vector Nat 8
  extiBase     : Nat
  extiOffset   : Vector Nat 4
  clockControl : Nat
  vectorEnable : Vector Nat 8
  deriving DecidableEq, Repr

/-- The byte address of a register of the block (R61). -/
def AddrMap.addr (m : AddrMap) : Reg → Nat
  | .port p r => m.portBase.toList.getD p 0 + m.portOffset[r.idx]
  | .exti r => m.extiBase + m.extiOffset[r.idx]

/-- The byte address of a register on the bus, the `PLAT` rows of Table R61 included. -/
def AddrMap.busAddr (m : AddrMap) : BusReg → Nat
  | .block r => m.addr r
  | .plat .clockControl => m.clockControl
  | .plat (.vectorEnable k) => m.vectorEnable[k]

/-- Every address of the register bus. -/
def AddrMap.allAddrs (m : AddrMap) (nports : Nat) : List Nat := (BusReg.all nports).map m.busAddr

/-- R61 and R64: two different registers never share an address, and every address is a multiple of 4. -/
abbrev AddrMap.wf (m : AddrMap) (nports : Nat) : Prop :=
  nports ≤ 15 ∧ (m.allAddrs nports).Nodup ∧ ∀ a ∈ m.allAddrs nports, a % 4 = 0

/-- The default numbers of Table R61 (the spec's own default; from general knowledge there, used by no rule). -/
def AddrMap.default : AddrMap where
  portBase     := Vector.ofFn fun p => 0x40020000 + 0x400 * p.val
  portOffset   := #v[0x00, 0x04, 0x08, 0x0C, 0x10, 0x14, 0x20, 0x24]
  extiBase     := 0x40013C00
  extiOffset   := #v[0x00, 0x08, 0x0C, 0x14]
  clockControl := 0x40023830
  vectorEnable := Vector.ofFn fun k => 0xE000E100 + 4 * k.val

/-- The OPEN rows of Table R5 that stay fixed during a run (R17). A statement about every state holds for every value of them. -/
structure Config where
  /-- `SRC(n)`: the port whose pin `n` feeds line `n` (R39). -/
  src : Vector Nat 16
  /-- `VEC_OF(n)`: the vector that line `n` requests (R194). -/
  vecOf : Vector VectorId 16
  /-- `ISR(v)`: the command list of each vector, the first entry for `v` counting, empty where there is none (R17, R41). -/
  isr : List (VectorId × List Word)
  /-- `LOOP(p, n)` as bit `n` of entry `p`, false where there is no entry (R38). -/
  loop : List PinBits
  /-- `LATCH_GATED_BY_MASK` (R163). -/
  latchGatedByMask : Bool
  /-- `PULL_DOWN_CODE`: the number behind the assembler name `DOWN`; no register rule reads it (R106). -/
  pullDownCode : BitVec 3
  /-- `ADDR(block, reg)`; no register rule reads it (R61). That it is injective and aligned is part of the invariant. -/
  addr : AddrMap
  deriving DecidableEq, Repr

/-- The defaults for tests of 92_eei_decisions.md section 5 (`VEC_OF` as in R194). -/
def Config.default : Config where
  src := Vector.ofFn fun _ => 0
  vecOf := #v[6, 7, 8, 9, 10, 23, 23, 23, 23, 23, 40, 40, 40, 40, 40, 40]
  isr := []
  loop := []
  latchGatedByMask := false
  pullDownCode := 2
  addr := AddrMap.default

/-- FREE VALUE (R195, U10): which of several dispatchable vectors the platform takes when it must take one. Applied to the
state's count of such choices; it has no body, so no proof can know it (log entry 7). -/
opaque Config.vectorChoice : Nat → Nat

end Sys2Proof
end

