-- ==== Sys2Proof/Machine/State.lean ====
section
/-! DEFINITION. The whole state of the machine as plain data (R20), the reasons a step stops, and the power-on state. -/

namespace Sys2Proof.Machine

open Sys2Proof

/-- The seven stored registers of a port instance, 32 bits each (R20 (a)); `IDR` stores nothing (R27). -/
structure PortRegs where
  mode   : Word
  otype  : Word
  ospeed : Word
  pull   : Word
  afl    : Word
  afh    : Word
  odr    : Word
  deriving DecidableEq, Repr

/-- One implemented port: its registers, its clock enable `CLKEN[p]` (R36), its pad levels `PAD[p]` (R38). -/
structure Port where
  regs  : PortRegs
  clken : Bool
  pad   : PinBits
  deriving DecidableEq, Repr

/-- The four registers of the external-interrupt controller (R30). -/
structure Exti where
  rtsr : Word
  ftsr : Word
  imr  : Word
  pr   : Word
  deriving DecidableEq, Repr

/-- The in-flight record of a context (R42 (a)): the accesses of the current command already performed, and the values read so far. -/
structure InFlight where
  /-- `step[c]` -/
  done : Nat
  /-- the `t` of a read-modify-write, or of the pending test of `ICLR` -/
  t : Word
  /-- the `b` of `TGL` -/
  b : Bool
  deriving DecidableEq, Repr

/-- A requester context (R40 to R42). -/
structure Ctx where
  /-- `prog[c]`, the command list -/
  prog : List Word
  /-- `cp[c]`, the command pointer -/
  cp : Nat
  flight : InFlight
  /-- `RES[c]`, none or one bit -/
  res : Option Bool
  deriving DecidableEq, Repr

/-- The service in progress: `active` and the context `irq`, which exists exactly between dispatch and return (R42 (b), R197, R198). -/
structure Service where
  vector : VectorId
  ctx    : Ctx
  deriving DecidableEq, Repr

/-- A step of another agent than the requester (R16). -/
inductive Event
  /-- `PadDrive(p, n, b)`, the environment (R38) -/
  | padDrive (p : Nat) (n : Line) (b : Bool)
  /-- `ForcePending(n)`, the test harness only (R164) -/
  | forcePending (n : Line)
  /-- `ClockOn(p)`, the platform (R36) -/
  | clockOn (p : Nat)
  /-- `Dispatch(v)`, the platform (R197) -/
  | dispatch (v : VectorId)
  deriving DecidableEq, Repr

/-- The state. `plan` and `cycle` are the model's own: they say at which access boundaries the other agents step, each entry
after so many moves of the machine, first those of `plan`, then those of `cycle` over and over (log entry 1). `draws` is the
model's own: it counts the free choices taken (log entry 7). -/
structure State where
  /-- the open parameters, constant in a run (R17) -/
  config : Config
  /-- the implemented ports; NPORTS is the length (R5, R20) -/
  ports : List Port
  exti : Exti
  /-- `VEN[v]` as bit `v` (R37) -/
  ven : BitVec 256
  main : Ctx
  active : Option Service
  plan : List (Nat × Event)
  cycle : List (Nat × Event)
  draws : Nat
  deriving DecidableEq, Repr

/-- The hardware has no fault (R190, D35): there is no reason to list. -/
inductive Fault
  deriving DecidableEq, Repr

/-- Why the model gives a command no meaning. None is anything the hardware signals (R191). -/
inductive Refusal
  /-- Raised by `exec` for an instruction not modelled yet (no arm does). Safe: the model stops where the hardware goes on. -/
  | notModelled (mnemonic : String)
  /-- Raised by every command whose `PIN` is 16 or more (R100, R191). Safe: the model stops where the hardware goes on. -/
  | pinOutOfRange
  /-- Raised by `step` at a word that matches no row of the opcode table (R101, R191). Safe: the model stops. -/
  | invalidCommand
  deriving DecidableEq, Repr

/-- The in-flight record between commands (R45: `step[main]` is 0). -/
def InFlight.fresh : InFlight := ⟨0, 0, false⟩

/-- A context about to start its list (R41, R45, R197). -/
def Ctx.start (prog : List Word) : Ctx := ⟨prog, 0, InFlight.fresh, none⟩

/-- Seven registers at zero. -/
def PortRegs.zero : PortRegs := ⟨0, 0, 0, 0, 0, 0, 0⟩

/-- `RESET(B, reg)`: the reset value of every stored register; its list of ports gives NPORTS (R5, R45). -/
structure ResetValues where
  ports : List PortRegs
  exti  : Exti
  deriving DecidableEq, Repr

/-- R45: `0x00000000` for every stored register. -/
def ResetValues.zero (nports : Nat) : ResetValues where
  ports := List.replicate nports PortRegs.zero
  exti := ⟨0, 0, 0, 0⟩

/-- The last column of Table R45, on the nine ports of the real part (from general knowledge there; not what `State.reset` uses). -/
def ResetValues.realPart : ResetValues where
  ports :=
    { PortRegs.zero with mode := 0xA8000000, pull := 0x64000000 } ::
    { PortRegs.zero with mode := 0x00000280, ospeed := 0x000000C0, pull := 0x00000100 } ::
    List.replicate 7 PortRegs.zero
  exti := ⟨0, 0, 0, 0⟩

/-- The state at power-on (R45, R220, R221): the parameters, the reset values, the pad levels the environment holds, the list
the mainline runs. Everything else is at the value of Table R45. -/
def State.powerOn (config : Config) (reset : ResetValues) (pads : List PinBits) (prog : List Word) : State where
  config := config
  ports := reset.ports.mapIdx fun p regs => ⟨regs, false, pads.getD p 0⟩
  exti := reset.exti
  ven := 0
  main := Ctx.start prog
  active := none
  plan := []
  cycle := []
  draws := 0

/-- The machine right after reset, at the spec's defaults: nine ports, every register zero, every clock off, every vector
disabled (R45, D20, D21); no mainline loaded (log entry 2), every pad at 0 (log entry 3), no other agent planned (log entry 1). -/
def State.reset : State := State.powerOn Config.default (ResetValues.zero 9) [] []

end Sys2Proof.Machine
end

