-- ==== Sys2Proof/Machine/Operands.lean ====
section
/-! DEFINITION. Operand forms and bit arithmetic: pin masks, shifted fields, field views, port selectors, addresses. -/

namespace Sys2Proof.Machine

open Sys2Proof

/-- `1 << pin` on 32-bit words (R11). -/
def pinMask (n : Nat) : Word := (1 : Word) <<< n

/-- `zext_32(v) << (w*n)`: an operand moved to the field of pin `n` in a register with `w` bits a pin (R9, R10, R93, R121). -/
def toField {k : Nat} (v : BitVec k) (w n : Nat) : Word := v.setWidth 32 <<< (w * n)

/-- The field of pin `n`, `w` bits a pin: `v[w*n + w - 1 : w*n]` (R6). -/
def pinFieldOf (w n : Nat) (v : Word) : BitVec w := v.extractLsb' (w * n) w

/-- `(v >> pin) & 1` (R11). -/
def bitOf (v : Word) (n : Nat) : Bool := v.getLsbD n

/-- The implemented bits of a 16-bit register: `0x0000FFFF` (R23, R28, R30). -/
def lowHalf : Word := 0x0000FFFF

/-- A word with bit `n` given for each of the 16 pins or lines, bits 31:16 zero. -/
def ofPins (f : Line → Bool) : Word := (BitVec.ofFnLE f).setWidth 32

/-- The mode a two-bit field stores (R22). -/
def modeOf (b : BitVec 2) : PinMode :=
  if b = 0 then .input else if b = 1 then .output else if b = 2 then .alternate else .analog

/-- The output type a one-bit field stores (R23). -/
def outTypeOf (b : BitVec 1) : OutType := if b = 0 then .pushPull else .openDrain

/-- The speed level a two-bit field stores (R24). -/
def speedOf (b : BitVec 2) : Speed :=
  if b = 0 then .low else if b = 1 then .medium else if b = 2 then .fast else .high

/-- The pull a two-bit field stores; `0b11` is stored and has no name (R25). -/
def pullOf (b : BitVec 2) : Option Pull :=
  if b = 0 then some .none else if b = 1 then some .up else if b = 2 then some .down else none

/-- NPORTS (R5). -/
def State.nports (s : State) : Nat := s.ports.length

/-- The port a selector names: none for the null reference and for a port that is not implemented (R68, R99). -/
def State.resolvePort (s : State) : PortSel → Option Nat
  | .null => none
  | .index p => if p.val < s.nports then some p.val else none

/-- The register that selects the alternate function of pin `n`: the first for pins 0 to 7, the second for 8 to 15 (R26, R126). -/
def afReg (n : Nat) : PortReg := if n ≤ 7 then .afl else .afh

/-- `ISR(v)` (R17, R41). -/
def isrOf (c : Config) (v : VectorId) : List Word :=
  match c.isr.find? (fun e => e.1 = v) with
  | some e => e.2
  | none => []

/-- `LOOP(p, n)`: "the environment's statement that the pin's input/output are electrically looped" (R38). -/
def looped (c : Config) (p : Nat) (n : Line) : Bool := (c.loop.getD p 0).getLsbD n

/-- Where `VEN[v]` stands on the bus: word `v >> 5`, bit `v & 31` (Table R61). -/
def vectorPlace (v : VectorId) : PlatReg × Nat := (.vectorEnable ⟨v.val / 32, by omega⟩, v.val % 32)

/-- Where `CLKEN[p]` stands on the bus: bit `p` of the clock control (R36, Table R61). -/
def clockPlace (p : Nat) : PlatReg × Nat := (.clockControl, p)

/-- The register at a byte address, for an access of `width` bytes: none where the spec gives the access no meaning, another
width than 4 or an address that is no register's (R62, R64, U19). No command makes such an access. -/
def regAt (m : AddrMap) (nports addr width : Nat) : Option BusReg :=
  if width = 4 then (BusReg.all nports).find? (fun r => m.busAddr r = addr) else none

end Sys2Proof.Machine
end

