-- ==== Sys2Proof/Machine/Flags.lean ====
section
/-! DEFINITION. Pad levels, the edge detector, the four flags of a line, requests and the line state machine. -/

namespace Sys2Proof.Machine

open Sys2Proof

/-- The port of a number; the caller has checked that it is implemented (R74). -/
def State.port (s : State) (p : Nat) : Port := s.ports.getD p ⟨PortRegs.zero, false, 0⟩

/-- `level(p, n)`: the output bit where the pin is looped, else the pad (R38). It does not depend on the clock (D37). -/
def State.level (s : State) (p : Nat) (n : Line) : Bool :=
  if looped s.config p n then bitOf (s.port p).regs.odr n else (s.port p).pad.getLsbD n

/-- `line_in(n) = level(SRC(n), n)` (R39). -/
def State.lineIn (s : State) (n : Line) : Bool := s.level s.config.src[n] n

/-- The `hit` of `EdgeCheck(n, old, new)`, with the mask where `LATCH_GATED_BY_MASK` says so (R163). -/
def edgeLatched (s : State) (n : Line) (old new : Bool) : Bool :=
  let hit := (!old && new && bitOf s.exti.rtsr n) || (old && !new && bitOf s.exti.ftsr n)
  hit && (bitOf s.exti.imr n || !s.config.latchGatedByMask)

/-- A step from `before` to `after` has changed pad levels: `EdgeCheck` runs for every line, and each hit sets its own pending
flag in the same step (R163, R196). -/
def latchEdges (before after : State) : State :=
  { after with exti := { after.exti with
      pr := after.exti.pr ||| ofPins fun n => edgeLatched after n (before.lineIn n) (after.lineIn n) } }

/-- `arm(n) = RTSR[n] or FTSR[n]` (R166). -/
def State.armed (s : State) (n : Line) : Bool := bitOf s.exti.rtsr n || bitOf s.exti.ftsr n

/-- `req(n) = PR[n] and IMR[n]`: a level, not latched anywhere else (R165). -/
def State.requests (s : State) (n : Line) : Bool := bitOf s.exti.pr n && bitOf s.exti.imr n

/-- `VEN[v]` (R37). -/
def State.vectorEnabled (s : State) (v : VectorId) : Bool := s.ven.getLsbD v

/-- The lines whose request reaches an enabled vector: links (2), (3) and (4) of R193. -/
def State.deliverable (s : State) (n : Line) : Bool := s.requests n && s.vectorEnabled s.config.vecOf[n]

/-- The vectors that links (2) to (4) of R193 let through, each once. -/
def State.vectorsUp (s : State) : List VectorId :=
  (((List.finRange 16).filter s.deliverable).map fun n => s.config.vecOf[n]).dedup

/-- Vector `v` is dispatchable: links (2) to (5) of R193. -/
def State.dispatchable (s : State) (v : VectorId) : Bool := s.active.isNone && decide (v ∈ s.vectorsUp)

/-- The states of a line, each a condition on its four flags (Table R166); `cleared` is `enabled`. -/
inductive LineState
  | disabled | armed | enabled | triggered | unmaskedUnarmed | latchedMasked | unreachable
  deriving DecidableEq, Repr

/-- Table R166. -/
def State.lineState (s : State) (n : Line) : LineState :=
  match s.armed n, bitOf s.exti.imr n, bitOf s.exti.pr n with
  | false, false, false => .disabled
  | true, false, false => .armed
  | true, true, false => .enabled
  | true, true, true => .triggered
  | false, true, false => .unmaskedUnarmed
  | true, false, true => .latchedMasked
  | false, _, true => .unreachable

end Sys2Proof.Machine
end

