-- ==== Sys2Proof/Machine/Ops.lean ====
section
/-! DEFINITION. The shared operations: register accesses, the accesses of a command and their boundaries, dispatch and return. -/

namespace Sys2Proof.Machine

open Sys2Proof

/-! ### Register accesses (R74) -/

/-- Change port `p`. -/
def State.modifyPort (s : State) (p : Nat) (f : Port → Port) : State := { s with ports := s.ports.modify p f }

/-- What a port register stores; `IDR` stores nothing (R20, R27). -/
def PortRegs.get (r : PortRegs) : PortReg → Word
  | .mode => r.mode
  | .otype => r.otype
  | .ospeed => r.ospeed
  | .pull => r.pull
  | .idr => 0
  | .odr => r.odr
  | .afl => r.afl
  | .afh => r.afh

/-- Store into a port register, reserved bits dropped; `IDR` is read-only (R23, R27, R28, R66, R74). -/
def PortRegs.set (r : PortRegs) (v : Word) : PortReg → PortRegs
  | .mode => { r with mode := v }
  | .otype => { r with otype := v &&& lowHalf }
  | .ospeed => { r with ospeed := v }
  | .pull => { r with pull := v }
  | .idr => r
  | .odr => { r with odr := v &&& lowHalf }
  | .afl => { r with afl := v }
  | .afh => { r with afh := v }

/-- The implemented bits of a port register (R22 to R28). -/
def implementedBits : PortReg → Word
  | .otype => lowHalf
  | .idr => lowHalf
  | .odr => lowHalf
  | .mode => 0xFFFFFFFF
  | .ospeed => 0xFFFFFFFF
  | .pull => 0xFFFFFFFF
  | .afl => 0xFFFFFFFF
  | .afh => 0xFFFFFFFF

/-- What an `EXTI` register stores. -/
def Exti.get (e : Exti) : ExtiReg → Word
  | .rtsr => e.rtsr
  | .ftsr => e.ftsr
  | .imr => e.imr
  | .pr => e.pr

/-- Store into an `EXTI` register, reserved bits dropped; a write of `PR` clears the bits written as 1 (R30, R34, R74). -/
def Exti.set (e : Exti) (v : Word) : ExtiReg → Exti
  | .rtsr => { e with rtsr := v &&& lowHalf }
  | .ftsr => { e with ftsr := v &&& lowHalf }
  | .imr => { e with imr := v &&& lowHalf }
  | .pr => { e with pr := e.pr &&& ~~~(v &&& lowHalf) }

/-- `IDR[p]` as a read samples it: bit `n` is `level(p, n)`, bits 31:16 zero (R27). -/
def State.idr (s : State) (p : Nat) : Word := ofPins (s.level p)

/-- `RegRead(B, reg)`: one access; a gated port reads as zero, reserved bits read as zero (R67, R74). -/
def State.regRead (s : State) : Reg → Word
  | .port p r =>
      if (s.port p).clken then
        match r with
        | .idr => s.idr p
        | r => (s.port p).regs.get r &&& implementedBits r
      else 0
  | .exti r => s.exti.get r &&& lowHalf

/-- `RegWrite(B, reg, v)`: one access; a gated port ignores it, a store to `ODR` runs the edge detector (R67, R74). -/
def State.regWrite (s : State) (r : Reg) (v : Word) : State :=
  match r with
  | .port p r =>
      if (s.port p).clken then
        match r with
        | .odr => latchEdges s (s.modifyPort p fun q => { q with regs := q.regs.set v .odr })
        | r => s.modifyPort p fun q => { q with regs := q.regs.set v r }
      else s
  | .exti r => { s with exti := s.exti.set v r }

/-- `RegWrite(PLAT, VECEN, v)`: `VEN[v] <- 1`, every other vector unchanged (R66 (f), R74). -/
def State.enableVector (s : State) (v : VectorId) : State := { s with ven := s.ven ||| BitVec.twoPow 256 v.val }

/-! ### The register bus (R60 to R64) -/

/-- What a platform register holds: bit `p` of the clock control is `CLKEN[p]`, and `VEN` is spread over eight words (Table R61). -/
def State.platRead (s : State) : PlatReg → Word
  | .clockControl => BitVec.ofFnLE fun p : Fin 32 => (s.port p).clken
  | .vectorEnable k => s.ven.extractLsb' (32 * k.val) 32

/-- A write of a platform register sets the enables written as 1 and leaves the others (R66 (f); for the clock control, which no
step ever clears, R36 and log entry 15). -/
def State.platWrite (s : State) (v : Word) : PlatReg → State
  | .clockControl => { s with ports := s.ports.mapIdx fun p q => { q with clken := q.clken || v.getLsbD p } }
  | .vectorEnable k => { s with ven := s.ven ||| v.setWidth 256 <<< (32 * k.val) }

/-- A read access of any register on the bus (R60, R62). -/
def State.busRead (s : State) : BusReg → Word
  | .block r => s.regRead r
  | .plat r => s.platRead r

/-- A write access of any register on the bus (R60, R62). -/
def State.busWrite (s : State) (r : BusReg) (v : Word) : State :=
  match r with
  | .block r => s.regWrite r v
  | .plat r => s.platWrite v r

/-- `MemRead(addr, width)`: none where the spec gives the access no meaning (R64, U19). No command makes one by address. -/
def State.memRead (s : State) (addr width : Nat) : Option Word := (regAt s.config.addr s.nports addr width).map s.busRead

/-- `MemWrite(addr, width, v)`, as `memRead` (R62, R64, U19). -/
def State.memWrite (s : State) (addr width : Nat) (v : Word) : Option State :=
  (regAt s.config.addr s.nports addr width).map (s.busWrite · v)

/-! ### The running context (R16, R42) -/

/-- The context that runs: `irq` while a vector is being serviced, else `main`. -/
def State.cur (s : State) : Ctx :=
  match s.active with
  | none => s.main
  | some svc => svc.ctx

/-- Replace the running context; the other one is untouched (R42, R197). -/
def State.setCur (s : State) (c : Ctx) : State :=
  match s.active with
  | none => { s with main := c }
  | some svc => { s with active := some { svc with ctx := c } }

/-- Change the in-flight record of the running context. -/
def State.setFlight (s : State) (f : InFlight) : State := s.setCur { s.cur with flight := f }

/-- `RES[c] <- b` (R40). -/
def State.setRes (s : State) (b : Bool) : State := s.setCur { s.cur with res := some b }

/-- The command is complete: `cp[c] <- cp[c] + 1`, nothing in flight (R7, R41). -/
def State.complete (s : State) : State := s.setCur { s.cur with cp := s.cur.cp + 1, flight := InFlight.fresh }

/-- The context has run its whole list: `cp[c] = length(prog[c])` (R41). -/
def Ctx.finished (c : Ctx) : Bool := c.prog.length ≤ c.cp

/-! ### Boundaries (log entry 1) -/

/-- A move of the machine brings the next planned event one move nearer. -/
def State.tick (s : State) : State :=
  { s with plan := match s.plan with
      | [] => []
      | (d, e) :: rest => (d - 1, e) :: rest }

/-- The next planned event falls at the present boundary. -/
def State.eventDue (s : State) : Bool :=
  match s.plan with
  | (0, _) :: _ => true
  | _ => false

/-- The cycle planned once more. At least one move of the machine falls before its first event, so the other agents cannot step
for ever while the machine stands still and a vector stays dispatchable (R197, log entry 8). -/
def State.nextRound (s : State) : List (Nat × Event) :=
  match s.cycle with
  | [] => []
  | (d, e) :: rest => (max 1 d, e) :: rest

/-- What is planned after an event whose successors in the plan are `rest`: at the end of the plan the cycle starts again. -/
def State.planAfter (s : State) (rest : List (Nat × Event)) : List (Nat × Event) := if rest = [] then s.nextRound else rest

/-! ### The accesses of a command (R8) -/

/-- One access of a command, with what it does to the in-flight record (R7, R75). -/
inductive Access
  /-- `t <- RegRead(r)` -/
  | read (r : Reg)
  /-- `b <- (RegRead(r) >> n) & 1` -/
  | sample (r : Reg) (n : Nat)
  /-- `RES[c] <- (RegRead(r) >> n) & 1` -/
  | latch (r : Reg) (n : Nat)
  /-- `t <- RegRead(r)`; the command goes on only if `t[n] = 1` -/
  | test (r : Reg) (n : Nat)
  /-- `RegWrite(r, t | v)` -/
  | writeOr (r : Reg) (v : Word)
  /-- `RegWrite(r, t & ~v)` -/
  | writeAndn (r : Reg) (v : Word)
  /-- `RegWrite(r, t & ~v)` if `b`, else `RegWrite(r, t | v)` -/
  | writeOpposite (r : Reg) (v : Word)
  /-- `RegWrite(r, v)` -/
  | write (r : Reg) (v : Word)
  /-- `RegWrite(PLAT, VECEN, v)` -/
  | enableVector (v : VectorId)
  deriving DecidableEq, Repr

/-- `RMW_OR(B, reg, v)`: two accesses (R75). -/
def rmwOr (r : Reg) (v : Word) : List Access := [.read r, .writeOr r v]

/-- `RMW_ANDN(B, reg, v)`: two accesses (R75). -/
def rmwAndn (r : Reg) (v : Word) : List Access := [.read r, .writeAndn r v]

/-- One more access of the current command is done; `f` is the record after it. -/
def InFlight.advance (f : InFlight) : InFlight := { f with done := f.done + 1 }

/-- Perform one access, atomically (R65), with the running context's in-flight values. -/
def Access.perform (a : Access) (s : State) : State :=
  let f := s.cur.flight
  match a with
  | .read r => s.setFlight { f with t := s.regRead r }.advance
  | .sample r n => s.setFlight { f with b := bitOf (s.regRead r) n }.advance
  | .latch r n => (s.setRes (bitOf (s.regRead r) n)).setFlight f.advance
  | .test r _ => s.setFlight { f with t := s.regRead r }.advance
  | .writeOr r v => (s.regWrite r (f.t ||| v)).setFlight f.advance
  | .writeAndn r v => (s.regWrite r (f.t &&& ~~~v)).setFlight f.advance
  | .writeOpposite r v => (s.regWrite r (if f.b then f.t &&& ~~~v else f.t ||| v)).setFlight f.advance
  | .write r v => (s.regWrite r v).setFlight f.advance
  | .enableVector v => (s.enableVector v).setFlight f.advance

/-- After this access the rest of the command is not made: only a test that read a 0 (R162). -/
def Access.endsCommand (a : Access) (after : State) : Bool :=
  match a with
  | .test _ n => !bitOf after.cur.flight.t n
  | _ => false

/-- Perform the given accesses in order, up to the end of the command or to the boundary where another agent is due, whichever
comes first. A command without an access completes at once (R41, R120). -/
def runAccesses : List Access → State → State
  | [], s => s.tick.complete
  | a :: rest, s =>
    let s' := (a.perform s).tick
    if rest.isEmpty || a.endsCommand s' then s'.complete
    else if s'.eventDue then s'
    else runAccesses rest s'

/-- Run a command from where its in-flight record stands (R42). -/
def runCommand (as : List Access) (s : State) : State := runAccesses (as.drop s.cur.flight.done) s

/-- The outcome of a machine step. -/
abbrev Result := Host.Outcome State Fault Refusal

/-- The guard on the pin operand, first of all (R100, R120, R191). -/
def guardPin (pin : Nat) (r : Result) : Result := if pin ≤ 15 then r else .refused .pinOutOfRange

/-- A port command without a result: no access for an absent port, else the accesses the operation lists (R68, R120). -/
def portCommand (port : PortSel) (pin : Nat) (as : Nat → List Access) (s : State) : Result :=
  guardPin pin (.next (match s.resolvePort port with
    | some p => runCommand (as p) s
    | none => runCommand [] s))

/-! ### Interrupts: entry and return (R197, R198) -/

/-- TAKING AN INTERRUPT: `Dispatch(v)`. `active <- v`, a fresh context `irq` with `prog = ISR(v)`; `main` is frozen with its
in-flight record; no register of the block changes, nothing is saved in the block (R197). -/
def State.dispatch (s : State) (v : VectorId) : State :=
  { s with active := some ⟨v, Ctx.start (isrOf s.config v)⟩ }

/-- RETURNING: `active <- none`, the context `irq` discarded with its `RES`; `main` resumes where it was frozen (R198). -/
def State.return (s : State) : State := { s with active := none }

/-- The vector taken when the platform must take one of several: any of them (R195, log entry 7); no choice where there is one. -/
def State.chooseVector (s : State) (v : VectorId) (vs : List VectorId) : VectorId :=
  match vs with
  | [] => v
  | _ => (v :: vs).getD (Config.vectorChoice s.draws % (v :: vs).length) v

/-! ### The other agents' steps (R16) -/

/-- The step of another agent. A `Dispatch` that is not possible in the state is no step: nothing happens (R197, R199). -/
def Event.apply (e : Event) (s : State) : State :=
  match e with
  | .padDrive p n b =>
      latchEdges s (s.modifyPort p fun q =>
        { q with pad := if b then q.pad ||| BitVec.twoPow 16 n.val else q.pad &&& ~~~(BitVec.twoPow 16 n.val) })
  | .forcePending n => { s with exti := { s.exti with pr := s.exti.pr ||| pinMask n } }
  | .clockOn p => s.modifyPort p fun q => { q with clken := true }
  | .dispatch v => if s.dispatchable v then s.dispatch v else s

/-- The running context has finished its list: a service returns (R198); a finished mainline must be interrupted while a vector
is dispatchable (R197, R222); else the run is over and the machine idles (R207, R222). -/
def State.afterLast (s : State) : State :=
  match s.active with
  | some _ => s.return.tick
  | none =>
    match s.vectorsUp with
    | [] => s.tick
    | v :: vs => { (s.dispatch (s.chooseVector v vs)).tick with draws := s.draws + 1 }

/-- The command word in progress or next to start; an all-zero word, which is invalid, past the end of the list (R41). -/
def State.fetch (s : State) : Word := s.cur.prog.getD s.cur.cp 0

/-- The list with one word put at an index; what is missing below it is filled with zero words. -/
def putWord (prog : List Word) (at' : Nat) (w : Word) : List Word :=
  prog.take at' ++ List.replicate (at' - prog.length) 0 ++ w :: prog.drop (at' + 1)

end Sys2Proof.Machine
end

