-- ==== Sys2Proof/Machine/InterruptLine.lean ====
section
/-! DEFINITION. The interrupt-line operations: `IEDG`, `IEN` and `ICLR` (42_interrupt_line.md). -/

namespace Sys2Proof.Machine

open Sys2Proof

/-- The zero, two or four accesses of `IEDG` (R160). -/
def iedgAccesses (n : Nat) : EdgeSel → List Access
  | .rising => rmwOr (.exti .rtsr) (pinMask n)
  | .falling => rmwOr (.exti .ftsr) (pinMask n)
  | .both => rmwOr (.exti .rtsr) (pinMask n) ++ rmwOr (.exti .ftsr) (pinMask n)
  | .neither => []
  | .unrecognised _ => []

/-- `IEDG`, configure interrupt edge (R160). -/
def execIedg (pin : Nat) (edge : EdgeSel) (s : State) : Result :=
  guardPin pin (.next (runCommand (iedgAccesses pin edge) s))

/-- The three accesses of `IEN`: unmask the line, then enable the vector (R161). -/
def ienAccesses (n : Nat) (v : VectorId) : List Access :=
  rmwOr (.exti .imr) (pinMask n) ++ [.enableVector v]

/-- `IEN`, enable interrupt (R161). -/
def execIen (pin : Nat) (vector : VectorId) (s : State) : Result :=
  guardPin pin (.next (runCommand (ienAccesses pin vector) s))

/-- The accesses of `ICLR`: the read, and the write only if the bit read was 1 (R162). -/
def iclrAccesses (n : Nat) : List Access := [.test (.exti .pr) n, .write (.exti .pr) (pinMask n)]

/-- `ICLR`, clear interrupt pending (R162). -/
def execIclr (pin : Nat) (s : State) : Result :=
  guardPin pin (.next (runCommand (iclrAccesses pin) s))

end Sys2Proof.Machine
end

