-- ==== Sys2Proof/Machine/PinConfig.lean ====
section
/-! DEFINITION. The pin configuration operations: `CFG` and `SAF` (40_pin_config.md). -/

namespace Sys2Proof.Machine

open Sys2Proof

/-- The eight accesses of `CFG`: set-mode, set-output-type, set-speed, set-pull, in that order (R121 to R125). -/
def cfgAccesses (p n : Nat) (mode : BitVec 3) (otype : BitVec 2) (speed pull : BitVec 3) : List Access :=
  rmwOr (.port p .mode) (toField mode 2 n) ++ rmwOr (.port p .otype) (toField otype 1 n) ++
  rmwOr (.port p .ospeed) (toField speed 2 n) ++ rmwOr (.port p .pull) (toField pull 2 n)

/-- `CFG`, configure pin; the alternate-function operand is carried and not used (R121). -/
def execCfg (port : PortSel) (pin : Nat) (mode : BitVec 3) (otype : BitVec 2) (speed pull : BitVec 3) (_af : BitVec 4) (s : State) :
    Result :=
  portCommand port pin (fun p => cfgAccesses p pin mode otype speed pull) s

/-- The two accesses of `SAF` (R126). -/
def safAccesses (p n : Nat) (af : BitVec 4) : List Access := rmwOr (.port p (afReg n)) (toField af 4 (n % 8))

/-- `SAF`, set alternate function (R126). -/
def execSaf (port : PortSel) (pin : Nat) (af : BitVec 4) (s : State) : Result :=
  portCommand port pin (fun p => safAccesses p pin af) s

end Sys2Proof.Machine
end

