-- ==== Sys2Proof/Machine/PinData.lean ====
section
/-! DEFINITION. The pin data operations: `RDP`, `WRP` and `TGL` (41_pin_data.md). -/

namespace Sys2Proof.Machine

open Sys2Proof

/-- The one access of `RDP` (R140). -/
def rdpAccesses (p n : Nat) : List Access := [.latch (.port p .idr) n]

/-- `RDP`, read pin; an absent port delivers 0 without an access (R140). -/
def execRdp (port : PortSel) (pin : Nat) (s : State) : Result :=
  guardPin pin (.next (match s.resolvePort port with
    | some p => runCommand (rdpAccesses p pin) s
    | none => runCommand [] (s.setRes false)))

/-- The two accesses of `WRP` (R141). -/
def wrpAccesses (p n : Nat) (value : Bool) : List Access :=
  if value then rmwOr (.port p .odr) (pinMask n) else rmwAndn (.port p .odr) (pinMask n)

/-- `WRP`, write pin (R141). -/
def execWrp (port : PortSel) (pin : Nat) (value : Bool) (s : State) : Result :=
  portCommand port pin (fun p => wrpAccesses p pin value) s

/-- The three accesses of `TGL`: the read of the input level, then the read-modify-write of the opposite (R142). -/
def tglAccesses (p n : Nat) : List Access :=
  [.sample (.port p .idr) n, .read (.port p .odr), .writeOpposite (.port p .odr) (pinMask n)]

/-- `TGL`, toggle pin; it does not write `RES` (R142). -/
def execTgl (port : PortSel) (pin : Nat) (s : State) : Result :=
  portCommand port pin (fun p => tglAccesses p pin) s

end Sys2Proof.Machine
end

