-- ==== Sys2Proof/Machine/Dispatch.lean ====
section
/-! DEFINITION. One arm per instruction, each one call of its meaning. -/

namespace Sys2Proof.Machine

open Sys2Proof

def exec (i : Instr) (s : State) : Host.Outcome State Fault Refusal :=
  match i with
  | .cfg port pin mode otype speed pull af => Sys2Proof.Machine.execCfg port pin mode otype speed pull af s
  | .rdp port pin => Sys2Proof.Machine.execRdp port pin s
  | .wrp port pin value => Sys2Proof.Machine.execWrp port pin value s
  | .tgl port pin => Sys2Proof.Machine.execTgl port pin s
  | .saf port pin af => Sys2Proof.Machine.execSaf port pin af s
  | .iedg pin edge => Sys2Proof.Machine.execIedg pin edge s
  | .ien pin vector => Sys2Proof.Machine.execIen pin vector s
  | .iclr pin => Sys2Proof.Machine.execIclr pin s

end Sys2Proof.Machine
end

