-- ==== Sys2Proof/Machine/Step.lean ====
section
/-! DEFINITION. One step of the machine: a planned event that is due, the end of a command list, or the command in progress. -/

namespace Sys2Proof.Machine

open Sys2Proof

/-- One step (R16, R69): another agent steps if its event is due; else, a context that has finished its list gives way (R198,
R222); else the command at the pointer is decoded and run, from where its in-flight record stands, up to its end or to the
boundary where the next event is due. -/
def step (s : State) : Host.Outcome State Fault Refusal :=
  match s.plan with
  | (0, e) :: rest => .next (e.apply { s with plan := s.planAfter rest })
  | _ =>
    if s.cur.finished then .next s.afterLast
    else
      match decode s.fetch with
      | .command i => exec i s
      | .invalid _ => .refused .invalidCommand

/-- The state whose very next step runs the given word: the word stands at the running context's command pointer, nothing is
in flight in that context, and no other agent is planned (log entry 2). -/
def State.withFetchWord (s : State) (nbits w : Nat) : State :=
  { s.setCur { s.cur with
      prog := putWord s.cur.prog s.cur.cp (BitVec.ofNat 32 (w % 2 ^ nbits)),
      flight := InFlight.fresh } with plan := [] }

end Sys2Proof.Machine
end

