-- ==== Sys2Proof/Safety.lean ====
section
/-! DEFINITION. The terms statements are written in: safe runs, the invariant, quiet stretches of the plan, completion and frames. -/

namespace Sys2Proof.Machine

open Sys2Proof

/-! ### Safe runs and the invariant -/

/-- A run of `k` steps meets no refusal (R191: no claim holds of a run that contains one; there is no fault, R190). -/
def SafeFor (k : Nat) (s : State) : Prop := ∃ t, Sys2Proof.core.run k s = .next t

/-- Bits 31:16 are zero (R23, R28, R30). -/
abbrev HighClear (v : Word) : Prop := v &&& ~~~lowHalf = 0

/-- The reserved bits of every stored register are zero (R23, R28, R30). -/
abbrev ReservedClear (s : State) : Prop :=
  (∀ q ∈ s.ports, HighClear q.regs.otype ∧ HighClear q.regs.odr) ∧
  HighClear s.exti.rtsr ∧ HighClear s.exti.ftsr ∧ HighClear s.exti.imr ∧ HighClear s.exti.pr

/-- A context's pointer is inside its list or at its end, and a finished context has nothing in flight (R41, R42). -/
abbrev Ctx.ok (c : Ctx) : Prop := c.cp ≤ c.prog.length ∧ (c.cp = c.prog.length → c.flight = InFlight.fresh)

/-- NPORTS is from 1 to 15 (R5). -/
abbrev PortCountOk (s : State) : Prop := 1 ≤ s.nports ∧ s.nports ≤ 15

/-- The invariant of the machine. -/
structure Inv (s : State) : Prop where
  ports    : PortCountOk s
  reserved : ReservedClear s
  main     : s.main.ok
  addr     : s.config.addr.wf s.nports
  irq      : ∀ svc ∈ s.active, svc.ctx.ok ∧ svc.ctx.prog = isrOf s.config svc.vector

/-! ### Runs without interruption -/

/-- The plan after `k` moves. -/
def ticks (k : Nat) : List (Nat × Event) → List (Nat × Event)
  | [] => []
  | (d, e) :: rest => (d - k, e) :: rest

/-- No other agent is due at any of the next `k` boundaries: a command of `k + 1` accesses is not interrupted. -/
def State.quiet (s : State) (k : Nat) : Prop :=
  match s.plan with
  | [] => True
  | (d, _) :: _ => k < d

/-- The running context has nothing in flight: its next command starts with its first access. -/
def State.fresh (s : State) : Prop := s.cur.flight.done = 0

/-- From `s` to `t` the running context has completed one command, with the result latch at `res`: its pointer is one further,
nothing is in flight, its list is the same; the other context, the parameters, the free choices and the cycle of the other
agents are as they were. -/
def Completed (res : Option Bool) (s t : State) : Prop :=
  t.main = (s.setCur { s.cur with cp := s.cur.cp + 1, flight := InFlight.fresh, res := res }).main ∧
  t.active = (s.setCur { s.cur with cp := s.cur.cp + 1, flight := InFlight.fresh, res := res }).active ∧
  t.draws = s.draws ∧ t.config = s.config ∧ t.cycle = s.cycle

/-! ### Frames -/

/-- What a register stores, before gating (R20). -/
def State.stored (s : State) : Reg → Word
  | .port p r => (s.port p).regs.get r
  | .exti r => s.exti.get r

/-- Ports, clocks and pads are unchanged: the number of ports, every clock enable, every pad level. -/
def SamePlatform (s t : State) : Prop :=
  t.nports = s.nports ∧ ∀ p, (t.port p).clken = (s.port p).clken ∧ (t.port p).pad = (s.port p).pad

/-- Every register but the listed ones stores what it stored. -/
def SameRegsBut (but : List Reg) (s t : State) : Prop := ∀ r, r ∉ but → t.stored r = s.stored r

/-- Ports, clocks, pads, vector enables, and every register but the listed ones, are unchanged. -/
def SameBut (but : List Reg) (s t : State) : Prop := SamePlatform s t ∧ t.ven = s.ven ∧ SameRegsBut but s t

/-- The requester is unchanged: both contexts, the service in progress, the parameters, the free choices, and the cycle of the
other agents. -/
def SameRequester (s t : State) : Prop :=
  t.main = s.main ∧ t.active = s.active ∧ t.config = s.config ∧ t.draws = s.draws ∧ t.cycle = s.cycle

/-- R163, written out: from `s` to `t` the pending flag of a line is set exactly when its input rose and the line is armed
rising, or fell and it is armed falling, and the line is unmasked or the latch is not gated by the mask; no flag is cleared and
bits 31:16 stay. -/
def PendingByEdges (s t : State) : Prop :=
  (∀ n : Line, t.exti.pr.getLsbD n =
    (s.exti.pr.getLsbD n ||
      (((!s.lineIn n && t.lineIn n && s.exti.rtsr.getLsbD n) || (s.lineIn n && !t.lineIn n && s.exti.ftsr.getLsbD n)) &&
        (s.exti.imr.getLsbD n || !s.config.latchGatedByMask)))) ∧
  t.exti.pr >>> 16 = s.exti.pr >>> 16

/-- A port operand that names an implemented port whose clock is on. -/
def State.Ready (s : State) (p : Fin 15) : Prop := p.val < s.nports ∧ (s.port p.val).clken = true

/-- A port operand that names an implemented port whose clock is off (R67). -/
def State.Gated (s : State) (p : Fin 15) : Prop := p.val < s.nports ∧ (s.port p.val).clken = false

/-- A port operand that is null or names a port that is not implemented (R68). -/
def State.Absent (s : State) (port : PortSel) : Prop :=
  match port with
  | .null => True
  | .index p => s.nports ≤ p.val

/-- The accesses command `i` makes when nothing interrupts it (Table R232). A command of 0 accesses is still one
move of the machine. -/
def accessCount (i : Instr) (s : State) : Nat :=
  match i with
  | .cfg port _ _ _ _ _ _ => if (s.resolvePort port).isSome then 8 else 0
  | .rdp port _ => if (s.resolvePort port).isSome then 1 else 0
  | .wrp port _ _ => if (s.resolvePort port).isSome then 2 else 0
  | .tgl port _ => if (s.resolvePort port).isSome then 3 else 0
  | .saf port _ _ => if (s.resolvePort port).isSome then 2 else 0
  | .iedg _ .rising => 2
  | .iedg _ .falling => 2
  | .iedg _ .both => 4
  | .iedg _ .neither => 0
  | .iedg _ (.unrecognised _) => 0
  | .ien _ _ => 3
  | .iclr n => if bitOf s.exti.pr n then 2 else 1

/-! ### Fairness -/

/-- Links (2) to (4) of R193: some line requests the vector, and it is enabled. With no service active it is dispatchable. -/
def State.Up (s : State) (v : VectorId) : Prop :=
  ∃ n : Line, s.config.vecOf[n] = v ∧ s.exti.pr.getLsbD n = true ∧ s.exti.imr.getLsbD n = true ∧ s.ven.getLsbD v = true

/-- The fairness of R197, of vectors that compete too: from every position of the run on, a vector that stays up, every step being
a next state, comes to be served. A statement that rests on this promise has it as a premise (log entry 8). -/
def FairRun (s : State) : Prop :=
  ∀ (v : VectorId) (m : Nat), (∀ k, m ≤ k → ∃ t : State, Sys2Proof.core.run k s = .next t ∧ t.Up v) →
    ∃ (k : Nat) (t : State), m ≤ k ∧ Sys2Proof.core.run k s = .next t ∧ t.active.map Service.vector = some v

/-- The storm of R200, with a routine of one command `i` that is not `ICLR`: vector `v` is up, and the platform is planned to take
it at once and again at every return. -/
structure Storm (s : State) (v : VectorId) (i : Instr) : Prop where
  idle    : s.active = none
  up      : s.Up v
  routine : ∃ w, s.config.isr.find? (fun e => e.1 = v) = some (v, [w]) ∧ decode w = .command i
  pin     : i.pin ≤ 15
  keeps   : ∀ m, i ≠ .iclr m
  now     : s.plan = [(0, .dispatch v)]
  again   : s.cycle = [(max 1 (accessCount i s) + 1, .dispatch v)]

/-! ### The port of a command -/

/-- The port operand of a command, if it has one. -/
def portOf : Instr → Option PortSel
  | .cfg p _ _ _ _ _ _ => some p
  | .rdp p _ => some p
  | .wrp p _ _ => some p
  | .tgl p _ => some p
  | .saf p _ _ => some p
  | .iedg _ _ => none
  | .ien _ _ => none
  | .iclr _ => none

end Sys2Proof.Machine
end

