-- ==== Sys2Proof/Certificates/Slice0/Obligations.lean ====
section
/-! DEFINITION. The statements about the machine. `s.quiet k` is the premise that no other agent steps at the `k`
boundaries inside the command; how another agent's step is planned, and `s.planAfter rest`, the plan that is left behind a
planned step, are the model's own (log entry 1). -/

open Sys2Proof Sys2Proof.Machine

/-! ### Encoding -/

/-- Words written out from the fields of R91 and R93 to R98 decode to the commands they stand for. -/
def Obligations.WrittenWordsDecode : Prop :=
  decode 0x100F394A = .command (.cfg (.index 0) 15 2 1 2 1 7) ∧
  decode 0x230C0000 = .command (.rdp (.index 3) 12) ∧
  decode 0x330C0001 = .command (.wrp (.index 3) 12 true) ∧
  decode 0x4F020000 = .command (.tgl .null 2) ∧
  decode 0x5009000A = .command (.saf (.index 0) 9 10) ∧
  decode 0x60050009 = .command (.iedg 5 (.unrecognised 9)) ∧
  decode 0x700D0028 = .command (.ien 13 40) ∧
  decode 0x80100000 = .command (.iclr 16)

/-- Decoding the word of a well-formed instruction gives the instruction back, every operand at every value (R91 to R99, R108). -/
def Obligations.DecodeOfEncodeIsTheInstruction : Prop :=
  ∀ i : Instr, i.wellFormed = true → decode (encode i) = .command i

/-- Every word that decodes is the word of the instruction it decodes to, and that instruction is well formed. It rests on the
model's choice of log entry 13 (DEDUCED): R99 treats every absent port alike, and the model's operand keeps the absent number. -/
def Obligations.EncodeOfDecodeIsTheWord : Prop :=
  ∀ (w : Word) (i : Instr), decode w = .command i → i.wellFormed = true ∧ encode i = w

/-- R104: the decoder answers the one row of the table that matches, or `invalid`. -/
def Obligations.DecoderFollowsTheOpcodeTable : Prop :=
  opcodeTable =
    [ ⟨"CFG", 0x10000000, 0xF0008000⟩, ⟨"RDP", 0x20000000, 0xF000FFFF⟩, ⟨"WRP", 0x30000000, 0xF000FFFE⟩,
      ⟨"TGL", 0x40000000, 0xF000FFFF⟩, ⟨"SAF", 0x50000000, 0xF000FFF0⟩, ⟨"IEDG", 0x60000000, 0xFF00FFF0⟩,
      ⟨"IEN", 0x70000000, 0xFF00FF00⟩, ⟨"ICLR", 0x80000000, 0xFF00FFFF⟩ ] ∧
  ∀ w : Word,
    (∀ row ∈ opcodeTable, w &&& row.mask = row.matchWord →
      (∃ i, decode w = .command i ∧ i.mnemonic = row.mnemonic) ∧
      ∀ row' ∈ opcodeTable, w &&& row'.mask = row'.matchWord → row' = row) ∧
    ((∀ row ∈ opcodeTable, w &&& row.mask ≠ row.matchWord) → ∃ why, decode w = .invalid why)

/-- R101, with no other agent due (log entry 1): a step at a word that matches no row refuses the run with `InvalidCommand`; a step at one that matches does not. -/
def Obligations.InvalidWordsAreRefused : Prop :=
  ∀ s : State, s.eventDue = false → s.cur.cp < s.cur.prog.length →
    ((∀ row ∈ opcodeTable, s.fetch &&& row.mask ≠ row.matchWord) → step s = .refused .invalidCommand) ∧
    ((∃ row ∈ opcodeTable, s.fetch &&& row.mask = row.matchWord) → step s ≠ .refused .invalidCommand)

/-! ### The step, and refusals -/

/-- With no other agent due (log entry 1) and the list not finished, a step is the meaning of the command the word at the pointer decodes to. -/
def Obligations.StepRunsTheDecodedCommand : Prop :=
  ∀ (s : State) (i : Instr), s.eventDue = false → s.cur.cp < s.cur.prog.length →
    decode (s.cur.prog.getD s.cur.cp 0) = .command i → step s = exec i s

/-- R100: every command with a pin operand above 15 is refused with `PinOutOfRange`. -/
def Obligations.PinAboveFifteenIsRefused : Prop :=
  ∀ (i : Instr) (s : State), 16 ≤ i.pin → exec i s = .refused .pinOutOfRange

/-- R190: every command with a pin operand of at most 15 is taken, in every state: no fault, no refusal. -/
def Obligations.PinUpToFifteenIsTaken : Prop :=
  ∀ (i : Instr) (s : State), i.pin ≤ 15 → ∃ t, exec i s = .next t

/-! ### Pin configuration -/

/-- R121 to R125: `CFG` ORs the four shifted operands into the four registers and changes nothing else; on a gated or
absent port nothing changes. -/
def Obligations.ConfigurePinOrsFourFields : Prop :=
  ∀ (s : State) (n : Line) (mode : BitVec 3) (otype : BitVec 2) (speed pull : BitVec 3) (af : BitVec 4), s.fresh →
    (∀ p : Fin 15, s.quiet 7 → s.Ready p →
      ∃ t, exec (.cfg (.index p) n mode otype speed pull af) s = .next t ∧ Completed s.cur.res s t ∧
        t.stored (.port p .mode) = s.regRead (.port p .mode) ||| mode.setWidth 32 <<< (2 * n.val) ∧
        t.stored (.port p .otype) = (s.regRead (.port p .otype) ||| otype.setWidth 32 <<< n.val) &&& 0x0000FFFF ∧
        t.stored (.port p .ospeed) = s.regRead (.port p .ospeed) ||| speed.setWidth 32 <<< (2 * n.val) ∧
        t.stored (.port p .pull) = s.regRead (.port p .pull) ||| pull.setWidth 32 <<< (2 * n.val) ∧
        SameBut [.port p .mode, .port p .otype, .port p .ospeed, .port p .pull] s t) ∧
    (∀ p : Fin 15, s.quiet 7 → s.Gated p →
      ∃ t, exec (.cfg (.index p) n mode otype speed pull af) s = .next t ∧ Completed s.cur.res s t ∧ SameBut [] s t) ∧
    (∀ port : PortSel, s.Absent port →
      ∃ t, exec (.cfg port n mode otype speed pull af) s = .next t ∧ Completed s.cur.res s t ∧ SameBut [] s t)

/-- R126: `SAF` ORs the shifted selector into the first alternate-function register for pins 0 to 7 and the second for pins 8 to
15, and changes nothing else; gated and absent ports as for `CFG`. -/
def Obligations.SetAlternateFunctionOrsOneNibble : Prop :=
  ∀ (s : State) (n : Line) (af : BitVec 4), s.fresh →
    (∀ p : Fin 15, s.quiet 1 → s.Ready p →
      ∃ t, exec (.saf (.index p) n af) s = .next t ∧ Completed s.cur.res s t ∧
        (n.val ≤ 7 → t.stored (.port p .afl) = s.regRead (.port p .afl) ||| af.setWidth 32 <<< (4 * n.val) ∧
          SameBut [.port p .afl] s t) ∧
        (8 ≤ n.val → t.stored (.port p .afh) = s.regRead (.port p .afh) ||| af.setWidth 32 <<< (4 * (n.val % 8)) ∧
          SameBut [.port p .afh] s t)) ∧
    (∀ p : Fin 15, s.quiet 1 → s.Gated p →
      ∃ t, exec (.saf (.index p) n af) s = .next t ∧ Completed s.cur.res s t ∧ SameBut [] s t) ∧
    (∀ port : PortSel, s.Absent port →
      ∃ t, exec (.saf port n af) s = .next t ∧ Completed s.cur.res s t ∧ SameBut [] s t)

/-- R127: after an uninterrupted `CFG` or `SAF` the field of the pin holds the OR of what it held and the operand. -/
def Obligations.ConfigurationFieldsAccumulate : Prop :=
  ∀ (s t : State) (p : Fin 15) (n : Line), s.fresh → s.Ready p →
    (∀ (mode : BitVec 3) (otype : BitVec 2) (speed pull : BitVec 3) (af : BitVec 4), s.quiet 7 →
      exec (.cfg (.index p) n mode otype speed pull af) s = .next t →
        pinFieldOf 2 n (t.regRead (.port p .mode)) = pinFieldOf 2 n (s.regRead (.port p .mode)) ||| mode.setWidth 2 ∧
        pinFieldOf 1 n (t.regRead (.port p .otype)) = pinFieldOf 1 n (s.regRead (.port p .otype)) ||| otype.setWidth 1 ∧
        pinFieldOf 2 n (t.regRead (.port p .ospeed)) = pinFieldOf 2 n (s.regRead (.port p .ospeed)) ||| speed.setWidth 2 ∧
        pinFieldOf 2 n (t.regRead (.port p .pull)) = pinFieldOf 2 n (s.regRead (.port p .pull)) ||| pull.setWidth 2) ∧
    (∀ af : BitVec 4, s.quiet 1 → exec (.saf (.index p) n af) s = .next t →
        pinFieldOf 4 (n.val % 8) (t.regRead (.port p (if n.val ≤ 7 then .afl else .afh))) =
          pinFieldOf 4 (n.val % 8) (s.regRead (.port p (if n.val ≤ 7 then .afl else .afh))) ||| af)

/-- R128 (derived in the spec): with valid enumerants and no interruption, configuring a pin leaves every other pin's fields unchanged, for `SAF` with
any selector. -/
def Obligations.OtherPinsArePreserved : Prop :=
  ∀ (s t : State) (p : Fin 15) (n q : Line), s.fresh → s.Ready p → q ≠ n →
    (∀ (mode : BitVec 3) (otype : BitVec 2) (speed pull : BitVec 3) (af : BitVec 4), s.quiet 7 →
      mode ≤ 3 → otype ≤ 1 → speed ≤ 3 → pull ≤ 3 →
      exec (.cfg (.index p) n mode otype speed pull af) s = .next t →
        pinFieldOf 2 q (t.regRead (.port p .mode)) = pinFieldOf 2 q (s.regRead (.port p .mode)) ∧
        pinFieldOf 1 q (t.regRead (.port p .otype)) = pinFieldOf 1 q (s.regRead (.port p .otype)) ∧
        pinFieldOf 2 q (t.regRead (.port p .ospeed)) = pinFieldOf 2 q (s.regRead (.port p .ospeed)) ∧
        pinFieldOf 2 q (t.regRead (.port p .pull)) = pinFieldOf 2 q (s.regRead (.port p .pull))) ∧
    (∀ af : BitVec 4, s.quiet 1 → exec (.saf (.index p) n af) s = .next t →
        pinFieldOf 4 (q.val % 8) (t.regRead (.port p (if q.val ≤ 7 then .afl else .afh))) =
          pinFieldOf 4 (q.val % 8) (s.regRead (.port p (if q.val ≤ 7 then .afl else .afh))))

/-- R129: the extra high bit of an invalid enumerant is ORed into the lowest bit of the next pin's field and into no other pin's;
at pin 15 it is lost, and reserved bit 16 of `OTYPE` is not stored. -/
def Obligations.InvalidEnumerantsSpillIntoTheNextPin : Prop :=
  ∀ (s t : State) (p : Fin 15) (n : Line) (mode : BitVec 3) (otype : BitVec 2) (speed pull : BitVec 3) (af : BitVec 4),
    s.fresh → s.quiet 7 → s.Ready p → exec (.cfg (.index p) n mode otype speed pull af) s = .next t →
      (∀ m : Line, m.val = n.val + 1 →
        pinFieldOf 2 m (t.regRead (.port p .mode)) =
          pinFieldOf 2 m (s.regRead (.port p .mode)) ||| (if mode.getLsbD 2 then 1 else 0) ∧
        pinFieldOf 1 m (t.regRead (.port p .otype)) =
          pinFieldOf 1 m (s.regRead (.port p .otype)) ||| (if otype.getLsbD 1 then 1 else 0) ∧
        pinFieldOf 2 m (t.regRead (.port p .ospeed)) =
          pinFieldOf 2 m (s.regRead (.port p .ospeed)) ||| (if speed.getLsbD 2 then 1 else 0) ∧
        pinFieldOf 2 m (t.regRead (.port p .pull)) =
          pinFieldOf 2 m (s.regRead (.port p .pull)) ||| (if pull.getLsbD 2 then 1 else 0)) ∧
      (t.stored (.port p .otype)).getLsbD 16 = false ∧
      (∀ m : Line, m.val ≠ n.val → m.val ≠ n.val + 1 →
        pinFieldOf 2 m (t.regRead (.port p .mode)) = pinFieldOf 2 m (s.regRead (.port p .mode)) ∧
        pinFieldOf 1 m (t.regRead (.port p .otype)) = pinFieldOf 1 m (s.regRead (.port p .otype)) ∧
        pinFieldOf 2 m (t.regRead (.port p .ospeed)) = pinFieldOf 2 m (s.regRead (.port p .ospeed)) ∧
        pinFieldOf 2 m (t.regRead (.port p .pull)) = pinFieldOf 2 m (s.regRead (.port p .pull)))

/-! ### Pin data -/

/-- R140: `RDP` delivers the pin's level in the running context's latch, 0 on a gated or absent port, and changes nothing else. -/
def Obligations.ReadPinDeliversTheLevel : Prop :=
  ∀ (s : State) (n : Line), s.fresh →
    (∀ p : Fin 15, s.Ready p →
      ∃ t, exec (.rdp (.index p) n) s = .next t ∧ Completed (some (s.level p n)) s t ∧ SameBut [] s t) ∧
    (∀ p : Fin 15, s.Gated p →
      ∃ t, exec (.rdp (.index p) n) s = .next t ∧ Completed (some false) s t ∧ SameBut [] s t) ∧
    (∀ port : PortSel, s.Absent port →
      ∃ t, exec (.rdp port n) s = .next t ∧ Completed (some false) s t ∧ SameBut [] s t)

/-- R141: `WRP` sets or clears exactly the pin's bit of `ODR`; the pending flags follow the edges it causes;
nothing else changes; a gated or absent port keeps everything. -/
def Obligations.WritePinWritesExactlyThatBit : Prop :=
  ∀ (s : State) (n : Line) (v : Bool), s.fresh →
    (∀ p : Fin 15, s.quiet 1 → s.Ready p →
      ∃ t, exec (.wrp (.index p) n v) s = .next t ∧ Completed s.cur.res s t ∧
        t.stored (.port p .odr) =
          (if v then s.regRead (.port p .odr) ||| BitVec.twoPow 32 n.val
            else s.regRead (.port p .odr) &&& ~~~(BitVec.twoPow 32 n.val)) ∧
        PendingByEdges s t ∧ SameBut [.port p .odr, .exti .pr] s t) ∧
    (∀ p : Fin 15, s.quiet 1 → s.Gated p →
      ∃ t, exec (.wrp (.index p) n v) s = .next t ∧ Completed s.cur.res s t ∧ SameBut [] s t) ∧
    (∀ port : PortSel, s.Absent port →
      ∃ t, exec (.wrp port n v) s = .next t ∧ Completed s.cur.res s t ∧ SameBut [] s t)

/-- R142: `TGL` writes the complement of the pin's input level into its bit of `ODR`, and does not write the
result latch; otherwise as `WRP`. -/
def Obligations.TogglePinWritesTheOppositeOfTheLevel : Prop :=
  ∀ (s : State) (n : Line), s.fresh →
    (∀ p : Fin 15, s.quiet 2 → s.Ready p →
      ∃ t, exec (.tgl (.index p) n) s = .next t ∧ Completed s.cur.res s t ∧
        t.stored (.port p .odr) =
          (if s.level p n then s.regRead (.port p .odr) &&& ~~~(BitVec.twoPow 32 n.val)
            else s.regRead (.port p .odr) ||| BitVec.twoPow 32 n.val) ∧
        PendingByEdges s t ∧ SameBut [.port p .odr, .exti .pr] s t) ∧
    (∀ p : Fin 15, s.quiet 2 → s.Gated p →
      ∃ t, exec (.tgl (.index p) n) s = .next t ∧ Completed s.cur.res s t ∧ SameBut [] s t) ∧
    (∀ port : PortSel, s.Absent port →
      ∃ t, exec (.tgl port n) s = .next t ∧ Completed s.cur.res s t ∧ SameBut [] s t)

/-- R143 (derived in the spec): a written bit is read back where the pin is looped, and the pad level where it is not. -/
def Obligations.WrittenPinIsReadBackWhenLooped : Prop :=
  ∀ (s t : State) (p : Fin 15) (n : Line) (b : Bool), s.fresh → s.quiet 1 → s.Ready p →
    exec (.wrp (.index p) n b) s = .next t →
      ∃ u, exec (.rdp (.index p) n) t = .next u ∧
        u.cur.res = some (if (s.config.loop.getD p.val 0).getLsbD n then b else (s.port p).pad.getLsbD n)

/-- R142 (b): two uninterrupted toggles of a looped pin return the output register to what it read as. -/
def Obligations.ToggleTwiceRestoresALoopedPin : Prop :=
  ∀ (s t : State) (p : Fin 15) (n : Line), s.fresh → s.quiet 5 → s.Ready p → (s.config.loop.getD p.val 0).getLsbD n = true →
    exec (.tgl (.index p) n) s = .next t →
      ∃ u, exec (.tgl (.index p) n) t = .next u ∧ u.regRead (.port p .odr) = s.regRead (.port p .odr)

/-! ### Interrupt lines -/

/-- R160: `IEDG` sets the line's bit in the rising and/or the falling trigger register; the selections none and 4 to 15 access
nothing; nothing else changes. -/
def Obligations.ConfigureEdgeArmsExactlyThatLine : Prop :=
  ∀ (s : State) (n : Line), s.fresh →
    (s.quiet 1 →
      ∃ t, exec (.iedg n .rising) s = .next t ∧ Completed s.cur.res s t ∧ SameBut [.exti .rtsr] s t ∧
        t.exti.rtsr = s.regRead (.exti .rtsr) ||| BitVec.twoPow 32 n.val) ∧
    (s.quiet 1 →
      ∃ t, exec (.iedg n .falling) s = .next t ∧ Completed s.cur.res s t ∧ SameBut [.exti .ftsr] s t ∧
        t.exti.ftsr = s.regRead (.exti .ftsr) ||| BitVec.twoPow 32 n.val) ∧
    (s.quiet 3 →
      ∃ t, exec (.iedg n .both) s = .next t ∧ Completed s.cur.res s t ∧ SameBut [.exti .rtsr, .exti .ftsr] s t ∧
        t.exti.rtsr = s.regRead (.exti .rtsr) ||| BitVec.twoPow 32 n.val ∧
        t.exti.ftsr = s.regRead (.exti .ftsr) ||| BitVec.twoPow 32 n.val) ∧
    (∃ t, exec (.iedg n .neither) s = .next t ∧ Completed s.cur.res s t ∧ SameBut [] s t) ∧
    (∀ c, ∃ t, exec (.iedg n (.unrecognised c)) s = .next t ∧ Completed s.cur.res s t ∧ SameBut [] s t)

/-- R161: `IEN` unmasks the line and enables the vector, and changes nothing else. -/
def Obligations.EnableInterruptUnmasksAndEnables : Prop :=
  ∀ (s : State) (n : Line) (v : VectorId), s.fresh → s.quiet 2 →
    ∃ t, exec (.ien n v) s = .next t ∧ Completed s.cur.res s t ∧
      t.exti.imr = s.regRead (.exti .imr) ||| BitVec.twoPow 32 n.val ∧
      (∀ u : VectorId, t.ven.getLsbD u = (s.ven.getLsbD u || decide (u = v))) ∧
      SamePlatform s t ∧ SameRegsBut [.exti .imr] s t

/-- R162: `ICLR` clears the line's pending flag and no other if it is set; if it is clear it changes nothing. -/
def Obligations.ClearPendingClearsExactlyThatFlag : Prop :=
  ∀ (s : State) (n : Line), s.fresh →
    (s.exti.pr.getLsbD n = true → s.quiet 1 →
      ∃ t, exec (.iclr n) s = .next t ∧ Completed s.cur.res s t ∧
        t.exti.pr = s.exti.pr &&& ~~~(BitVec.twoPow 32 n.val) ∧ SameBut [.exti .pr] s t) ∧
    (s.exti.pr.getLsbD n = false →
      ∃ t, exec (.iclr n) s = .next t ∧ Completed s.cur.res s t ∧ SameBut [] s t)

/-- R167 (derived in the spec), the rows of the commands: the line's state after an uninterrupted `IEDG`, `IEN` or `ICLR`; every other line keeps its
state. The row of R166 that it calls unreachable is left out. -/
def Obligations.CommandsMoveTheLineStateMachine : Prop :=
  ∀ (s t : State) (n : Line), s.fresh → s.quiet 3 → s.lineState n ≠ .unreachable →
    (∀ e : EdgeSel, exec (.iedg n e) s = .next t →
      (∀ m : Line, m ≠ n → t.lineState m = s.lineState m) ∧
      t.lineState n =
        (match e, s.lineState n with
          | .neither, x => x
          | .unrecognised _, x => x
          | _, .disabled => .armed
          | _, .unmaskedUnarmed => .enabled
          | _, x => x)) ∧
    (∀ v : VectorId, exec (.ien n v) s = .next t →
      (∀ m : Line, m ≠ n → t.lineState m = s.lineState m) ∧
      t.lineState n =
        (match s.lineState n with
          | .disabled => .unmaskedUnarmed
          | .armed => .enabled
          | .latchedMasked => .triggered
          | x => x)) ∧
    (exec (.iclr n) s = .next t →
      (∀ m : Line, m ≠ n → t.lineState m = s.lineState m) ∧
      t.lineState n =
        (match s.lineState n with
          | .latchedMasked => .armed
          | .triggered => .enabled
          | x => x))

/-! ### Frames over whole families -/

/-- R21: no command on port `p` changes anything of another port, in whatever state its accesses stand. -/
def Obligations.PortsAreIndependent : Prop :=
  ∀ (i : Instr) (s t : State) (p : Fin 15) (q : Nat), portOf i = some (.index p) → q ≠ p.val → exec i s = .next t →
    t.port q = s.port q ∧ t.nports = s.nports

/-- R144 (derived in the spec): `RDP`, `WRP` and `TGL` write no configuration register, no `EXTI` register but for pending flags, which
follow the edges they cause, and nothing of the platform; `RDP` writes no register at all. In whatever state their accesses stand. -/
def Obligations.DataCommandsLeaveTheRest : Prop :=
  ∀ (s t : State) (p : Fin 15) (n : Line),
    (exec (.rdp (.index p) n) s = .next t → SameBut [] s t) ∧
    (∀ v : Bool, exec (.wrp (.index p) n v) s = .next t → SameBut [.port p .odr, .exti .pr] s t ∧ PendingByEdges s t) ∧
    (exec (.tgl (.index p) n) s = .next t → SameBut [.port p .odr, .exti .pr] s t ∧ PendingByEdges s t)

/-- R76, the rows of `CFG`, `SAF`, `IEDG`, `IEN` and `ICLR`, in whatever state their accesses stand: each writes registers of its row
only, `IEN` enables no other vector, `ICLR` touches no other flag; and no command on an absent port writes anything (R68). -/
def Obligations.CommandsWriteOnlyTheirRegisters : Prop :=
  ∀ (s t : State) (n : Line),
    (∀ (p : Fin 15) (mode : BitVec 3) (otype : BitVec 2) (speed pull : BitVec 3) (af : BitVec 4),
      exec (.cfg (.index p) n mode otype speed pull af) s = .next t →
        SameBut [.port p .mode, .port p .otype, .port p .ospeed, .port p .pull] s t) ∧
    (∀ (p : Fin 15) (af : BitVec 4), exec (.saf (.index p) n af) s = .next t →
      (n.val ≤ 7 → SameBut [.port p .afl] s t) ∧ (8 ≤ n.val → SameBut [.port p .afh] s t)) ∧
    (exec (.iedg n .rising) s = .next t → SameBut [.exti .rtsr] s t) ∧
    (exec (.iedg n .falling) s = .next t → SameBut [.exti .ftsr] s t) ∧
    (exec (.iedg n .both) s = .next t → SameBut [.exti .rtsr, .exti .ftsr] s t) ∧
    (exec (.iedg n .neither) s = .next t → SameBut [] s t) ∧
    (∀ c, exec (.iedg n (.unrecognised c)) s = .next t → SameBut [] s t) ∧
    (∀ v : VectorId, exec (.ien n v) s = .next t → SamePlatform s t ∧ SameRegsBut [.exti .imr] s t ∧
      ∀ u : VectorId, u ≠ v → t.ven.getLsbD u = s.ven.getLsbD u) ∧
    (exec (.iclr n) s = .next t → SameBut [.exti .pr] s t ∧
      ∀ m : Line, m ≠ n → t.exti.pr.getLsbD m = s.exti.pr.getLsbD m) ∧
    (∀ (i : Instr) (port : PortSel), portOf i = some port → s.Absent port → exec i s = .next t → SameBut [] s t)

/-- R170 (derived in the spec): `IEDG`, `IEN` and `ICLR` neither read nor write anything of a port: with other ports, clocks and pads in the state they
do the same, and leave those as they are. -/
def Obligations.LineCommandsAreBlindToPorts : Prop :=
  ∀ (i : Instr) (s t : State) (others : List Port), portOf i = none → exec i s = .next t →
    t.ports = s.ports ∧ exec i { s with ports := others } = .next { t with ports := others }

/-- R46 (derived in the spec): an uninterrupted command clears no bit of a configuration, trigger or mask register. (A lost update, R224, can: the
hypotheses leave interruptions out.) -/
def Obligations.UninterruptedCommandsClearNoConfigurationBit : Prop :=
  ∀ (i : Instr) (s t : State), s.fresh → s.quiet (accessCount i s - 1) → exec i s = .next t →
    (∀ (p : Fin 15) (r : PortReg), r ∈ [PortReg.mode, .otype, .ospeed, .pull, .afl, .afh] →
      ∀ k, (s.regRead (.port p r)).getLsbD k = true → (t.regRead (.port p r)).getLsbD k = true) ∧
    (∀ r ∈ [ExtiReg.rtsr, .ftsr, .imr],
      ∀ k, (s.regRead (.exti r)).getLsbD k = true → (t.regRead (.exti r)).getLsbD k = true)

/-! ### Register accesses -/

/-- R27, R30: an `IDR` read is the 16 levels, or zero on a gated port; bits 31:16 of `OTYPE`, `IDR`, `ODR` and of every `EXTI`
register read as zero, in every state. -/
def Obligations.ReservedBitsReadAsZero : Prop :=
  ∀ (s : State) (p k : Nat), 16 ≤ k →
    (∀ r ∈ [PortReg.otype, .idr, .odr], (s.regRead (.port p r)).getLsbD k = false) ∧
    (∀ r : ExtiReg, (s.regRead (.exti r)).getLsbD k = false) ∧
    (∀ n : Line, (s.regRead (.port p .idr)).getLsbD n = ((s.port p).clken && s.level p n))

/-- R67: while a port's clock is off every register of it reads as zero and every write to it changes nothing; `EXTI` is read and
written whatever the clocks. -/
def Obligations.GatedPortReadsZeroAndIgnoresWrites : Prop :=
  (∀ (s : State) (p : Nat) (r : PortReg) (v : Word), (s.port p).clken = false →
    s.regRead (.port p r) = 0 ∧ s.regWrite (.port p r) v = s) ∧
  (∀ (s : State) (others : List Port) (r : ExtiReg) (v : Word),
    { s with ports := others }.regRead (.exti r) = s.regRead (.exti r) ∧
    ({ s with ports := others }.regWrite (.exti r) v).exti = (s.regWrite (.exti r) v).exti)

/-- R34: a write of `PR` clears the flags written as 1 and leaves the others; it sets none. -/
def Obligations.PendingWriteClearsTheOnes : Prop :=
  ∀ (s : State) (v : Word),
    (∀ n : Line, (s.regWrite (.exti .pr) v).exti.pr.getLsbD n = (s.exti.pr.getLsbD n && !v.getLsbD n)) ∧
    SameBut [.exti .pr] s (s.regWrite (.exti .pr) v) ∧ SameRequester s (s.regWrite (.exti .pr) v)

/-- R61: under a well-formed address map every register on the bus, the platform's included, is found at its own, 4-aligned
address. Two clauses are the model's, by log entry 6 (PRESUMED): that its default numbers, general knowledge in the spec, are well
formed, and that an access of another width finds no register. -/
def Obligations.AddressMapIsInjective : Prop :=
  (∀ nports ≤ 15, AddrMap.default.wf nports) ∧
  ∀ (m : AddrMap) (nports : Nat), m.wf nports → ∀ r ∈ BusReg.all nports,
    m.busAddr r % 4 = 0 ∧ regAt m nports (m.busAddr r) 4 = some r ∧
    (∀ r' ∈ BusReg.all nports, m.busAddr r' = m.busAddr r → r' = r) ∧
    ∀ a width, width ≠ 4 → regAt m nports a width = none

/-- R60, R62: in a state whose address map is well formed (as in every state that meets the invariant) a four-byte access at a
register's address is the access of that register: a port's, `EXTI`'s or the platform's. -/
def Obligations.AddressedAccessReachesTheRegister : Prop :=
  ∀ (s : State) (v : Word), s.config.addr.wf s.nports →
    (∀ r ∈ Reg.all s.nports, s.memRead (s.config.addr.addr r) 4 = some (s.regRead r) ∧
      s.memWrite (s.config.addr.addr r) 4 v = some (s.regWrite r v)) ∧
    s.memRead s.config.addr.clockControl 4 = some (s.platRead .clockControl) ∧
    s.memWrite s.config.addr.clockControl 4 v = some (s.platWrite v .clockControl) ∧
    (∀ k : Fin 8, s.memRead s.config.addr.vectorEnable[k] 4 = some (s.platRead (.vectorEnable k)) ∧
      s.memWrite s.config.addr.vectorEnable[k] 4 v = some (s.platWrite v (.vectorEnable k)))

/-- R36, R60, R66 (f): the clock enables and the vector enables stand on the bus; a write of a vector-enable word sets the vectors
written as 1 and nothing else, and the write `IEN` makes is one of these. The bit places are the model's, by log entry 6 (PRESUMED;
general knowledge in Table R61): `CLKEN[p]` is bit `p` of the clock control and `VEN[v]` is bit `v & 31` of word `v >> 5`. That a write
of the clock control sets the enables written as 1 and clears none is log entry 15 (DESIGN CHOICE); `ClockOn(p)` is one. -/
def Obligations.PlatformBitsOnTheBus : Prop :=
  ∀ s : State,
    (∀ p : Fin 15, clockPlace p = (.clockControl, p.val) ∧
      (s.platRead (clockPlace p).1).getLsbD (clockPlace p).2 = (s.port p).clken) ∧
    (∀ v : VectorId, (vectorPlace v).2 = v.val % 32 ∧ (∀ k : Fin 8, k.val = v.val / 32 → (vectorPlace v).1 = .vectorEnable k) ∧
      (s.platRead (vectorPlace v).1).getLsbD (vectorPlace v).2 = s.ven.getLsbD v ∧
      s.platWrite (BitVec.twoPow 32 (vectorPlace v).2) (vectorPlace v).1 = s.enableVector v) ∧
    (∀ (k : Fin 8) (w : Word),
      (∀ v : VectorId, (s.platWrite w (.vectorEnable k)).ven.getLsbD v =
        (s.ven.getLsbD v || (decide (v.val / 32 = k.val) && w.getLsbD (v.val % 32)))) ∧
      SamePlatform s (s.platWrite w (.vectorEnable k)) ∧ SameRegsBut [] s (s.platWrite w (.vectorEnable k)) ∧
      SameRequester s (s.platWrite w (.vectorEnable k))) ∧
    (∀ p : Fin 15, (Event.clockOn p).apply s = s.platWrite (BitVec.twoPow 32 p.val) .clockControl) ∧
    (∀ w : Word, (∀ p : Fin 15, p.val < s.nports →
        ((s.platWrite w .clockControl).port p).clken = ((s.port p).clken || w.getLsbD p)) ∧
      (∀ p, ((s.platWrite w .clockControl).port p).pad = (s.port p).pad) ∧ (s.platWrite w .clockControl).nports = s.nports ∧
      (s.platWrite w .clockControl).ven = s.ven ∧ SameRegsBut [] s (s.platWrite w .clockControl) ∧
      SameRequester s (s.platWrite w .clockControl))

/-! ### The other agents' steps -/

/-- R36: `ClockOn(p)`, a planned step (log entry 1), sets the port's clock enable and nothing else. -/
def Obligations.ClockOnSetsOnlyThatEnable : Prop :=
  ∀ (s : State) (p : Nat) (rest : List (Nat × Event)), s.plan = (0, .clockOn p) :: rest → p < s.nports →
    ∃ t, step s = .next t ∧ (t.port p).clken = true ∧ (t.port p).pad = (s.port p).pad ∧
      (∀ q, q ≠ p → t.port q = s.port q) ∧ t.nports = s.nports ∧ t.ven = s.ven ∧ SameRegsBut [] s t ∧
      SameRequester s t ∧ t.plan = s.planAfter rest

/-- R163: `PadDrive(p, n, b)`, a planned step (log entry 1), sets that pad level, and every line whose input changes in an armed direction latches its flag in
the same step; nothing else changes. -/
def Obligations.PadDriveLatchesArmedEdges : Prop :=
  ∀ (s : State) (p : Nat) (n : Line) (b : Bool) (rest : List (Nat × Event)), s.plan = (0, .padDrive p n b) :: rest → p < s.nports →
    ∃ t, step s = .next t ∧ (∀ m : Line, (t.port p).pad.getLsbD m = if m = n then b else (s.port p).pad.getLsbD m) ∧
      (∀ q, q ≠ p → (t.port q).pad = (s.port q).pad) ∧ (∀ q, (t.port q).clken = (s.port q).clken) ∧ t.nports = s.nports ∧
      PendingByEdges s t ∧ SameRegsBut [.exti .pr] s t ∧ t.ven = s.ven ∧ SameRequester s t ∧ t.plan = s.planAfter rest

/-- R167, the rows of an edge (a planned `PadDrive`, log entry 1): what an armed edge at an unlooped source pin does to the line's state. -/
def Obligations.ArmedEdgeMovesTheLineStateMachine : Prop :=
  ∀ (s t : State) (n : Line) (b : Bool) (rest : List (Nat × Event)),
    s.plan = (0, .padDrive s.config.src[n] n b) :: rest → s.config.src[n] < s.nports →
    (s.config.loop.getD s.config.src[n] 0).getLsbD n = false →
    (s.port s.config.src[n]).pad.getLsbD n = !b →
    (if b then s.exti.rtsr else s.exti.ftsr).getLsbD n = true → step s = .next t →
      (s.lineState n = .enabled → t.lineState n = .triggered) ∧
      (s.lineState n = .triggered → t.lineState n = .triggered) ∧
      (s.lineState n = .armed → t.lineState n = if s.config.latchGatedByMask then .armed else .latchedMasked)

/-- R164: `ForcePending(n)`, a planned step (log entry 1), sets that pending flag and nothing else. -/
def Obligations.ForcePendingSetsOnlyThatFlag : Prop :=
  ∀ (s : State) (n : Line) (rest : List (Nat × Event)), s.plan = (0, .forcePending n) :: rest →
    ∃ t, step s = .next t ∧ t.exti.pr = s.exti.pr ||| BitVec.twoPow 32 n.val ∧ SameBut [.exti .pr] s t ∧
      SameRequester s t ∧ t.plan = s.planAfter rest

/-- R34, R163: a pending flag that a step sets, other than by the harness's `ForcePending`, was set by an edge in an armed
direction on that line's input, on a line not gated by its mask. -/
def Obligations.PendingIsSetByArmedEdgesOnly : Prop :=
  ∀ (s t : State) (n : Line), (∀ m rest, s.plan ≠ (0, .forcePending m) :: rest) → step s = .next t →
    s.exti.pr.getLsbD n = false → t.exti.pr.getLsbD n = true →
      ((s.lineIn n = false ∧ t.lineIn n = true ∧ s.exti.rtsr.getLsbD n = true) ∨
        (s.lineIn n = true ∧ t.lineIn n = false ∧ s.exti.ftsr.getLsbD n = true)) ∧
      (s.exti.imr.getLsbD n = true ∨ s.config.latchGatedByMask = false)

/-- R34, R193: a pending flag that a step clears was cleared by `ICLR` of that line. -/
def Obligations.PendingIsClearedByItsClearCommandOnly : Prop :=
  ∀ (s t : State) (n : Line), step s = .next t → s.exti.pr.getLsbD n = true → t.exti.pr.getLsbD n = false →
    s.eventDue = false ∧ s.cur.cp < s.cur.prog.length ∧ decode s.fetch = .command (.iclr n)

/-! ### Dispatch and return -/

/-- R197: `Dispatch(v)` of a dispatchable vector, a planned step (log entry 1), starts its routine in a fresh `irq` context; the mainline, with its in-flight
record, every register, the platform and the pads stay as they are. The `t` and `b` of the fresh record are log entry 4 (DESIGN
CHOICE). A planned dispatch of a vector that is not dispatchable does nothing (R193, R199; that the plan goes on is log entry 1). -/
def Obligations.DispatchEntersTheRoutine : Prop :=
  ∀ (s : State) (v : VectorId) (rest : List (Nat × Event)), s.plan = (0, .dispatch v) :: rest →
    (s.active = none ∧
      (∃ n : Line, s.config.vecOf[n] = v ∧ s.exti.pr.getLsbD n = true ∧ s.exti.imr.getLsbD n = true ∧ s.ven.getLsbD v = true) →
      ∃ t prog, step s = .next t ∧ prog = ((s.config.isr.find? fun e => e.1 = v).map Prod.snd).getD [] ∧
        t = { s with active := some ⟨v, ⟨prog, 0, ⟨0, 0, false⟩, none⟩⟩, plan := s.planAfter rest }) ∧
    (¬(s.active = none ∧
      ∃ n : Line, s.config.vecOf[n] = v ∧ s.exti.pr.getLsbD n = true ∧ s.exti.imr.getLsbD n = true ∧ s.ven.getLsbD v = true) →
      step s = .next { s with plan := s.planAfter rest })

/-- R193, R197: whatever the step, a service that it starts is that of a vector some line of which is pending and unmasked and
which is enabled, no service being active: links (2) to (5) of the chain hold, and with one missing the vector is not dispatched
(R161). Link (1), armed, is not among them: a flag once latched, by an edge or by `ForcePending`, needs no trigger bit any more. -/
def Obligations.ServicesStartForDispatchableVectorsOnly : Prop :=
  ∀ (s t : State) (svc : Service), s.active = none → step s = .next t → t.active = some svc →
    ∃ n : Line, s.config.vecOf[n] = svc.vector ∧ s.exti.pr.getLsbD n = true ∧ s.exti.imr.getLsbD n = true ∧
      s.ven.getLsbD svc.vector = true

/-- R198: a service at the end of its list, no other agent being due (log entry 1), returns: `active` is none, the mainline is exactly as it was frozen, and nothing of
the block changes. -/
def Obligations.ReturnResumesTheMainline : Prop :=
  ∀ (s : State) (svc : Service), s.active = some svc → svc.ctx.cp = svc.ctx.prog.length → s.eventDue = false →
    ∃ t, step s = .next t ∧ t = { s with active := none, plan := ticks 1 s.plan }

/-- R197, R199: while a service is active no step touches the mainline, and no step starts another service. As R199 has it, this
is for a platform whose enabled vectors all have equal preemption priority (log entry 12, DEDUCED). -/
def Obligations.ServiceRunsToItsEnd : Prop :=
  ∀ (s t : State) (svc : Service), s.active = some svc → step s = .next t →
    t.main = s.main ∧
    ((∃ ctx, t.active = some ⟨svc.vector, ctx⟩ ∧ ctx.prog = svc.ctx.prog) ∨
      (t.active = none ∧ s.eventDue = false ∧ svc.ctx.prog.length ≤ svc.ctx.cp))

/-- R197, R222: a finished mainline is interrupted while a vector is dispatchable, by one of the dispatchable vectors, whichever
the free choice of log entry 7 is. The `t` and `b` of the fresh in-flight record are log entry 4 (DESIGN CHOICE). -/
def Obligations.FinishedMainlineIsInterrupted : Prop :=
  ∀ s : State, s.active = none → s.main.prog.length ≤ s.main.cp → s.eventDue = false →
    (∃ n : Line, s.exti.pr.getLsbD n = true ∧ s.exti.imr.getLsbD n = true ∧ s.ven.getLsbD s.config.vecOf[n] = true) →
    ∃ t v, step s = .next t ∧
      (∃ n : Line, s.config.vecOf[n] = v ∧ s.exti.pr.getLsbD n = true ∧ s.exti.imr.getLsbD n = true ∧ s.ven.getLsbD v = true) ∧
      (∃ prog, t.active = some ⟨v, ⟨prog, 0, ⟨0, 0, false⟩, none⟩⟩ ∧
        prog = ((s.config.isr.find? fun e => e.1 = v).map Prod.snd).getD []) ∧
      SameBut [] s t ∧ t.main = s.main ∧ t.config = s.config

/-- R200, with no other agent due (log entry 1): a routine that ends with its request still up is followed by another dispatch before the finished mainline can end. -/
def Obligations.UnclearedFlagIsServedAgain : Prop :=
  ∀ (s : State) (svc : Service), s.active = some svc → svc.ctx.cp = svc.ctx.prog.length → s.quiet 1 →
    s.main.prog.length ≤ s.main.cp →
    (∃ n : Line, s.exti.pr.getLsbD n = true ∧ s.exti.imr.getLsbD n = true ∧ s.ven.getLsbD s.config.vecOf[n] = true) →
    ∃ t u, step s = .next t ∧ t.active = none ∧ step t = .next u ∧ u.active.isSome = true ∧ SameBut [] s u ∧ u.main = s.main

/-- R197, the promise of fairness, which the step itself keeps: a vector that is dispatchable does not stay so for ever while the run
goes on. At some step a service of a dispatchable vector starts, or the vector's request is withdrawn. How the other agents' steps
are planned is log entry 1, and that the cycle of their plan leaves the machine a move a round is log entry 8. -/
def Obligations.NoVectorStaysDispatchableForEver : Prop :=
  ∀ (s : State) (v : VectorId), s.active = none → s.Up v → (∀ k, ∃ t : State, Sys2Proof.core.run k s = .next t) →
    ∃ (k : Nat) (t u : State), Sys2Proof.core.run k s = .next t ∧ step t = .next u ∧ t.active = none ∧ t.Up v ∧
      ((∃ svc, u.active = some svc ∧ t.Up svc.vector) ∨ (u.active = none ∧ ¬u.Up v))

/-- R193, R197: in a fair run that goes on, a pending and unmasked line whose vector is enabled comes to be served, whatever other
vectors compete, unless its flag is cleared or its mask bit lost. -/
def Obligations.FairRunsServePendingLines : Prop :=
  ∀ (s : State) (n : Line), FairRun s → (∀ k, ∃ t : State, Sys2Proof.core.run k s = .next t) →
    s.exti.pr.getLsbD n = true → s.exti.imr.getLsbD n = true → s.ven.getLsbD s.config.vecOf[n] = true →
    ∃ (k : Nat) (t : State), Sys2Proof.core.run k s = .next t ∧
      (t.active.map Service.vector = some s.config.vecOf[n] ∨ t.exti.pr.getLsbD n = false ∨ t.exti.imr.getLsbD n = false)

/-- R200: the interrupt storm is a run of the model that never ends. A routine of one command that is not `ICLR` leaves the request
up; with the platform planned to take the vector at every return (the endless plan `cycle`, log entry 1), every run position is
reached without a stop, every vector that was up stays up and the mainline makes no step, finished or not. -/
def Obligations.StormStarvesTheMainline : Prop :=
  ∀ (s : State) (v : VectorId) (i : Instr), Storm s v i →
    ∀ k : Nat, ∃ t : State, Sys2Proof.core.run k s = .next t ∧ t.main = s.main ∧ (∀ u, s.Up u → t.Up u) ∧
      t.active.map Service.vector = (if k % 3 = 0 then none else some v)

/-- R197, R200: the storm in which no other vector is enabled is a fair run, so fairness does not cut this hang off; a storm in which
another vector is up starves that vector and is no fair run. -/
def Obligations.StormIsFairUnlessItStarvesAVector : Prop :=
  ∀ (s : State) (v : VectorId) (i : Instr), Storm s v i →
    ((∀ u : VectorId, u ≠ v → s.ven.getLsbD u = false) → (∀ n u, i = .ien n u → u = v) → FairRun s) ∧
    (∀ u, u ≠ v → s.Up u → ¬FairRun s)

/-- R222, and log entry 1 for the idle step: with the mainline finished, no service and no dispatchable vector, nothing changes any more but the nearness of what the
other agents plan. -/
def Obligations.FinishedRunStaysPut : Prop :=
  ∀ s : State, s.active = none → s.main.prog.length ≤ s.main.cp → s.eventDue = false →
    (∀ n : Line, ¬(s.exti.pr.getLsbD n = true ∧ s.exti.imr.getLsbD n = true ∧ s.ven.getLsbD s.config.vecOf[n] = true)) →
    step s = .next { s with plan := ticks 1 s.plan }

/-! ### Interruption inside a command -/

/-- R8, R197, R232, with log entry 1 for the planned event: a command can be interrupted at every boundary between two of its accesses, of which Table R232 gives the
number: an event planned after `d` accesses finds the command with `d` accesses done and its pointer where it was. -/
def Obligations.CommandPausesAtEveryBoundary : Prop :=
  ∀ (i : Instr) (s : State) (d : Nat) (e : Event) (rest : List (Nat × Event)), i.pin ≤ 15 → s.fresh →
    s.plan = (d, e) :: rest → 0 < d → d < accessCount i s →
    ∃ t, exec i s = .next t ∧ t.cur.flight.done = d ∧ t.cur.cp = s.cur.cp ∧ t.cur.prog = s.cur.prog ∧
      t.plan = (0, e) :: rest ∧ t.config = s.config

/-- R232: an uninterrupted command takes the number of accesses of Table R232. The `t` and `b` of the record it leaves are log
entry 4 (DESIGN CHOICE). The clause on the plan is the model's own (log entry 1): the planned event comes nearer by one move an access, and by one move for a command without an access. -/
def Obligations.UninterruptedCommandsTakeTheirAccesses : Prop :=
  ∀ (i : Instr) (s : State), i.pin ≤ 15 → s.fresh → s.quiet (accessCount i s - 1) →
    ∃ t, exec i s = .next t ∧ t.cur.cp = s.cur.cp + 1 ∧ t.cur.prog = s.cur.prog ∧ t.cur.flight = ⟨0, 0, false⟩ ∧
      t.plan = ticks (max 1 (accessCount i s)) s.plan

/-- R42, R198, with log entry 1 for the pause: a pause at which no other agent does anything is invisible: a command resumed from its in-flight record ends in the
state it ends in when it is not interrupted. -/
def Obligations.PauseAndResumeIsInvisible : Prop :=
  ∀ (i : Instr) (s u : State) (d : Nat) (e : Event), s.plan = [] →
    exec i { s with plan := [(d, e)] } = .next u → u.cur.cp = s.cur.cp →
    exec i { u with plan := [] } = exec i s

/-- R75: the write of a read-modify-write whose read is done stores what the value `t` read then gives, whatever the register
holds now: for every read-modify-write of every command. -/
def Obligations.StaleReadIsWrittenBack : Prop :=
  ∀ (s : State) (p : Fin 15) (n : Line),
    (s.cur.flight.done = 1 → s.Ready p →
      (∀ v : Bool, ∃ t, exec (.wrp (.index p) n v) s = .next t ∧ t.stored (.port p .odr) =
        (if v then s.cur.flight.t ||| BitVec.twoPow 32 n.val else s.cur.flight.t &&& ~~~(BitVec.twoPow 32 n.val)) &&& 0x0000FFFF) ∧
      (∀ af : BitVec 4, ∃ t, exec (.saf (.index p) n af) s = .next t ∧
        t.stored (.port p (if n.val ≤ 7 then .afl else .afh)) = s.cur.flight.t ||| af.setWidth 32 <<< (4 * (n.val % 8)))) ∧
    (s.cur.flight.done = 2 → s.Ready p →
      ∃ t, exec (.tgl (.index p) n) s = .next t ∧ t.stored (.port p .odr) =
        (if s.cur.flight.b then s.cur.flight.t &&& ~~~(BitVec.twoPow 32 n.val)
          else s.cur.flight.t ||| BitVec.twoPow 32 n.val) &&& 0x0000FFFF) ∧
    (s.cur.flight.done = 1 →
      (∃ t, exec (.iedg n .rising) s = .next t ∧ t.exti.rtsr = (s.cur.flight.t ||| BitVec.twoPow 32 n.val) &&& 0x0000FFFF) ∧
      (∃ t, exec (.iedg n .falling) s = .next t ∧ t.exti.ftsr = (s.cur.flight.t ||| BitVec.twoPow 32 n.val) &&& 0x0000FFFF) ∧
      (∃ t, exec (.iedg n .both) s = .next t ∧ t.exti.rtsr = (s.cur.flight.t ||| BitVec.twoPow 32 n.val) &&& 0x0000FFFF) ∧
      (∀ v : VectorId, ∃ t, exec (.ien n v) s = .next t ∧
        t.exti.imr = (s.cur.flight.t ||| BitVec.twoPow 32 n.val) &&& 0x0000FFFF)) ∧
    (s.cur.flight.done = 3 →
      ∃ t, exec (.iedg n .both) s = .next t ∧ t.exti.ftsr = (s.cur.flight.t ||| BitVec.twoPow 32 n.val) &&& 0x0000FFFF) ∧
    (∀ (mode : BitVec 3) (otype : BitVec 2) (speed pull : BitVec 3) (af : BitVec 4), s.Ready p →
      (s.cur.flight.done = 1 → ∃ t, exec (.cfg (.index p) n mode otype speed pull af) s = .next t ∧
        t.stored (.port p .mode) = s.cur.flight.t ||| mode.setWidth 32 <<< (2 * n.val)) ∧
      (s.cur.flight.done = 3 → ∃ t, exec (.cfg (.index p) n mode otype speed pull af) s = .next t ∧
        t.stored (.port p .otype) = (s.cur.flight.t ||| otype.setWidth 32 <<< n.val) &&& 0x0000FFFF) ∧
      (s.cur.flight.done = 5 → ∃ t, exec (.cfg (.index p) n mode otype speed pull af) s = .next t ∧
        t.stored (.port p .ospeed) = s.cur.flight.t ||| speed.setWidth 32 <<< (2 * n.val)) ∧
      (s.cur.flight.done = 7 → ∃ t, exec (.cfg (.index p) n mode otype speed pull af) s = .next t ∧
        t.stored (.port p .pull) = s.cur.flight.t ||| pull.setWidth 32 <<< (2 * n.val)))

/-! ### Invariants and the start of a run -/

/-- Every step keeps the invariant: from 1 to 15 ports, reserved bits zero, pointers inside their lists and nothing in flight at
their ends, the service's list that of its vector, the address map well formed. -/
def Obligations.EveryStepKeepsTheInvariant : Prop :=
  ∀ s t : State, Inv s → step s = .next t → Inv t

/-- The power-on state meets the invariant, whatever the pads, the list and the parameters, for 1 to 15 ports, the address map
being well formed, which R61 asks of the parameter. -/
def Obligations.PowerOnMeetsTheInvariant : Prop :=
  Inv State.reset ∧
  ∀ (c : Config) (nports : Nat) (pads : List PinBits) (prog : List Word), 1 ≤ nports → nports ≤ 15 →
    c.addr.wf nports → Inv (State.powerOn c (ResetValues.zero nports) pads prog)

/-- R17, R36, R37: no step changes a parameter or the number of ports, turns a clock off, or disables a vector. -/
def Obligations.ParametersPersistAndEnablesStayOn : Prop :=
  ∀ s t : State, step s = .next t →
    t.config = s.config ∧ t.nports = s.nports ∧
    (∀ p, (s.port p).clken = true → (t.port p).clken = true) ∧
    (∀ v : VectorId, s.ven.getLsbD v = true → t.ven.getLsbD v = true)

/-- R45: at power-on every stored register, clock enable and vector enable is 0, there is no service, the mainline is at the
start of its list with nothing in flight and no result; the pads are whatever the environment holds. -/
def Obligations.PowerOnValues : Prop :=
  ∀ (c : Config) (nports : Nat) (pads : List PinBits) (prog : List Word),
    (∀ r, (State.powerOn c (ResetValues.zero nports) pads prog).stored r = 0) ∧
    (∀ p, ((State.powerOn c (ResetValues.zero nports) pads prog).port p).clken = false) ∧
    (∀ p, p < nports → ((State.powerOn c (ResetValues.zero nports) pads prog).port p).pad = pads.getD p 0) ∧
    (State.powerOn c (ResetValues.zero nports) pads prog).nports = nports ∧
    (∀ v : VectorId, (State.powerOn c (ResetValues.zero nports) pads prog).ven.getLsbD v = false) ∧
    (State.powerOn c (ResetValues.zero nports) pads prog).active = none ∧
    (State.powerOn c (ResetValues.zero nports) pads prog).main.cp = 0 ∧
    (State.powerOn c (ResetValues.zero nports) pads prog).main.flight.done = 0 ∧
    (State.powerOn c (ResetValues.zero nports) pads prog).main.res = none

/-- `State.reset` is the power-on state of Table R45 at the model's choices: nine ports and the spec's test defaults (log entry 5),
an empty list (log entry 2), every pad at 0 (log entry 3), nothing planned (log entry 1). -/
def Obligations.ResetIsPowerOnAtTheDefaults : Prop :=
  State.reset = State.powerOn Config.default (ResetValues.zero 9) [] [] ∧
  Config.default.vecOf = #v[6, 7, 8, 9, 10, 23, 23, 23, 23, 23, 40, 40, 40, 40, 40, 40] ∧ Config.default.isr = [] ∧
  Config.default.loop = [] ∧ Config.default.latchGatedByMask = false ∧ Config.default.pullDownCode = 2 ∧
  (∀ n : Line, Config.default.src[n] = 0) ∧ State.reset.plan = [] ∧ State.reset.cycle = []

/-- R221 (derived in the spec): at the start of a run every line is disabled and no vector is dispatchable. -/
def Obligations.NoInterruptAtTheStart : Prop :=
  ∀ (c : Config) (nports : Nat) (pads : List PinBits) (prog : List Word),
    (∀ n : Line, (State.powerOn c (ResetValues.zero nports) pads prog).lineState n = .disabled) ∧
    (∀ v : VectorId, (State.powerOn c (ResetValues.zero nports) pads prog).dispatchable v = false)
end

