-- ==== Sys2Proof/Laws/State.lean ====
section
/-! SUPPORT. One lemma per field per update of State, so that no proof unfolds a record update. -/

namespace Sys2Proof.Machine

open Sys2Proof

variable (s t : State) (c : Ctx) (f : InFlight) (b : Bool) (p q : Nat) (g : Port → Port) (v : VectorId)

/-! ### setCur -/

@[simp] theorem setCur_config : (s.setCur c).config = s.config := by unfold State.setCur; split <;> rfl
@[simp] theorem setCur_ports : (s.setCur c).ports = s.ports := by unfold State.setCur; split <;> rfl
@[simp] theorem setCur_exti : (s.setCur c).exti = s.exti := by unfold State.setCur; split <;> rfl
@[simp] theorem setCur_ven : (s.setCur c).ven = s.ven := by unfold State.setCur; split <;> rfl
@[simp] theorem setCur_plan : (s.setCur c).plan = s.plan := by unfold State.setCur; split <;> rfl
@[simp] theorem setCur_draws : (s.setCur c).draws = s.draws := by unfold State.setCur; split <;> rfl
@[simp] theorem setCur_cycle : (s.setCur c).cycle = s.cycle := by unfold State.setCur; split <;> rfl

@[simp] theorem cur_setCur : (s.setCur c).cur = c := by
  cases h : s.active <;> simp [State.setCur, State.cur, h]

@[simp] theorem setCur_setCur (c' : Ctx) : (s.setCur c).setCur c' = s.setCur c' := by
  cases h : s.active <;> simp [State.setCur, h]

@[simp] theorem setCur_cur : s.setCur s.cur = s := by
  cases s with | mk config ports exti ven main active plan cycle draws => cases active <;> rfl

theorem setCur_main_of_active {svc : Service} (h : s.active = some svc) : (s.setCur c).main = s.main := by
  simp [State.setCur, h]

theorem setCur_active_isSome : (s.setCur c).active.isSome = s.active.isSome := by
  cases h : s.active <;> simp [State.setCur, h]

/-- What `setCur` writes is a function of the two contexts alone. -/
theorem setCur_main_congr (hm : t.main = s.main) (ha : t.active = s.active) : (t.setCur c).main = (s.setCur c).main := by
  simp only [State.setCur, ha]; cases s.active <;> simp [hm]

theorem setCur_active_congr (ha : t.active = s.active) : (t.setCur c).active = (s.setCur c).active := by
  simp only [State.setCur, ha]; cases s.active <;> simp

theorem cur_congr (hm : t.main = s.main) (ha : t.active = s.active) : t.cur = s.cur := by
  simp only [State.cur, ha]; cases s.active <;> simp [hm]

/-! ### tick -/

@[simp] theorem tick_config : s.tick.config = s.config := rfl
@[simp] theorem tick_ports : s.tick.ports = s.ports := rfl
@[simp] theorem tick_exti : s.tick.exti = s.exti := rfl
@[simp] theorem tick_ven : s.tick.ven = s.ven := rfl
@[simp] theorem tick_main : s.tick.main = s.main := rfl
@[simp] theorem tick_active : s.tick.active = s.active := rfl
@[simp] theorem tick_draws : s.tick.draws = s.draws := rfl
@[simp] theorem tick_cycle : s.tick.cycle = s.cycle := rfl
@[simp] theorem tick_cur : s.tick.cur = s.cur := rfl

@[simp] theorem tick_plan : s.tick.plan = ticks 1 s.plan := by
  unfold State.tick ticks; cases s.plan <;> rfl

@[simp] theorem ticks_zero (l : List (Nat × Event)) : ticks 0 l = l := by cases l <;> rfl

@[simp] theorem ticks_ticks (j k : Nat) (l : List (Nat × Event)) : ticks j (ticks k l) = ticks (k + j) l := by
  cases l with
  | nil => rfl
  | cons e rest => simp [ticks, Nat.sub_sub]

@[simp] theorem tick_setCur : (s.setCur c).tick = s.tick.setCur c := by
  cases h : s.active <;> simp [State.setCur, State.tick, h]

/-! ### modifyPort -/

@[simp] theorem modifyPort_config : (s.modifyPort p g).config = s.config := rfl
@[simp] theorem modifyPort_exti : (s.modifyPort p g).exti = s.exti := rfl
@[simp] theorem modifyPort_ven : (s.modifyPort p g).ven = s.ven := rfl
@[simp] theorem modifyPort_main : (s.modifyPort p g).main = s.main := rfl
@[simp] theorem modifyPort_active : (s.modifyPort p g).active = s.active := rfl
@[simp] theorem modifyPort_plan : (s.modifyPort p g).plan = s.plan := rfl
@[simp] theorem modifyPort_draws : (s.modifyPort p g).draws = s.draws := rfl
@[simp] theorem modifyPort_cycle : (s.modifyPort p g).cycle = s.cycle := rfl
@[simp] theorem modifyPort_nports : (s.modifyPort p g).nports = s.nports := by simp [State.modifyPort, State.nports]

theorem port_modifyPort_same (h : p < s.nports) : (s.modifyPort p g).port p = g (s.port p) := by
  have h' : p < s.ports.length := h
  simp [State.port, State.modifyPort, List.getD_eq_getElem?_getD, List.getElem?_eq_getElem h']

theorem port_modifyPort_other (h : q ≠ p) : (s.modifyPort p g).port q = s.port q := by
  simp [State.port, State.modifyPort, List.getD_eq_getElem?_getD, Ne.symm h]

theorem port_modifyPort : (s.modifyPort p g).port q = if q = p ∧ p < s.nports then g (s.port q) else s.port q := by
  by_cases hq : q = p
  · subst hq
    by_cases h : q < s.nports
    · simp [h, port_modifyPort_same]
    · simp only [h, and_false, if_false]
      have h' : s.ports.length ≤ q := Nat.le_of_not_lt h
      simp [State.port, State.modifyPort, List.getD_eq_getElem?_getD, h']
  · simp [hq, port_modifyPort_other]

@[simp] theorem port_setCur : (s.setCur c).port p = s.port p := by simp [State.port]
@[simp] theorem port_tick : s.tick.port p = s.port p := rfl
@[simp] theorem nports_setCur : (s.setCur c).nports = s.nports := by simp [State.nports]
@[simp] theorem nports_tick : s.tick.nports = s.nports := rfl

/-! ### latchEdges -/

@[simp] theorem latchEdges_config : (latchEdges s t).config = t.config := rfl
@[simp] theorem latchEdges_ports : (latchEdges s t).ports = t.ports := rfl
@[simp] theorem latchEdges_ven : (latchEdges s t).ven = t.ven := rfl
@[simp] theorem latchEdges_main : (latchEdges s t).main = t.main := rfl
@[simp] theorem latchEdges_active : (latchEdges s t).active = t.active := rfl
@[simp] theorem latchEdges_plan : (latchEdges s t).plan = t.plan := rfl
@[simp] theorem latchEdges_draws : (latchEdges s t).draws = t.draws := rfl
@[simp] theorem latchEdges_cycle : (latchEdges s t).cycle = t.cycle := rfl
@[simp] theorem latchEdges_rtsr : (latchEdges s t).exti.rtsr = t.exti.rtsr := rfl
@[simp] theorem latchEdges_ftsr : (latchEdges s t).exti.ftsr = t.exti.ftsr := rfl
@[simp] theorem latchEdges_imr : (latchEdges s t).exti.imr = t.exti.imr := rfl
@[simp] theorem port_latchEdges : (latchEdges s t).port p = t.port p := rfl
@[simp] theorem nports_latchEdges : (latchEdges s t).nports = t.nports := rfl

/-! ### enableVector, dispatch, return -/

@[simp] theorem enableVector_config : (s.enableVector v).config = s.config := rfl
@[simp] theorem enableVector_ports : (s.enableVector v).ports = s.ports := rfl
@[simp] theorem enableVector_exti : (s.enableVector v).exti = s.exti := rfl
@[simp] theorem enableVector_main : (s.enableVector v).main = s.main := rfl
@[simp] theorem enableVector_active : (s.enableVector v).active = s.active := rfl
@[simp] theorem enableVector_plan : (s.enableVector v).plan = s.plan := rfl
@[simp] theorem enableVector_draws : (s.enableVector v).draws = s.draws := rfl
@[simp] theorem enableVector_cycle : (s.enableVector v).cycle = s.cycle := rfl

@[simp] theorem dispatch_config : (s.dispatch v).config = s.config := rfl
@[simp] theorem dispatch_ports : (s.dispatch v).ports = s.ports := rfl
@[simp] theorem dispatch_exti : (s.dispatch v).exti = s.exti := rfl
@[simp] theorem dispatch_ven : (s.dispatch v).ven = s.ven := rfl
@[simp] theorem dispatch_main : (s.dispatch v).main = s.main := rfl
@[simp] theorem dispatch_active : (s.dispatch v).active = some ⟨v, Ctx.start (isrOf s.config v)⟩ := rfl
@[simp] theorem dispatch_plan : (s.dispatch v).plan = s.plan := rfl
@[simp] theorem dispatch_cycle : (s.dispatch v).cycle = s.cycle := rfl
@[simp] theorem dispatch_draws : (s.dispatch v).draws = s.draws := rfl

@[simp] theorem return_config : s.return.config = s.config := rfl
@[simp] theorem return_ports : s.return.ports = s.ports := rfl
@[simp] theorem return_exti : s.return.exti = s.exti := rfl
@[simp] theorem return_ven : s.return.ven = s.ven := rfl
@[simp] theorem return_main : s.return.main = s.main := rfl
@[simp] theorem return_active : s.return.active = none := rfl
@[simp] theorem return_plan : s.return.plan = s.plan := rfl
@[simp] theorem return_cycle : s.return.cycle = s.cycle := rfl
@[simp] theorem return_draws : s.return.draws = s.draws := rfl

/-! ### planAfter -/

@[simp] theorem planAfter_nil : s.planAfter [] = s.nextRound := rfl

theorem nextRound_nil (h : s.cycle = []) : s.nextRound = [] := by simp [State.nextRound, h]

theorem nextRound_cons {d : Nat} {e : Event} {rest : List (Nat × Event)} (h : s.cycle = (d, e) :: rest) :
    s.nextRound = (max 1 d, e) :: rest := by simp [State.nextRound, h]

/-- Behind the last event of a plan no event is due at once. -/
theorem eventDue_nextRound : { s with plan := s.nextRound }.eventDue = false := by
  cases h : s.cycle with
  | nil => simp [State.eventDue, State.nextRound, h]
  | cons x rest => obtain ⟨_ | d, e⟩ := x <;> simp [State.eventDue, State.nextRound, h]
@[simp] theorem planAfter_cons (e : Nat × Event) (rest : List (Nat × Event)) : s.planAfter (e :: rest) = e :: rest := rfl

/-! ### platWrite -/

section PlatWrite
variable (r : PlatReg) (w : Word)

@[simp] theorem platWrite_config : (s.platWrite w r).config = s.config := by cases r <;> rfl
@[simp] theorem platWrite_exti : (s.platWrite w r).exti = s.exti := by cases r <;> rfl
@[simp] theorem platWrite_main : (s.platWrite w r).main = s.main := by cases r <;> rfl
@[simp] theorem platWrite_active : (s.platWrite w r).active = s.active := by cases r <;> rfl
@[simp] theorem platWrite_plan : (s.platWrite w r).plan = s.plan := by cases r <;> rfl
@[simp] theorem platWrite_cycle : (s.platWrite w r).cycle = s.cycle := by cases r <;> rfl
@[simp] theorem platWrite_draws : (s.platWrite w r).draws = s.draws := by cases r <;> rfl
@[simp] theorem platWrite_nports : (s.platWrite w r).nports = s.nports := by cases r <;> simp [State.platWrite, State.nports]
@[simp] theorem platWrite_clock_ven : (s.platWrite w .clockControl).ven = s.ven := rfl
@[simp] theorem platWrite_vector_ports (k : Fin 8) : (s.platWrite w (.vectorEnable k)).ports = s.ports := rfl

/-- A port after a write of the clock control. -/
theorem port_platWrite_clock : (s.platWrite w .clockControl).port p =
    if p < s.nports then { s.port p with clken := (s.port p).clken || w.getLsbD p } else s.port p := by
  simp only [State.port, State.platWrite, State.nports, List.getD_eq_getElem?_getD, List.getElem?_mapIdx]
  by_cases h : p < s.ports.length
  · simp [h]
  · simp [h]

end PlatWrite

/-! ### regWrite: what a register write leaves alone -/

section RegWrite
variable (r : Reg) (w : Word)

@[simp] theorem regWrite_config : (s.regWrite r w).config = s.config := by
  cases r with
  | port p r => cases r <;> simp only [State.regWrite] <;> split <;> rfl
  | exti r => rfl
@[simp] theorem regWrite_ven : (s.regWrite r w).ven = s.ven := by
  cases r with
  | port p r => cases r <;> simp only [State.regWrite] <;> split <;> rfl
  | exti r => rfl
@[simp] theorem regWrite_main : (s.regWrite r w).main = s.main := by
  cases r with
  | port p r => cases r <;> simp only [State.regWrite] <;> split <;> rfl
  | exti r => rfl
@[simp] theorem regWrite_active : (s.regWrite r w).active = s.active := by
  cases r with
  | port p r => cases r <;> simp only [State.regWrite] <;> split <;> rfl
  | exti r => rfl
@[simp] theorem regWrite_plan : (s.regWrite r w).plan = s.plan := by
  cases r with
  | port p r => cases r <;> simp only [State.regWrite] <;> split <;> rfl
  | exti r => rfl
@[simp] theorem regWrite_draws : (s.regWrite r w).draws = s.draws := by
  cases r with
  | port p r => cases r <;> simp only [State.regWrite] <;> split <;> rfl
  | exti r => rfl
@[simp] theorem regWrite_cycle : (s.regWrite r w).cycle = s.cycle := by
  cases r with
  | port p r => cases r <;> simp only [State.regWrite] <;> split <;> rfl
  | exti r => rfl

@[simp] theorem cur_regWrite : (s.regWrite r w).cur = s.cur := by simp [State.cur]

@[simp] theorem nports_regWrite : (s.regWrite r w).nports = s.nports := by
  cases r with
  | port p r => cases r <;> simp only [State.regWrite] <;> split <;> simp
  | exti r => rfl

end RegWrite

/-! ### setFlight, setRes, complete through setCur -/

@[simp] theorem cur_setFlight : (s.setFlight f).cur = { s.cur with flight := f } := by simp [State.setFlight]
@[simp] theorem cur_setRes : (s.setRes b).cur = { s.cur with res := some b } := by simp [State.setRes]

@[simp] theorem cur_complete : s.complete.cur = { s.cur with cp := s.cur.cp + 1, flight := InFlight.fresh } := by
  simp [State.complete]

/-! ### the views the registers are read through depend on ports, EXTI and the parameters alone -/

theorem lineIn_congr (hc : t.config = s.config) (hp : t.ports = s.ports) (n : Line) : t.lineIn n = s.lineIn n := by
  simp [State.lineIn, State.level, State.port, hc, hp]

theorem regRead_congr (hc : t.config = s.config) (hp : t.ports = s.ports) (he : t.exti = s.exti) (r : Reg) :
    t.regRead r = s.regRead r := by
  have hl : ∀ p, t.level p = s.level p := fun p => by funext n; simp [State.level, State.port, hc, hp]
  cases r with
  | port p r => cases r <;> simp [State.regRead, State.idr, hl, State.port, hp]
  | exti r => simp [State.regRead, he]

@[simp] theorem regRead_setCur (r : Reg) : (s.setCur c).regRead r = s.regRead r := regRead_congr _ _ (by simp) (by simp) (by simp) r
@[simp] theorem regRead_tick (r : Reg) : s.tick.regRead r = s.regRead r := regRead_congr _ _ rfl rfl rfl r

end Sys2Proof.Machine
end

