-- ==== Sys2Proof/Laws/Bits.lean ====
section
/-! SUPPORT. Bit facts: masks, shifted fields, field views, words made of pins. -/

namespace Sys2Proof.Machine

open Sys2Proof

@[simp] theorem lowHalf_getLsbD (i : Nat) : lowHalf.getLsbD i = decide (i < 16) := by
  by_cases h : i < 32
  · revert i; decide
  · rw [BitVec.getLsbD_of_ge _ _ (by omega)]; symm; simp; omega

theorem pinMask_getLsbD (n i : Nat) : (pinMask n).getLsbD i = (decide (i < 32) && decide (i = n)) := by
  have h1 : (1 : Word) = BitVec.twoPow 32 0 := by decide
  rw [pinMask, h1, BitVec.getLsbD_shiftLeft, BitVec.getLsbD_twoPow, Bool.eq_iff_iff]
  simp
  omega

theorem pinMask_and_lowHalf {n : Nat} (h : n ≤ 15) : pinMask n &&& lowHalf = pinMask n := by
  apply BitVec.eq_of_getLsbD_eq
  intro i _
  rw [BitVec.getLsbD_and, pinMask_getLsbD, lowHalf_getLsbD, Bool.eq_iff_iff]
  simp
  omega

theorem toField_getLsbD {k : Nat} (v : BitVec k) (w n i : Nat) :
    (toField v w n).getLsbD i = (decide (i < 32) && decide (w * n ≤ i) && v.getLsbD (i - w * n)) := by
  rw [toField, BitVec.getLsbD_shiftLeft, BitVec.getLsbD_setWidth, Bool.eq_iff_iff]
  simp
  omega

theorem pinFieldOf_getLsbD (w n i : Nat) (v : Word) :
    (pinFieldOf w n v).getLsbD i = (decide (i < w) && v.getLsbD (w * n + i)) := by
  rw [pinFieldOf, BitVec.getLsbD_extractLsb']

theorem ofPins_getLsbD (f : Line → Bool) (i : Nat) :
    (ofPins f).getLsbD i = if h : i < 16 then f ⟨i, h⟩ else false := by
  unfold ofPins
  rw [BitVec.getLsbD_setWidth, BitVec.getLsbD_ofFnLE]
  by_cases h : i < 16
  · simp [h]; intro; omega
  · simp [h]

@[simp] theorem bitOf_ofPins (f : Line → Bool) (n : Line) : bitOf (ofPins f) n = f n := by
  simp [bitOf, ofPins_getLsbD, n.isLt]

@[simp] theorem ofPins_false : ofPins (fun _ => false) = 0 := by
  apply BitVec.eq_of_getLsbD_eq; intro i _; rw [ofPins_getLsbD]; split <;> simp

@[simp] theorem bitOf_or (a b : Word) (n : Nat) : bitOf (a ||| b) n = (bitOf a n || bitOf b n) := by simp [bitOf]
@[simp] theorem bitOf_and (a b : Word) (n : Nat) : bitOf (a &&& b) n = (bitOf a n && bitOf b n) := by simp [bitOf]

theorem bitOf_not (a : Word) {n : Nat} (h : n ≤ 15) : bitOf (~~~a) n = !bitOf a n := by
  simp [bitOf, BitVec.getLsbD_not]; omega

theorem bitOf_lowHalf {n : Nat} (h : n ≤ 15) : bitOf lowHalf n = true := by simp [bitOf]; omega

theorem bitOf_pinMask (n : Nat) {m : Nat} (h : m ≤ 15) : bitOf (pinMask n) m = decide (m = n) := by
  rw [bitOf, pinMask_getLsbD, Bool.eq_iff_iff]; simp; omega

theorem and_lowHalf_idem (v : Word) : v &&& lowHalf &&& lowHalf = v &&& lowHalf := by
  rw [BitVec.and_assoc, BitVec.and_self]

@[simp] theorem and_ones (v : Word) : v &&& 4294967295#32 = v := BitVec.and_allOnes

theorem highClear_iff (v : Word) : HighClear v ↔ v &&& lowHalf = v := by
  unfold HighClear
  constructor
  · intro h
    apply BitVec.eq_of_getLsbD_eq
    intro i hi
    have := congrArg (fun x => x.getLsbD i) h
    simp [hi] at this ⊢
    cases hv : v.getLsbD i <;> simp_all
  · intro h
    apply BitVec.eq_of_getLsbD_eq
    intro i hi
    have := congrArg (fun x => x.getLsbD i) h
    simp [hi] at this ⊢
    cases hv : v.getLsbD i <;> simp_all

theorem highClear_and (v : Word) : HighClear (v &&& lowHalf) := (highClear_iff _).2 (and_lowHalf_idem v)

theorem highClear_ofPins (f : Line → Bool) : HighClear (ofPins f) := by
  rw [highClear_iff]
  apply BitVec.eq_of_getLsbD_eq
  intro i _
  rw [BitVec.getLsbD_and, lowHalf_getLsbD, ofPins_getLsbD]
  by_cases h : i < 16 <;> simp [h]

theorem highClear_or {a b : Word} (ha : HighClear a) (hb : HighClear b) : HighClear (a ||| b) := by
  rw [highClear_iff] at *
  rw [BitVec.and_comm, BitVec.and_or_distrib_left, BitVec.and_comm _ a, BitVec.and_comm _ b, ha, hb]

theorem highClear_and_left {a : Word} (b : Word) (ha : HighClear a) : HighClear (a &&& b) := by
  rw [highClear_iff] at *
  rw [BitVec.and_assoc, BitVec.and_comm b, ← BitVec.and_assoc, ha]

theorem highClear_pinMask {n : Nat} (h : n ≤ 15) : HighClear (pinMask n) := (highClear_iff _).2 (pinMask_and_lowHalf h)

/-! ### Fields after an OR (R127 to R129) -/

/-- The field an operand is ORed into. -/
theorem pinFieldOf_or_same {k : Nat} (w n : Nat) (old : Word) (v : BitVec k) (hw : w * n + w ≤ 32) :
    pinFieldOf w n (old ||| toField v w n) = pinFieldOf w n old ||| v.setWidth w := by
  apply BitVec.eq_of_getLsbD_eq
  intro i hi
  rw [pinFieldOf_getLsbD, BitVec.getLsbD_or, BitVec.getLsbD_or, pinFieldOf_getLsbD, toField_getLsbD, BitVec.getLsbD_setWidth]
  simp [hi, show w * n + i < 32 by omega]

/-- One bit of any field after an operand was ORed in at pin `n`. -/
theorem pinFieldOf_or_getLsbD {k : Nat} (w n m : Nat) (old : Word) (v : BitVec k) (hw : w * m + w ≤ 32) {i : Nat} (hi : i < w) :
    (pinFieldOf w m (old ||| toField v w n)).getLsbD i =
      ((pinFieldOf w m old).getLsbD i || (decide (w * n ≤ w * m + i) && v.getLsbD (w * m + i - w * n))) := by
  rw [pinFieldOf_getLsbD, BitVec.getLsbD_or, pinFieldOf_getLsbD, toField_getLsbD]
  simp [hi, show w * m + i < 32 by omega]

/-- A field below the operand's pin, or above all bits of the operand, is unchanged. -/
theorem pinFieldOf_or_far {k : Nat} (w n m : Nat) (old : Word) (v : BitVec k) (hw : w * m + w ≤ 32)
    (h : m < n ∨ w * n + k ≤ w * m) : pinFieldOf w m (old ||| toField v w n) = pinFieldOf w m old := by
  apply BitVec.eq_of_getLsbD_eq
  intro i hi
  rw [pinFieldOf_or_getLsbD _ _ _ _ _ hw hi]
  rcases h with h | h
  · have h1 : w * (m + 1) ≤ w * n := Nat.mul_le_mul_left w h
    have h2 : ¬ (w * n ≤ w * m + i) := by rw [Nat.mul_add] at h1; omega
    simp [h2]
  · simp [BitVec.getLsbD_of_ge v (w * m + i - w * n) (by omega)]

/-- Dropping bits 31:16 leaves every one-bit field. -/
theorem pinFieldOf_one_lowHalf (m : Line) (v : Word) : pinFieldOf 1 m (v &&& lowHalf) = pinFieldOf 1 m v := by
  apply BitVec.eq_of_getLsbD_eq
  intro i hi
  rw [pinFieldOf_getLsbD, pinFieldOf_getLsbD, BitVec.getLsbD_and, lowHalf_getLsbD]
  simp [show m.val + i < 16 by omega]

end Sys2Proof.Machine
end

