-- ==== Sys2Proof/Laws/Ops.lean ====
section
/-! SUPPORT. What each shared operation can do, said once: register accesses, the accesses of a command, completion. -/

namespace Sys2Proof.Machine

open Sys2Proof

variable {s t : State} {p n : Nat} {r : PortReg} {v w : Word}

/-! ### Register writes commute with the requester's own state -/

theorem modifyPort_setCur (s : State) (p : Nat) (g : Port → Port) (c : Ctx) :
    (s.setCur c).modifyPort p g = (s.modifyPort p g).setCur c := by
  cases h : s.active <;> simp [State.setCur, State.modifyPort, h]

theorem lineIn_setCur (s : State) (c : Ctx) (n : Line) : (s.setCur c).lineIn n = s.lineIn n :=
  lineIn_congr _ _ (by simp) (by simp) n

theorem latchEdges_setCur (s t : State) (c c' : Ctx) :
    latchEdges (s.setCur c) (t.setCur c') = (latchEdges s t).setCur c' := by
  have h1 : ∀ n, (s.setCur c).lineIn n = s.lineIn n := lineIn_setCur s c
  have h2 : ∀ n, (t.setCur c').lineIn n = t.lineIn n := lineIn_setCur t c'
  have h3 : ∀ n a b, edgeLatched (t.setCur c') n a b = edgeLatched t n a b := fun n a b => by simp [edgeLatched]
  unfold latchEdges
  simp only [h1, h2, h3, setCur_exti]
  cases h : t.active <;> simp [State.setCur, h]

theorem regWrite_setCur (s : State) (r : Reg) (v : Word) (c : Ctx) :
    (s.setCur c).regWrite r v = (s.regWrite r v).setCur c := by
  cases r with
  | port p r =>
    cases r <;> simp only [State.regWrite, port_setCur] <;> split <;>
      simp [modifyPort_setCur, latchEdges_setCur]
  | exti r => cases h : s.active <;> simp [State.regWrite, State.setCur, h]

theorem lineIn_tick (s : State) (n : Line) : s.tick.lineIn n = s.lineIn n := lineIn_congr _ _ rfl rfl n

theorem regWrite_tick (s : State) (r : Reg) (v : Word) : s.tick.regWrite r v = (s.regWrite r v).tick := by
  cases r with
  | port p r => cases r <;> cases hc : (s.port p).clken <;> simp only [State.regWrite, port_tick, hc] <;> rfl
  | exti r => rfl

theorem enableVector_setCur (s : State) (v : VectorId) (c : Ctx) :
    (s.setCur c).enableVector v = (s.enableVector v).setCur c := by
  cases h : s.active <;> simp [State.setCur, State.enableVector, h]

/-! ### What a read returns -/

theorem regRead_port (hr : r ≠ .idr) (hc : (s.port p).clken = true) :
    s.regRead (.port p r) = s.stored (.port p r) &&& implementedBits r := by
  cases r <;> simp_all [State.regRead, State.stored]

theorem regRead_idr (hc : (s.port p).clken = true) : s.regRead (.port p .idr) = s.idr p := by
  simp [State.regRead, hc]

theorem regRead_exti (r : ExtiReg) : s.regRead (.exti r) = s.stored (.exti r) &&& lowHalf := rfl

theorem regRead_gated (hc : (s.port p).clken = false) : s.regRead (.port p r) = 0 := by
  cases r <;> simp [State.regRead, hc]

theorem idr_bit (s : State) (p : Nat) (n : Line) : bitOf (s.idr p) n = s.level p n := bitOf_ofPins _ n

/-! ### What a write stores -/

theorem regWrite_gated (hc : (s.port p).clken = false) : s.regWrite (.port p r) v = s := by
  cases r <;> simp [State.regWrite, hc]

theorem get_set_same (q : PortRegs) (v : Word) (hr : r ≠ .idr) : (q.set v r).get r = v &&& implementedBits r := by
  cases r <;> simp_all [PortRegs.set, PortRegs.get, implementedBits]

theorem get_set_other (q : PortRegs) (v : Word) {r r' : PortReg} (h : r' ≠ r) : (q.set v r).get r' = q.get r' := by
  cases r <;> cases r' <;> simp_all [PortRegs.set, PortRegs.get]

/-- A write of a port register other than `ODR` and `IDR`, and every field of the state after it. -/
theorem regWrite_port (hr : r ≠ .odr) (hc : (s.port p).clken = true) :
    s.regWrite (.port p r) v = s.modifyPort p fun q => { q with regs := q.regs.set v r } := by
  cases r <;> simp_all [State.regWrite]

theorem regWrite_odr (hc : (s.port p).clken = true) :
    s.regWrite (.port p .odr) v = latchEdges s (s.modifyPort p fun q => { q with regs := q.regs.set v .odr }) := by
  simp [State.regWrite, hc]

theorem port_regWrite (hc : (s.port p).clken = true) (q : Nat) :
    (s.regWrite (.port p r) v).port q =
      if q = p ∧ p < s.nports then { s.port q with regs := (s.port q).regs.set v r } else s.port q := by
  by_cases hr : r = .odr
  · subst hr; rw [regWrite_odr hc, port_latchEdges, port_modifyPort]
  · rw [regWrite_port hr hc, port_modifyPort]

@[simp] theorem clken_regWrite (s : State) (r : Reg) (v : Word) (q : Nat) :
    ((s.regWrite r v).port q).clken = (s.port q).clken := by
  cases r with
  | port p r =>
    cases hc : (s.port p).clken
    · rw [regWrite_gated hc]
    · rw [port_regWrite hc]; split <;> rfl
  | exti r => rfl

@[simp] theorem pad_regWrite (s : State) (r : Reg) (v : Word) (q : Nat) :
    ((s.regWrite r v).port q).pad = (s.port q).pad := by
  cases r with
  | port p r =>
    cases hc : (s.port p).clken
    · rw [regWrite_gated hc]
    · rw [port_regWrite hc]; split <;> rfl
  | exti r => rfl

theorem samePlatform_regWrite (s : State) (r : Reg) (v : Word) : SamePlatform s (s.regWrite r v) :=
  ⟨by simp, by simp⟩

theorem SamePlatform.trans {s t u : State} (h : SamePlatform s t) (h' : SamePlatform t u) : SamePlatform s u :=
  ⟨h'.1.trans h.1, fun p => ⟨(h'.2 p).1.trans (h.2 p).1, (h'.2 p).2.trans (h.2 p).2⟩⟩

/-- The stored registers after a write to an implemented, clocked port register other than `ODR` and `IDR`. -/
theorem stored_regWrite_port (hr : r ≠ .odr) (hi : r ≠ .idr) (hp : p < s.nports) (hc : (s.port p).clken = true) (x : Reg) :
    (s.regWrite (.port p r) v).stored x = if x = .port p r then v &&& implementedBits r else s.stored x := by
  cases x with
  | port q r' =>
    rw [State.stored, port_regWrite hc]
    by_cases hq : q = p
    · subst hq
      by_cases hrr : r' = r
      · subst hrr; simp [hp, get_set_same _ _ hi]
      · simp [hp, hrr, get_set_other _ _ hrr, State.stored]
    · simp [hq, State.stored]
  | exti r' => simp [State.stored, regWrite_port hr hc]

/-- The pending flags after a step that may have changed levels. -/
theorem bitOf_latchEdges (s t : State) (n : Line) :
    bitOf (latchEdges s t).exti.pr n = (bitOf t.exti.pr n || edgeLatched t n (s.lineIn n) (t.lineIn n)) := by
  simp [latchEdges]

/-- A line whose input did not change latches nothing (R163). -/
@[simp] theorem edgeLatched_same (s : State) (n : Line) (a : Bool) : edgeLatched s n a a = false := by
  cases a <;> simp [edgeLatched]

/-- The stored registers after a write to the output data register of an implemented, clocked port: that register, and pending
flags by the edge detector, are all that changes. -/
theorem stored_regWrite_odr (hp : p < s.nports) (hc : (s.port p).clken = true) (x : Reg) (hx : x ≠ .exti .pr) :
    (s.regWrite (.port p .odr) v).stored x = if x = .port p .odr then v &&& lowHalf else s.stored x := by
  cases x with
  | port q r' =>
    rw [State.stored, port_regWrite hc]
    by_cases hq : q = p
    · subst hq
      by_cases hrr : r' = .odr
      · subst hrr; simp [hp, get_set_same, implementedBits]
      · simp [hp, hrr, get_set_other _ _ hrr, State.stored]
    · simp [hq, State.stored]
  | exti r' => cases r' <;> simp_all [State.stored, regWrite_odr hc, Exti.get]

/-- The pending flags after a write to `ODR[p]` (R163). -/
theorem pending_regWrite_odr (hc : (s.port p).clken = true) (n : Line) :
    bitOf (s.regWrite (.port p .odr) v).exti.pr n =
      (bitOf s.exti.pr n || edgeLatched s n (s.lineIn n) ((s.regWrite (.port p .odr) v).lineIn n)) := by
  have hl : ∀ m, (latchEdges s (s.modifyPort p fun q => { q with regs := q.regs.set v .odr })).lineIn m =
      (s.modifyPort p fun q => { q with regs := q.regs.set v .odr }).lineIn m := fun m => lineIn_congr _ _ rfl rfl m
  rw [regWrite_odr hc, bitOf_latchEdges, hl]
  rfl

/-- The stored registers after a write to a register of `EXTI` other than `PR`. -/
theorem stored_regWrite_exti {r : ExtiReg} (hr : r ≠ .pr) (x : Reg) :
    (s.regWrite (.exti r) v).stored x = if x = .exti r then v &&& lowHalf else s.stored x := by
  cases x with
  | port q r' => simp [State.stored, State.port, State.regWrite]
  | exti r' => cases r <;> cases r' <;> simp_all [State.stored, State.regWrite, Exti.set, Exti.get]

/-- The stored registers after a write to `PR`: bits written as 1 are cleared (R34). -/
theorem stored_regWrite_pr (x : Reg) :
    (s.regWrite (.exti .pr) v).stored x = if x = .exti .pr then s.stored (.exti .pr) &&& ~~~(v &&& lowHalf) else s.stored x := by
  cases x with
  | port q r' => simp [State.stored, State.port, State.regWrite]
  | exti r' => cases r' <;> simp_all [State.stored, State.regWrite, Exti.set, Exti.get]

/-! ### The accesses of a command -/

theorem eventDue_iff (s : State) : s.eventDue = false ↔ s.quiet 0 := by
  unfold State.eventDue State.quiet
  rcases s.plan with _ | ⟨⟨d, e⟩, rest⟩
  · simp
  · cases d <;> simp

theorem quiet_of_plan {s t : State} (h : t.plan = s.plan) (k : Nat) : t.quiet k ↔ s.quiet k := by simp [State.quiet, h]

theorem quiet_ticks {s t : State} (j k : Nat) (h : t.plan = ticks j s.plan) : t.quiet k ↔ s.quiet (k + j) := by
  unfold State.quiet
  rw [h]
  rcases s.plan with _ | ⟨⟨d, e⟩, rest⟩
  · simp [ticks]
  · simp [ticks]; omega

theorem quiet_mono {s : State} {j k : Nat} (h : s.quiet k) (hj : j ≤ k) : s.quiet j := by
  unfold State.quiet at *
  rcases hs : s.plan with _ | ⟨⟨d, e⟩, rest⟩ <;> simp_all; omega

theorem runAccesses_last (a : Access) (s : State) : runAccesses [a] s = ((a.perform s).tick).complete := by
  simp [runAccesses]

theorem runAccesses_next {a b : Access} {rest : List Access} {s : State}
    (he : a.endsCommand (a.perform s).tick = false) (hd : (a.perform s).tick.eventDue = false) :
    runAccesses (a :: b :: rest) s = runAccesses (b :: rest) (a.perform s).tick := by
  rw [runAccesses]; simp [he, hd]

theorem runAccesses_pause {a b : Access} {rest : List Access} {s : State}
    (he : a.endsCommand (a.perform s).tick = false) (hd : (a.perform s).tick.eventDue = true) :
    runAccesses (a :: b :: rest) s = (a.perform s).tick := by
  rw [runAccesses]; simp [he, hd]

/-- A state with register contents `x`, `k` moves after a state with requester `s`, the running context being `c`. -/
def State.at (x : State) (k : Nat) (c : Ctx) : State := { x with plan := ticks k x.plan }.setCur c

@[simp] theorem at_cur (x : State) (k : Nat) (c : Ctx) : (x.at k c).cur = c := by simp [State.at]

@[simp] theorem at_plan (x : State) (k : Nat) (c : Ctx) : (x.at k c).plan = ticks k x.plan := by simp [State.at]

@[simp] theorem at_setCur (x : State) (k : Nat) (c c' : Ctx) : (x.at k c).setCur c' = x.at k c' := by simp [State.at]

theorem at_tick (x : State) (k : Nat) (c : Ctx) : (x.at k c).tick = x.at (k + 1) c := by
  rw [State.at, tick_setCur]
  simp only [State.at]
  congr 1
  rcases hx : x.plan with _ | ⟨⟨d, e⟩, rest⟩ <;> simp [State.tick, ticks, Nat.sub_sub]

theorem at_regRead (x : State) (k : Nat) (c : Ctx) (r : Reg) : (x.at k c).regRead r = x.regRead r :=
  regRead_congr _ _ (by simp [State.at]) (by simp [State.at]) (by simp [State.at]) r

theorem withPlan_regWrite (x : State) (l : List (Nat × Event)) (r : Reg) (v : Word) :
    { x with plan := l }.regWrite r v = { x.regWrite r v with plan := l } := by
  cases r with
  | port p r =>
    have hp : ({ x with plan := l } : State).port p = x.port p := rfl
    cases r <;> cases hc : (x.port p).clken <;> simp only [State.regWrite, hp, hc] <;> rfl
  | exti r => rfl

theorem at_regWrite (x : State) (k : Nat) (c : Ctx) (r : Reg) (v : Word) :
    (x.at k c).regWrite r v = (x.regWrite r v).at k c := by
  rw [State.at, regWrite_setCur, withPlan_regWrite]; simp [State.at]

theorem at_enableVector (x : State) (k : Nat) (c : Ctx) (v : VectorId) :
    (x.at k c).enableVector v = (x.enableVector v).at k c := by
  rw [State.at, enableVector_setCur]; rfl

theorem at_zero (s : State) : s.at 0 s.cur = s := by simp [State.at]

/-- The register contents after an access, given the in-flight record it starts with. -/
def Access.effect (a : Access) (f : InFlight) (x : State) : State :=
  match a with
  | .read _ => x
  | .sample _ _ => x
  | .latch _ _ => x
  | .test _ _ => x
  | .writeOr r v => x.regWrite r (f.t ||| v)
  | .writeAndn r v => x.regWrite r (f.t &&& ~~~v)
  | .writeOpposite r v => x.regWrite r (if f.b then f.t &&& ~~~v else f.t ||| v)
  | .write r v => x.regWrite r v
  | .enableVector v => x.enableVector v

/-- The in-flight record after an access. -/
def Access.flight (a : Access) (f : InFlight) (x : State) : InFlight :=
  match a with
  | .read r => { f with t := x.regRead r }.advance
  | .sample r n => { f with b := bitOf (x.regRead r) n }.advance
  | .test r _ => { f with t := x.regRead r }.advance
  | .latch _ _ => f.advance
  | .writeOr _ _ => f.advance
  | .writeAndn _ _ => f.advance
  | .writeOpposite _ _ => f.advance
  | .write _ _ => f.advance
  | .enableVector _ => f.advance

/-- The result latch after an access. -/
def Access.result (a : Access) (res : Option Bool) (x : State) : Option Bool :=
  match a with
  | .latch r n => some (bitOf (x.regRead r) n)
  | .read _ => res
  | .sample _ _ => res
  | .test _ _ => res
  | .writeOr _ _ => res
  | .writeAndn _ _ => res
  | .writeOpposite _ _ => res
  | .write _ _ => res
  | .enableVector _ => res

/-- One access and one move: register contents, requester and plan apart. -/
theorem perform_at (a : Access) (x : State) (k : Nat) (c : Ctx) :
    (a.perform (x.at k c)).tick =
      (a.effect c.flight x).at (k + 1) { c with flight := a.flight c.flight x, res := a.result c.res x } := by
  cases a <;>
    simp [Access.perform, Access.effect, Access.flight, Access.result, State.setFlight, State.setRes, at_regRead, at_regWrite,
      at_enableVector, at_tick]

theorem complete_at (x : State) (k : Nat) (c : Ctx) :
    (x.at k c).complete = x.at k { c with cp := c.cp + 1, flight := InFlight.fresh } := by
  simp [State.complete]

theorem completed_at {x s : State} {k : Nat} {c : Ctx} (hx : x.main = s.main ∧ x.active = s.active)
    (hd : x.draws = s.draws) (hc : x.config = s.config) (hy : x.cycle = s.cycle) (hcp : c.cp = s.cur.cp + 1) (hf : c.flight = InFlight.fresh)
    (hprog : c.prog = s.cur.prog) : Completed c.res s (x.at k c) := by
  have hcc : c = { s.cur with cp := s.cur.cp + 1, flight := InFlight.fresh, res := c.res } := by
    cases c; simp_all
  refine ⟨?_, ?_, by simp [State.at, hd], by simp [State.at, hc], by simp [State.at, hy]⟩
  · rw [← hcc]; exact setCur_main_congr s { x with plan := ticks k x.plan } c hx.1 hx.2
  · rw [← hcc]; exact setCur_active_congr s { x with plan := ticks k x.plan } c hx.2

@[simp] theorem at_stored (x : State) (k : Nat) (c : Ctx) (r : Reg) : (x.at k c).stored r = x.stored r := by
  cases r <;> simp [State.stored, State.at, State.port]

@[simp] theorem at_port (x : State) (k : Nat) (c : Ctx) (p : Nat) : (x.at k c).port p = x.port p := by simp [State.at, State.port]
@[simp] theorem at_nports (x : State) (k : Nat) (c : Ctx) : (x.at k c).nports = x.nports := by simp [State.at, State.nports]
@[simp] theorem at_ven (x : State) (k : Nat) (c : Ctx) : (x.at k c).ven = x.ven := by simp [State.at]
@[simp] theorem at_exti (x : State) (k : Nat) (c : Ctx) : (x.at k c).exti = x.exti := by simp [State.at]
@[simp] theorem at_ports (x : State) (k : Nat) (c : Ctx) : (x.at k c).ports = x.ports := by simp [State.at]
@[simp] theorem at_cycle (x : State) (k : Nat) (c : Ctx) : (x.at k c).cycle = x.cycle := by simp [State.at]
@[simp] theorem at_config (x : State) (k : Nat) (c : Ctx) : (x.at k c).config = x.config := by simp [State.at]

end Sys2Proof.Machine
end

