-- ==== Sys2Proof/Laws/Step.lean ====
section
/-! SUPPORT. What a command, and a step, can do: an induction over the accesses, and inversion lemmas for exec and step. -/

namespace Sys2Proof.Machine

open Sys2Proof

/-- A relation to the start state that every access of the list, every move and every completion keeps, is kept by the command. -/
theorem runAccesses_induct (R : State → Prop) (as : List Access) (hp : ∀ a ∈ as, ∀ s, R s → R (a.perform s))
    (ht : ∀ s, R s → R s.tick) (hc : ∀ s, R s → R s.complete) (s : State) (h : R s) : R (runAccesses as s) := by
  induction as generalizing s with
  | nil => exact hc _ (ht _ h)
  | cons a rest ih =>
    have h1 : R (a.perform s).tick := ht _ (hp a (by simp) _ h)
    rw [runAccesses]
    split
    · exact hc _ h1
    · split
      · exact h1
      · exact ih (fun b hb => hp b (by simp [hb])) _ h1

theorem runCommand_induct (R : State → Prop) (as : List Access) (hp : ∀ a ∈ as, ∀ s, R s → R (a.perform s))
    (ht : ∀ s, R s → R s.tick) (hc : ∀ s, R s → R s.complete) (s : State) (h : R s) : R (runCommand as s) :=
  runAccesses_induct R _ (fun a ha => hp a (List.mem_of_mem_drop ha)) ht hc s h

theorem guardPin_next {pin : Nat} {r : Result} {t : State} : guardPin pin r = .next t ↔ pin ≤ 15 ∧ r = .next t := by
  unfold guardPin; split <;> simp_all

/-- The accesses a command lists, the port operand resolved (Table R76). -/
def listedAccesses (i : Instr) (s : State) : List Access :=
  match i with
  | .cfg port n m o sp pu _ => match s.resolvePort port with
    | some p => cfgAccesses p n m o sp pu
    | none => []
  | .rdp port n => match s.resolvePort port with
    | some p => rdpAccesses p n
    | none => []
  | .wrp port n v => match s.resolvePort port with
    | some p => wrpAccesses p n v
    | none => []
  | .tgl port n => match s.resolvePort port with
    | some p => tglAccesses p n
    | none => []
  | .saf port n af => match s.resolvePort port with
    | some p => safAccesses p n af
    | none => []
  | .iedg n e => iedgAccesses n e
  | .ien n v => ienAccesses n v
  | .iclr n => iclrAccesses n

/-- INVERSION of exec: a next state is the run of the listed accesses, an absent-port read first setting the latch to 0. -/
theorem exec_next {i : Instr} {s t : State} (h : exec i s = .next t) :
    i.pin ≤ 15 ∧ (t = runCommand (listedAccesses i s) s ∨
      (∃ port n, i = .rdp port n ∧ s.resolvePort port = none ∧ t = runCommand [] (s.setRes false))) := by
  cases i with
  | rdp port n =>
    simp only [exec, execRdp, guardPin_next, Host.Outcome.next.injEq] at h
    refine ⟨h.1, ?_⟩
    cases hr : s.resolvePort port with
    | none => right; exact ⟨port, n, rfl, hr, by simpa [hr] using h.2.symm⟩
    | some p => left; simpa [hr, listedAccesses] using h.2.symm
  | cfg port n m o sp pu af =>
    simp only [exec, execCfg, portCommand, guardPin_next, Host.Outcome.next.injEq] at h
    refine ⟨h.1, .inl ?_⟩
    cases hr : s.resolvePort port <;> simpa [hr, listedAccesses] using h.2.symm
  | wrp port n v =>
    simp only [exec, execWrp, portCommand, guardPin_next, Host.Outcome.next.injEq] at h
    refine ⟨h.1, .inl ?_⟩
    cases hr : s.resolvePort port <;> simpa [hr, listedAccesses] using h.2.symm
  | tgl port n =>
    simp only [exec, execTgl, portCommand, guardPin_next, Host.Outcome.next.injEq] at h
    refine ⟨h.1, .inl ?_⟩
    cases hr : s.resolvePort port <;> simpa [hr, listedAccesses] using h.2.symm
  | saf port n af =>
    simp only [exec, execSaf, portCommand, guardPin_next, Host.Outcome.next.injEq] at h
    refine ⟨h.1, .inl ?_⟩
    cases hr : s.resolvePort port <;> simpa [hr, listedAccesses] using h.2.symm
  | iedg n e =>
    simp only [exec, execIedg, guardPin_next, Host.Outcome.next.injEq] at h
    exact ⟨h.1, .inl h.2.symm⟩
  | ien n v =>
    simp only [exec, execIen, guardPin_next, Host.Outcome.next.injEq] at h
    exact ⟨h.1, .inl h.2.symm⟩
  | iclr n =>
    simp only [exec, execIclr, guardPin_next, Host.Outcome.next.injEq] at h
    exact ⟨h.1, .inl h.2.symm⟩

/-- What every listed access, move, completion and latch write keeps, every command keeps. -/
theorem exec_induct (R : State → Prop) {i : Instr} {s t : State} (hp : ∀ a ∈ listedAccesses i s, ∀ x, R x → R (a.perform x))
    (ht : ∀ x, R x → R x.tick) (hc : ∀ x, R x → R x.complete) (hr : ∀ x b, R x → R (x.setRes b))
    (h : exec i s = .next t) (hs : R s) : R t := by
  obtain ⟨_, rfl | ⟨_, _, _, _, rfl⟩⟩ := exec_next h
  · exact runCommand_induct R _ hp ht hc s hs
  · exact runCommand_induct R _ (by simp) ht hc _ (hr _ _ hs)

/-- INVERSION of step: an event that was due, the end of a list, or the command in progress. -/
theorem step_next {s t : State} (h : step s = .next t) :
    (∃ e rest, s.plan = (0, e) :: rest ∧ t = e.apply { s with plan := s.planAfter rest }) ∨
    (s.eventDue = false ∧ s.cur.finished = true ∧ t = s.afterLast) ∨
    (s.eventDue = false ∧ s.cur.finished = false ∧ ∃ i, decode s.fetch = .command i ∧ exec i s = .next t) := by
  unfold step at h
  split at h
  · next e rest hpl => left; exact ⟨e, rest, hpl, by simpa using h.symm⟩
  · next hne =>
    have hd : s.eventDue = false := by
      unfold State.eventDue
      split
      · next e rest hpl => exact absurd hpl (hne _ _)
      · rfl
    right
    split at h
    · next hf => left; exact ⟨hd, hf, by simpa using h.symm⟩
    · next hf =>
      right
      refine ⟨hd, by simpa using hf, ?_⟩
      split at h
      · next i hi => exact ⟨i, hi, h⟩
      · cases h

theorem finished_iff (c : Ctx) : c.finished = false ↔ c.cp < c.prog.length := by simp [Ctx.finished]

end Sys2Proof.Machine
end

