-- ==== Sys2Proof/Laws/Command.lean ====
section
/-! SUPPORT. Whole commands in normal form: register contents apart from requester and plan. -/

namespace Sys2Proof.Machine

open Sys2Proof

variable {x s : State} {k n : Nat} {c : Ctx} {r : Reg} {v : Word}

@[simp] theorem effect_plan (a : Access) (f : InFlight) (x : State) : (a.effect f x).plan = x.plan := by
  cases a <;> simp [Access.effect]

@[simp] theorem effect_config (a : Access) (f : InFlight) (x : State) : (a.effect f x).config = x.config := by
  cases a <;> simp [Access.effect]

@[simp] theorem effect_main (a : Access) (f : InFlight) (x : State) : (a.effect f x).main = x.main := by
  cases a <;> simp [Access.effect]

@[simp] theorem effect_active (a : Access) (f : InFlight) (x : State) : (a.effect f x).active = x.active := by
  cases a <;> simp [Access.effect]

@[simp] theorem effect_draws (a : Access) (f : InFlight) (x : State) : (a.effect f x).draws = x.draws := by
  cases a <;> simp [Access.effect]

@[simp] theorem effect_cycle (a : Access) (f : InFlight) (x : State) : (a.effect f x).cycle = x.cycle := by
  cases a <;> simp [Access.effect]

theorem due_at (x : State) (k : Nat) (c : Ctx) : (x.at k c).eventDue = false ↔ x.quiet k := by
  rw [eventDue_iff, quiet_ticks k 0 (at_plan x k c), Nat.zero_add]

/-- An access that is not the last and not a test, with no event due after it. -/
theorem run_next {a b : Access} {rest : List Access} (ha : ∀ r n, a ≠ .test r n) (hq : x.quiet (k + 1)) :
    runAccesses (a :: b :: rest) (x.at k c) =
      runAccesses (b :: rest) ((a.effect c.flight x).at (k + 1)
        { c with flight := a.flight c.flight x, res := a.result c.res x }) := by
  rw [runAccesses_next, perform_at]
  · cases a <;> simp_all [Access.endsCommand]
  · rw [perform_at, due_at, quiet_of_plan (effect_plan a _ x)]; exact hq

/-- The last access of a command. -/
theorem run_last (a : Access) :
    runAccesses [a] (x.at k c) = (a.effect c.flight x).at (k + 1)
      { c with cp := c.cp + 1, flight := InFlight.fresh, res := a.result c.res x } := by
  rw [runAccesses_last, perform_at, complete_at]

/-- A command without an access (R102, R120). -/
theorem run_none : runAccesses [] (x.at k c) = x.at (k + 1) { c with cp := c.cp + 1, flight := InFlight.fresh } := by
  rw [runAccesses, at_tick, complete_at]

theorem run_rmwOr_last (hq : x.quiet (k + 1)) :
    runAccesses (rmwOr r v) (x.at k c) =
      (x.regWrite r (x.regRead r ||| v)).at (k + 2) { c with cp := c.cp + 1, flight := InFlight.fresh } := by
  rw [rmwOr, run_next (by simp) hq, run_last]; rfl

theorem run_rmwAndn_last (hq : x.quiet (k + 1)) :
    runAccesses (rmwAndn r v) (x.at k c) =
      (x.regWrite r (x.regRead r &&& ~~~v)).at (k + 2) { c with cp := c.cp + 1, flight := InFlight.fresh } := by
  rw [rmwAndn, run_next (by simp) hq, run_last]; rfl

theorem run_rmwOr_next {rest : List Access} (hne : rest ≠ []) (hq : x.quiet (k + 2)) :
    runAccesses (rmwOr r v ++ rest) (x.at k c) =
      runAccesses rest ((x.regWrite r (x.regRead r ||| v)).at (k + 2)
        { c with flight := ⟨c.flight.done + 2, x.regRead r, c.flight.b⟩ }) := by
  obtain ⟨a, rest, rfl⟩ := List.exists_cons_of_ne_nil hne
  rw [rmwOr, List.cons_append, List.cons_append, List.nil_append, run_next (by simp) (quiet_mono hq (by omega)),
    run_next (by simp) (by simpa [Access.effect] using hq)]
  rfl

/-- A command that starts with its first access. -/
theorem runCommand_fresh {as : List Access} (h : s.fresh) : runCommand as s = runAccesses as (s.at 0 s.cur) := by
  rw [runCommand, h, List.drop_zero, at_zero]

/-- A command that resumes after `d` accesses. -/
theorem runCommand_at {as : List Access} {d : Nat} (h : s.cur.flight.done = d) :
    runCommand as s = runAccesses (as.drop d) (s.at 0 s.cur) := by
  rw [runCommand, h, at_zero]

theorem guardPin_ok {pin : Nat} {r : Result} (h : pin ≤ 15) : guardPin pin r = r := by simp [guardPin, h]

theorem resolve_index (p : Fin 15) (h : p.val < s.nports) : s.resolvePort (.index p) = some p.val := by
  simp [State.resolvePort, h]

theorem resolve_absent {port : PortSel} (h : s.Absent port) : s.resolvePort port = none := by
  cases port with
  | null => rfl
  | index p => simpa [State.resolvePort, State.Absent] using h

theorem portCommand_ready {as : Nat → List Access} (hn : n ≤ 15) (hf : s.fresh) (p : Fin 15) (h : p.val < s.nports) :
    portCommand (.index p) n as s = .next (runAccesses (as p) (s.at 0 s.cur)) := by
  rw [portCommand, guardPin_ok hn, resolve_index p h]; simp only [runCommand_fresh hf]

theorem portCommand_absent {as : Nat → List Access} {port : PortSel} (hn : n ≤ 15) (h : s.Absent port) :
    portCommand port n as s = .next (s.at 1 { s.cur with cp := s.cur.cp + 1, flight := InFlight.fresh }) := by
  rw [portCommand, guardPin_ok hn, resolve_absent h]
  simp only [runCommand, List.drop_nil]
  conv_lhs => rw [← at_zero s]
  rw [run_none]

/-- The completed command's effect on the requester, from its normal form. -/
theorem completed_of_at {res : Option Bool} (hx : x.main = s.main ∧ x.active = s.active)
    (hd : x.draws = s.draws) (hc : x.config = s.config) (hy : x.cycle = s.cycle) (hcp : c.cp = s.cur.cp + 1) (hf : c.flight = InFlight.fresh)
    (hprog : c.prog = s.cur.prog) (hr : c.res = res) : Completed res s (x.at k c) := by
  subst hr; exact completed_at hx hd hc hy hcp hf hprog

theorem sameBut_at (s : State) (k : Nat) (c : Ctx) : SameBut [] s (s.at k c) :=
  ⟨⟨by simp, by simp⟩, by simp, fun r _ => by simp⟩

/-- A write to an implemented, clocked port register other than `ODR` and `IDR` leaves what every other register reads as. -/
theorem regRead_regWrite_port {p : Nat} {r : PortReg} (hr : r ≠ .odr) (hi : r ≠ .idr) (hp : p < x.nports)
    (hc : (x.port p).clken = true) (q : Nat) (r' : PortReg) (hi' : r' ≠ .idr) (h : Reg.port q r' ≠ .port p r) :
    (x.regWrite (.port p r) v).regRead (.port q r') = x.regRead (.port q r') := by
  cases hq : (x.port q).clken
  · rw [regRead_gated hq, regRead_gated (by simpa using hq)]
  · rw [regRead_port hi' hq, regRead_port hi' (by simpa using hq), stored_regWrite_port hr hi hp hc, if_neg h]

/-- A read-modify-write of an implemented, clocked port register other than `ODR` and `IDR`, all other state apart. -/
theorem sameBut_regWrite_port {p : Nat} {r : PortReg} (hr : r ≠ .odr) (hi : r ≠ .idr) (hp : p < x.nports)
    (hc : (x.port p).clken = true) : SameBut [.port p r] x (x.regWrite (.port p r) v) :=
  ⟨samePlatform_regWrite _ _ _, by simp, fun y hy => by
    rw [stored_regWrite_port hr hi hp hc, if_neg (by simpa using hy)]⟩

theorem sameBut_regWrite_exti {r : ExtiReg} : SameBut [.exti r] x (x.regWrite (.exti r) v) :=
  ⟨samePlatform_regWrite _ _ _, by simp, fun y hy => by
    by_cases h : r = .pr
    · subst h; rw [stored_regWrite_pr, if_neg (by simpa using hy)]
    · rw [stored_regWrite_exti h, if_neg (by simpa using hy)]⟩

theorem sameBut_regWrite_odr {p : Nat} (hp : p < x.nports) (hc : (x.port p).clken = true) :
    SameBut [.port p .odr, .exti .pr] x (x.regWrite (.port p .odr) v) :=
  ⟨samePlatform_regWrite _ _ _, by simp, fun y hy => by
    simp only [List.mem_cons, List.not_mem_nil, or_false, not_or] at hy
    rw [stored_regWrite_odr hp hc y hy.2, if_neg hy.1]⟩

theorem SameBut.trans {s t u : State} {l l' : List Reg} (h : SameBut l s t) (h' : SameBut l' t u) : SameBut (l ++ l') s u :=
  ⟨h.1.trans h'.1, h'.2.1.trans h.2.1, fun r hr => by
    rw [List.mem_append, not_or] at hr; exact (h'.2.2 r hr.2).trans (h.2.2 r hr.1)⟩

theorem SameBut.at {s x : State} {l : List Reg} (h : SameBut l s x) (k : Nat) (c : Ctx) : SameBut l s (x.at k c) :=
  ⟨⟨by simpa using h.1.1, fun p => by simpa using h.1.2 p⟩, by simpa using h.2.1, fun r hr => by simpa using h.2.2 r hr⟩

/-- The pending flags after a store to `ODR[p]`, and nothing else of `PR` (R163). -/
theorem pendingByEdges_odr {p : Nat} (hc : (x.port p).clken = true) : PendingByEdges x (x.regWrite (.port p .odr) v) := by
  constructor
  · intro n; simpa [edgeLatched, bitOf] using pending_regWrite_odr (s := x) (v := v) hc n
  · rw [regWrite_odr hc]
    apply BitVec.eq_of_getLsbD_eq
    intro i _
    simp [latchEdges, ofPins_getLsbD]

theorem PendingByEdges.at {s x : State} (h : PendingByEdges s x) (k : Nat) (c : Ctx) : PendingByEdges s (x.at k c) := by
  have hl : ∀ n, (x.at k c).lineIn n = x.lineIn n := fun n => lineIn_congr _ _ (by simp) (by simp) n
  exact ⟨fun n => by simpa [hl] using h.1 n, by simpa using h.2⟩

theorem regRead_mono_bits {p : Nat} {r : PortReg} (hr : implementedBits r = 0xFFFFFFFF) (hi : r ≠ .idr)
    (hc : (x.port p).clken = true) : x.regRead (.port p r) = x.stored (.port p r) := by
  rw [regRead_port hi hc, hr]; exact BitVec.and_allOnes

theorem regRead_and_lowHalf {p : Nat} {r : PortReg} (hr : implementedBits r = lowHalf) (hi : r ≠ .idr) :
    x.regRead (.port p r) &&& lowHalf = x.regRead (.port p r) := by
  cases hc : (x.port p).clken
  · rw [regRead_gated hc]; rfl
  · rw [regRead_port hi hc, hr, and_lowHalf_idem]

theorem twoPow_eq_pinMask (n : Nat) : BitVec.twoPow 32 n = pinMask n := by
  rw [pinMask, BitVec.twoPow_eq]; rfl

theorem and_lowHalf_of_highClear (a b : Word) (h : HighClear a) : (a &&& b) &&& lowHalf = a &&& b :=
  (highClear_iff _).1 (highClear_and_left b h)

/-- A write to a gated port changes nothing, so a read-modify-write leaves only its two moves (R67). -/
theorem regWrite_gated_port {p : Nat} {r : PortReg} (h : (x.port p).clken = false) : x.regWrite (.port p r) v = x :=
  regWrite_gated h

end Sys2Proof.Machine
end

