-- ==== Sys2Proof/Laws/Decode.lean ====
section
/-! SUPPORT. Fields of a packed word, and the opcode table against the decoder's own checks. -/

namespace Sys2Proof

theorem pack_getLsbD (op port : BitVec 4) (pin : BitVec 8) (arg : BitVec 16) (i : Nat) (hi : i < 32) :
    (pack op port pin arg).getLsbD i =
      if i < 16 then arg.getLsbD i else if i < 24 then pin.getLsbD (i - 16)
      else if i < 28 then port.getLsbD (i - 24) else op.getLsbD (i - 28) := by
  simp only [pack, BitVec.getLsbD_or, BitVec.getLsbD_shiftLeft, BitVec.getLsbD_setWidth, hi, decide_true, Bool.true_and]
  by_cases h1 : i < 16
  · simp [h1, show i < 24 by omega, show i < 28 by omega]
  · by_cases h2 : i < 24
    · simp [h1, h2, show i < 28 by omega, show i - 16 < 32 by omega, BitVec.getLsbD_of_ge arg i (by omega)]
    · by_cases h3 : i < 28
      · simp [h1, h2, h3, show i - 24 < 32 by omega, BitVec.getLsbD_of_ge arg i (by omega),
          BitVec.getLsbD_of_ge pin (i - 16) (by omega)]
      · simp [h1, h2, h3, show i - 28 < 32 by omega, BitVec.getLsbD_of_ge arg i (by omega),
          BitVec.getLsbD_of_ge pin (i - 16) (by omega), BitVec.getLsbD_of_ge port (i - 24) (by omega)]

section Fields
variable (op port : BitVec 4) (pin : BitVec 8) (arg : BitVec 16)

@[simp] theorem opField_pack : opField (pack op port pin arg) = op := by
  apply BitVec.eq_of_getLsbD_eq
  intro i hi
  rw [opField, BitVec.getLsbD_extractLsb', pack_getLsbD _ _ _ _ _ (by omega)]
  simp [hi, show ¬ 28 + i < 16 by omega, show ¬ 28 + i < 24 by omega]

@[simp] theorem portField_pack : portField (pack op port pin arg) = port := by
  apply BitVec.eq_of_getLsbD_eq
  intro i hi
  rw [portField, BitVec.getLsbD_extractLsb', pack_getLsbD _ _ _ _ _ (by omega)]
  simp [hi, show ¬ 24 + i < 16 by omega, show 24 + i < 28 by omega]

@[simp] theorem pinField_pack : pinField (pack op port pin arg) = pin := by
  apply BitVec.eq_of_getLsbD_eq
  intro i hi
  rw [pinField, BitVec.getLsbD_extractLsb', pack_getLsbD _ _ _ _ _ (by omega)]
  simp [hi, show 16 + i < 24 by omega]

@[simp] theorem argField_pack : argField (pack op port pin arg) = arg := by
  apply BitVec.eq_of_getLsbD_eq
  intro i hi
  rw [argField, BitVec.getLsbD_extractLsb', pack_getLsbD _ _ _ _ _ (by omega)]
  simp [hi]

end Fields

/-- Every word is the packing of its four fields (R91). -/
theorem pack_fields (w : Word) : pack (opField w) (portField w) (pinField w) (argField w) = w := by
  apply BitVec.eq_of_getLsbD_eq
  intro i hi
  rw [pack_getLsbD _ _ _ _ _ hi]
  simp only [opField, portField, pinField, argField, BitVec.getLsbD_extractLsb']
  split
  · simp [*]
  · split
    · simp [show i - 16 < 8 by omega, show 16 + (i - 16) = i by omega]
    · split
      · simp [show i - 24 < 4 by omega, show 24 + (i - 24) = i by omega]
      · simp [show i - 28 < 4 by omega, show 28 + (i - 28) = i by omega]

/-- A mask and a match word on a packed word, field by field. -/
theorem pack_and_pack (op op' port port' : BitVec 4) (pin pin' : BitVec 8) (arg arg' : BitVec 16) :
    pack op port pin arg &&& pack op' port' pin' arg' = pack (op &&& op') (port &&& port') (pin &&& pin') (arg &&& arg') := by
  apply BitVec.eq_of_getLsbD_eq
  intro i hi
  rw [BitVec.getLsbD_and, pack_getLsbD _ _ _ _ _ hi, pack_getLsbD _ _ _ _ _ hi, pack_getLsbD _ _ _ _ _ hi]
  split
  · rw [BitVec.getLsbD_and]
  · split
    · rw [BitVec.getLsbD_and]
    · split <;> rw [BitVec.getLsbD_and]

theorem pack_inj {op op' port port' : BitVec 4} {pin pin' : BitVec 8} {arg arg' : BitVec 16} :
    pack op port pin arg = pack op' port' pin' arg' ↔ op = op' ∧ port = port' ∧ pin = pin' ∧ arg = arg' := by
  constructor
  · intro h
    exact ⟨by simpa using congrArg opField h, by simpa using congrArg portField h, by simpa using congrArg pinField h,
      by simpa using congrArg argField h⟩
  · rintro ⟨rfl, rfl, rfl, rfl⟩; rfl

/-- A masked comparison of a word, field by field: how a row of the opcode table reads in fields (R101). -/
theorem masked_iff (w : Word) (mop op mport port : BitVec 4) (mpin pin : BitVec 8) (marg arg : BitVec 16) :
    w &&& pack mop mport mpin marg = pack op port pin arg ↔
      opField w &&& mop = op ∧ portField w &&& mport = port ∧ pinField w &&& mpin = pin ∧ argField w &&& marg = arg := by
  conv_lhs => rw [← pack_fields w]
  rw [pack_and_pack, pack_inj]

theorem ifFixed_eq_command {w mask m : Word} {i j : Instr} : ifFixed w mask m i = .command j ↔ w &&& mask = m ∧ i = j := by
  unfold ifFixed; split <;> simp_all

@[simp] theorem portSelOf_bits (p : PortSel) : portSelOf p.bits = p := by
  cases p with
  | null => rfl
  | index p => revert p; decide

@[simp] theorem bits_portSelOf (b : BitVec 4) : (portSelOf b).bits = b := by revert b; decide

theorem edgeSelOf_bits {e : EdgeSel} (h : e.wellFormed = true) : edgeSelOf e.bits = e := by
  cases e with
  | unrecognised c =>
    simp [EdgeSel.wellFormed] at h
    obtain ⟨h1, h2⟩ := h
    interval_cases c <;> rfl
  | neither => rfl
  | rising => rfl
  | falling => rfl
  | both => rfl

@[simp] theorem bits_edgeSelOf (b : BitVec 4) : (edgeSelOf b).bits = b := by revert b; decide

theorem byte_and_high (b : BitVec 8) : b.setWidth 16 &&& (0xFF00 : BitVec 16) = 0 := by
  apply BitVec.eq_of_getLsbD_eq
  intro i hi
  have hm : ∀ i, i < 8 → (0xFF00 : BitVec 16).getLsbD i = false := by decide
  rw [BitVec.getLsbD_and, BitVec.getLsbD_setWidth]
  by_cases h : i < 8
  · rw [hm i h]; simp
  · simp [BitVec.getLsbD_of_ge b i (by omega)]

theorem edgeSelOf_wellFormed (b : BitVec 4) : (edgeSelOf b).wellFormed = true := by revert b; decide

theorem pin_toNat {n : Nat} (h : pinFits n = true) : (BitVec.ofNat 8 n).toNat = n := by
  simp [pinFits] at h; simp [h]

theorem pinFits_pinField (w : Word) : pinFits (pinField w).toNat = true := by
  simpa [pinFits] using (pinField w).isLt

/-- The fields of the `CFG` argument, and its must-be-zero bit (R93). -/
theorem cfgArg_fields (mode : BitVec 3) (otype : BitVec 2) (speed pull : BitVec 3) (af : BitVec 4) :
    (cfgArg mode otype speed pull af).extractLsb' 0 3 = mode ∧ (cfgArg mode otype speed pull af).extractLsb' 3 2 = otype ∧
    (cfgArg mode otype speed pull af).extractLsb' 5 3 = speed ∧ (cfgArg mode otype speed pull af).extractLsb' 8 3 = pull ∧
    (cfgArg mode otype speed pull af).extractLsb' 11 4 = af ∧ cfgArg mode otype speed pull af &&& 0x8000 = 0 := by
  refine ⟨?_, ?_, ?_, ?_, ?_, ?_⟩ <;> apply BitVec.eq_of_getLsbD_eq <;> intro i hi <;>
    simp only [cfgArg, BitVec.getLsbD_extractLsb', BitVec.getLsbD_or, BitVec.getLsbD_shiftLeft, BitVec.getLsbD_setWidth,
      BitVec.getLsbD_and] <;>
    interval_cases i <;> simp

/-- The `CFG` argument put together again from its fields. -/
theorem cfgArg_of_fields (a : BitVec 16) (h : a &&& 0x8000 = 0) :
    cfgArg (a.extractLsb' 0 3) (a.extractLsb' 3 2) (a.extractLsb' 5 3) (a.extractLsb' 8 3) (a.extractLsb' 11 4) = a := by
  have h15 : a[15] = false := by simpa using congrArg (fun x => x.getLsbD 15) h
  apply BitVec.eq_of_getLsbD_eq
  intro i hi
  simp only [cfgArg, BitVec.getLsbD_extractLsb', BitVec.getLsbD_or, BitVec.getLsbD_shiftLeft, BitVec.getLsbD_setWidth]
  interval_cases i <;> simp [h15]

/-- An argument whose bits from `k` up are zero is its low `k` bits. -/
theorem low_of_mask (a : BitVec 16) (k : Nat) (m : BitVec 16) (hm : ∀ i, i < 16 → m.getLsbD i = decide (k ≤ i)) (h : a &&& m = 0) :
    (a.extractLsb' 0 k).setWidth 16 = a := by
  apply BitVec.eq_of_getLsbD_eq
  intro i hi
  have := congrArg (fun x => x.getLsbD i) h
  simp [hm i hi] at this
  simp [BitVec.getLsbD_extractLsb', hi]
  by_cases hik : i < k
  · simp [hik]
  · rwa [BitVec.getLsbD_eq_getElem hi] at this

/-- A word that matches a row has that row's `OP` (R101). -/
theorem opField_of_match {w : Word} {row : OpcodeRow} (hr : row ∈ opcodeTable) (h : w &&& row.mask = row.matchWord) :
    opField w = opField row.matchWord := by
  have key : ∀ (mop op mport port : BitVec 4) (mpin pin : BitVec 8) (marg arg : BitVec 16), mop = 0xF →
      w &&& pack mop mport mpin marg = pack op port pin arg → opField w = opField (pack op port pin arg) := by
    intro mop op mport port mpin pin marg arg hf h
    have h1 := ((masked_iff w mop op mport port mpin pin marg arg).1 h).1
    rw [opField_pack, ← h1, hf]
    exact BitVec.and_allOnes.symm
  rw [← pack_fields row.mask, ← pack_fields row.matchWord] at h
  rw [← pack_fields row.matchWord]
  refine key _ _ _ _ _ _ _ _ ?_ h
  clear h key; revert row; decide

end Sys2Proof
end

