-- ==== Sys2Proof/Laws/PerInstr.lean ====
section
/-! SUPPORT. Per-instruction families: the encoder's word matches the instruction's own row of the opcode table. -/

namespace Sys2Proof.Laws.WordMatchesRow

open Sys2Proof

/-- The word of a well-formed instruction matches the row of its mnemonic (R101, R104). -/
def Statement (i : Instr) : Prop :=
  i.wellFormed = true → ∃ row ∈ opcodeTable, row.mnemonic = i.mnemonic ∧ row.matchesWord (encode i) = true

theorem packed {mnemonic : String} {mop op mport port op' port' : BitVec 4} {mpin pin pin' : BitVec 8} {marg arg arg' : BitVec 16}
    (h1 : op' &&& mop = op) (h2 : port' &&& mport = port) (h3 : pin' &&& mpin = pin) (h4 : arg' &&& marg = arg) :
    (OpcodeRow.mk mnemonic (pack op port pin arg) (pack mop mport mpin marg)).matchesWord (pack op' port' pin' arg') = true := by
  simp [OpcodeRow.matchesWord, pack_and_pack, h1, h2, h3, h4]

theorem zeroMask {k : Nat} (b : BitVec k) : b &&& 0 = 0 := BitVec.and_zero

theorem cfg (port : PortSel) (pin : Nat) (mode : BitVec 3) (otype : BitVec 2) (speed pull : BitVec 3) (af : BitVec 4) :
    Statement (.cfg port pin mode otype speed pull af) := fun _ =>
  ⟨⟨"CFG", pack 1 0 0 0, pack 0xF 0 0 0x8000⟩, by decide, rfl, packed (by decide) (zeroMask _) (zeroMask _) (by
    apply BitVec.eq_of_getLsbD_eq
    intro i hi
    have hm : ∀ i, i < 16 → ((0x8000 : BitVec 16).getLsbD i = decide (i = 15)) := by decide
    rw [BitVec.getLsbD_and, hm i hi]
    by_cases h : i = 15
    · subst h; simp [cfgArg]
    · simp [h])⟩

theorem rdp (port : PortSel) (pin : Nat) : Statement (.rdp port pin) := fun _ =>
  ⟨⟨"RDP", pack 2 0 0 0, pack 0xF 0 0 0xFFFF⟩, by decide, rfl, packed (by decide) (zeroMask _) (zeroMask _) (by decide)⟩

theorem wrp (port : PortSel) (pin : Nat) (value : Bool) : Statement (.wrp port pin value) := fun _ =>
  ⟨⟨"WRP", pack 3 0 0 0, pack 0xF 0 0 0xFFFE⟩, by decide, rfl, packed (by decide) (zeroMask _) (zeroMask _) (by cases value <;> decide)⟩

theorem tgl (port : PortSel) (pin : Nat) : Statement (.tgl port pin) := fun _ =>
  ⟨⟨"TGL", pack 4 0 0 0, pack 0xF 0 0 0xFFFF⟩, by decide, rfl, packed (by decide) (zeroMask _) (zeroMask _) (by decide)⟩

theorem saf (port : PortSel) (pin : Nat) (af : BitVec 4) : Statement (.saf port pin af) := fun h =>
  ⟨⟨"SAF", pack 5 0 0 0, pack 0xF 0 0 0xFFF0⟩, by decide, rfl, packed (by decide) (zeroMask _) (zeroMask _) (by clear h; revert af; decide)⟩

theorem iedg (pin : Nat) (edge : EdgeSel) : Statement (.iedg pin edge) := fun _ =>
  ⟨⟨"IEDG", pack 6 0 0 0, pack 0xF 0xF 0 0xFFF0⟩, by decide, rfl, packed (by decide) (by decide) (zeroMask _)
    (by generalize edge.bits = b; revert b; decide)⟩

theorem ien (pin : Nat) (vector : VectorId) : Statement (.ien pin vector) := fun _ =>
  ⟨⟨"IEN", pack 7 0 0 0, pack 0xF 0xF 0 0xFF00⟩, by decide, rfl, packed (by decide) (by decide) (zeroMask _)
    (byte_and_high _)⟩

theorem iclr (pin : Nat) : Statement (.iclr pin) := fun _ =>
  ⟨⟨"ICLR", pack 8 0 0 0, pack 0xF 0xF 0 0xFFFF⟩, by decide, rfl, packed (by decide) (by decide) (zeroMask _) (by decide)⟩

end Sys2Proof.Laws.WordMatchesRow
end

