-- ==== Sys2Proof/Laws/Runs.lean ====
section
/-! SUPPORT. Whole commands and steps: normal forms, pauses, what a command's listed accesses can do, requests and dispatch. -/

namespace Sys2Proof.Machine

open Sys2Proof

variable {s x : State} {p n : Nat} {v : Word}

/-! ### The register contents an uninterrupted command leaves -/

/-- The four read-modify-writes of `CFG` on the register contents (R121 to R125). -/
def cfgState (s : State) (p n : Nat) (mode : BitVec 3) (otype : BitVec 2) (speed pull : BitVec 3) : State :=
  let s1 := s.regWrite (.port p .mode) (s.regRead (.port p .mode) ||| toField mode 2 n)
  let s2 := s1.regWrite (.port p .otype) (s1.regRead (.port p .otype) ||| toField otype 1 n)
  let s3 := s2.regWrite (.port p .ospeed) (s2.regRead (.port p .ospeed) ||| toField speed 2 n)
  s3.regWrite (.port p .pull) (s3.regRead (.port p .pull) ||| toField pull 2 n)

theorem run_cfg {mode : BitVec 3} {otype : BitVec 2} {speed pull : BitVec 3} (hq : s.quiet 7) :
    runAccesses (cfgAccesses p n mode otype speed pull) (s.at 0 s.cur) =
      (cfgState s p n mode otype speed pull).at 8 { s.cur with cp := s.cur.cp + 1, flight := InFlight.fresh } := by
  simp only [cfgAccesses, List.append_assoc]
  rw [run_rmwOr_next (by simp [rmwOr]) (quiet_mono hq (by omega)),
    run_rmwOr_next (by simp [rmwOr]) (by rw [quiet_of_plan (s := s) (by simp)]; exact quiet_mono hq (by omega)),
    run_rmwOr_next (by simp [rmwOr]) (by rw [quiet_of_plan (s := s) (by simp)]; exact quiet_mono hq (by omega)),
    run_rmwOr_last (by rw [quiet_of_plan (s := s) (by simp)]; exact quiet_mono hq (by omega))]
  rfl

theorem run_wrp {b : Bool} (hq : s.quiet 1) :
    runAccesses (wrpAccesses p n b) (s.at 0 s.cur) =
      (s.regWrite (.port p .odr) (if b then s.regRead (.port p .odr) ||| pinMask n
        else s.regRead (.port p .odr) &&& ~~~pinMask n)).at 2
        { s.cur with cp := s.cur.cp + 1, flight := InFlight.fresh } := by
  cases b with
  | true => simp only [wrpAccesses, if_true]; rw [run_rmwOr_last hq]
  | false => simp only [wrpAccesses]; rw [if_neg (by simp), if_neg (by simp), run_rmwAndn_last hq]

theorem run_tgl (hq : s.quiet 2) :
    runAccesses (tglAccesses p n) (s.at 0 s.cur) =
      (s.regWrite (.port p .odr) (if bitOf (s.regRead (.port p .idr)) n then s.regRead (.port p .odr) &&& ~~~pinMask n
        else s.regRead (.port p .odr) ||| pinMask n)).at 3
        { s.cur with cp := s.cur.cp + 1, flight := InFlight.fresh } := by
  rw [tglAccesses, run_next (by simp) (quiet_mono hq (by omega)), run_next (by simp) (by simpa [Access.effect] using hq),
    run_last]
  rfl

theorem run_ien {u : VectorId} (hq : s.quiet 2) :
    runAccesses (ienAccesses n u) (s.at 0 s.cur) =
      ((s.regWrite (.exti .imr) (s.regRead (.exti .imr) ||| pinMask n)).enableVector u).at 3
        { s.cur with cp := s.cur.cp + 1, flight := InFlight.fresh } := by
  rw [ienAccesses, run_rmwOr_next (by simp) hq, run_last]; rfl

/-- `ICLR` of a set flag (R162). -/
theorem run_iclr_set (h : bitOf (s.regRead (.exti .pr)) n = true) (hq : s.quiet 1) :
    runAccesses (iclrAccesses n) (s.at 0 s.cur) =
      (s.regWrite (.exti .pr) (pinMask n)).at 2 { s.cur with cp := s.cur.cp + 1, flight := InFlight.fresh } := by
  rw [iclrAccesses, runAccesses_next, perform_at, run_last]
  · rfl
  · rw [perform_at]; simp [Access.endsCommand, Access.flight, InFlight.advance, h]
  · rw [perform_at, due_at]; simpa [Access.effect] using hq

/-- `ICLR` of a clear flag (R162). -/
theorem run_iclr_clear (h : bitOf (s.regRead (.exti .pr)) n = false) :
    runAccesses (iclrAccesses n) (s.at 0 s.cur) = s.at 1 { s.cur with cp := s.cur.cp + 1, flight := InFlight.fresh } := by
  rw [iclrAccesses, runAccesses, if_pos, perform_at, complete_at]
  · rfl
  · rw [perform_at]; simp [Access.endsCommand, Access.flight, InFlight.advance, h]

theorem exec_iedg {n : Line} {e : EdgeSel} (hf : s.fresh) :
    exec (.iedg n e) s = .next (runAccesses (iedgAccesses n e) (s.at 0 s.cur)) := by
  simp only [exec, execIedg]; rw [guardPin_ok (by omega), runCommand_fresh hf]

theorem exec_ien {n : Line} {u : VectorId} (hf : s.fresh) :
    exec (.ien n u) s = .next (runAccesses (ienAccesses n u) (s.at 0 s.cur)) := by
  simp only [exec, execIen]; rw [guardPin_ok (by omega), runCommand_fresh hf]

theorem exec_iclr {n : Line} (hf : s.fresh) :
    exec (.iclr n) s = .next (runAccesses (iclrAccesses n) (s.at 0 s.cur)) := by
  simp only [exec, execIclr]; rw [guardPin_ok (by omega), runCommand_fresh hf]

theorem odr_or (hn : n ≤ 15) :
    (x.regRead (.port p .odr) ||| pinMask n) &&& lowHalf = x.regRead (.port p .odr) ||| pinMask n :=
  (highClear_iff _).1 (highClear_or ((highClear_iff _).2 (regRead_and_lowHalf rfl (by simp))) (highClear_pinMask hn))

theorem odr_andn : (x.regRead (.port p .odr) &&& ~~~pinMask n) &&& lowHalf = x.regRead (.port p .odr) &&& ~~~pinMask n :=
  and_lowHalf_of_highClear _ _ ((highClear_iff _).2 (regRead_and_lowHalf rfl (by simp)))

theorem exti_or {r : ExtiReg} (hn : n ≤ 15) :
    (x.regRead (.exti r) ||| pinMask n) &&& lowHalf = x.regRead (.exti r) ||| pinMask n :=
  (highClear_iff _).1 (highClear_or (highClear_and _) (highClear_pinMask hn))

/-- The running context after a completed command. -/
theorem cur_completed {res : Option Bool} {t : State} (h : Completed res s t) :
    t.cur = { s.cur with cp := s.cur.cp + 1, flight := InFlight.fresh, res := res } := by
  rw [cur_congr (s.setCur { s.cur with cp := s.cur.cp + 1, flight := InFlight.fresh, res := res }) t h.1 h.2.1, cur_setCur]

/-! ### exec and step as equations -/

/-- A command that does not read an absent pin is the run of its listed accesses. -/
theorem exec_listed {i : Instr} (hi : i.pin ≤ 15) (h : ∀ port n, i = .rdp port n → (s.resolvePort port).isSome) :
    exec i s = .next (runCommand (listedAccesses i s) s) := by
  cases i with
  | rdp port n =>
    have := h port n rfl
    simp only [exec, execRdp, guardPin_ok (show n ≤ 15 from hi), listedAccesses]
    cases hr : s.resolvePort port with
    | none => simp [hr] at this
    | some p => rfl
  | cfg port n m o sp pu af =>
    simp only [exec, execCfg, portCommand, guardPin_ok (show n ≤ 15 from hi), listedAccesses]; cases s.resolvePort port <;> rfl
  | wrp port n b =>
    simp only [exec, execWrp, portCommand, guardPin_ok (show n ≤ 15 from hi), listedAccesses]; cases s.resolvePort port <;> rfl
  | tgl port n =>
    simp only [exec, execTgl, portCommand, guardPin_ok (show n ≤ 15 from hi), listedAccesses]; cases s.resolvePort port <;> rfl
  | saf port n af =>
    simp only [exec, execSaf, portCommand, guardPin_ok (show n ≤ 15 from hi), listedAccesses]; cases s.resolvePort port <;> rfl
  | iedg n e => simp only [exec, execIedg, guardPin_ok (show n ≤ 15 from hi), listedAccesses]
  | ien n u => simp only [exec, execIen, guardPin_ok (show n ≤ 15 from hi), listedAccesses]
  | iclr n => simp only [exec, execIclr, guardPin_ok (show n ≤ 15 from hi), listedAccesses]

theorem resolve_some {port : PortSel} (h : s.resolvePort port = some p) :
    p < s.nports ∧ ∃ q : Fin 15, port = .index q ∧ q.val = p := by
  cases port with
  | null => simp [State.resolvePort] at h
  | index q =>
    simp only [State.resolvePort] at h
    split at h
    · simp at h; subst h; exact ⟨by assumption, q, rfl, rfl⟩
    · simp at h

theorem step_of_due {e : Event} {rest : List (Nat × Event)} (h : s.plan = (0, e) :: rest) :
    step s = .next (e.apply { s with plan := s.planAfter rest }) := by simp [step, h]

theorem step_not_due (hd : s.eventDue = false) : step s = if s.cur.finished then .next s.afterLast else
      match decode s.fetch with
      | .command i => exec i s
      | .invalid _ => .refused .invalidCommand := by
  unfold step
  split
  · next e rest hp => simp [State.eventDue, hp] at hd
  · rfl

theorem step_finished_main (ha : s.active = none) (hm : s.main.prog.length ≤ s.main.cp) (hd : s.eventDue = false) :
    step s = .next s.afterLast := by
  rw [step_not_due hd, if_pos]
  simpa [Ctx.finished, State.cur, ha] using hm

/-! ### What the accesses of a command do to the requester and the platform -/

theorem perform_platform (a : Access) (s : State) :
    (a.perform s).config = s.config ∧ (a.perform s).nports = s.nports ∧ (a.perform s).draws = s.draws ∧
    (a.perform s).cycle = s.cycle ∧
    (∀ q, ((a.perform s).port q).clken = (s.port q).clken ∧ ((a.perform s).port q).pad = (s.port q).pad) := by
  cases a <;> simp [Access.perform, State.setFlight, State.setRes]; simp [State.nports, State.port]

theorem perform_cur (a : Access) (s : State) :
    (a.perform s).cur.flight.done = s.cur.flight.done + 1 ∧ (a.perform s).cur.cp = s.cur.cp ∧
    (a.perform s).cur.prog = s.cur.prog ∧ (a.perform s).plan = s.plan := by
  cases a <;> simp [Access.perform, State.setFlight, State.setRes, InFlight.advance]
  exact ⟨rfl, rfl⟩

/-- A run of accesses is accesses and moves, then at most one completion. -/
theorem runAccesses_split (R : State → Prop) (as : List Access) (hp : ∀ a ∈ as, ∀ s, R s → R (a.perform s))
    (ht : ∀ s, R s → R s.tick) (s : State) (h : R s) : ∃ y, R y ∧ (runAccesses as s = y ∨ runAccesses as s = y.complete) := by
  induction as generalizing s with
  | nil => exact ⟨s.tick, ht _ h, .inr rfl⟩
  | cons a rest ih =>
    have h1 : R (a.perform s).tick := ht _ (hp a (by simp) _ h)
    rw [runAccesses]
    split
    · exact ⟨_, h1, .inr rfl⟩
    · split
      · exact ⟨_, h1, .inl rfl⟩
      · exact ih (fun b hb => hp b (by simp [hb])) _ h1

theorem runCommand_split (R : State → Prop) (as : List Access) (hp : ∀ a ∈ as, ∀ s, R s → R (a.perform s))
    (ht : ∀ s, R s → R s.tick) (s : State) (h : R s) : ∃ y, R y ∧ (runCommand as s = y ∨ runCommand as s = y.complete) :=
  runAccesses_split R _ (fun a ha => hp a (List.mem_of_mem_drop ha)) ht s h

/-- What listed accesses, moves and latch writes keep, a command keeps up to its one completion. -/
theorem exec_split (R : State → Prop) {i : Instr} {s t : State} (hp : ∀ a ∈ listedAccesses i s, ∀ x, R x → R (a.perform x))
    (ht : ∀ x, R x → R x.tick) (hr : ∀ x b, R x → R (x.setRes b)) (h : exec i s = .next t) (hs : R s) :
    ∃ y, R y ∧ (t = y ∨ t = y.complete) := by
  obtain ⟨_, rfl | ⟨_, _, _, _, rfl⟩⟩ := exec_next h
  · exact runCommand_split R _ hp ht s hs
  · exact runCommand_split R [] (by simp) ht _ (hr _ false hs)

/-- The accesses that write no register. -/
def Access.reads : Access → Bool
  | .read _ => true
  | .sample _ _ => true
  | .latch _ _ => true
  | .test _ _ => true
  | .writeOr _ _ => false
  | .writeAndn _ _ => false
  | .writeOpposite _ _ => false
  | .write _ _ => false
  | .enableVector _ => false

/-- Registers and parameters are the same. -/
def SameRegs (s y : State) : Prop := y.ports = s.ports ∧ y.exti = s.exti ∧ y.config = s.config

/-- Reads followed by one last access: either that access is not reached and no register changes, or it is made from a state with
the registers as they were. -/
theorem run_reads_last (as : List Access) (w : Access) (hreads : ∀ a ∈ as, a.reads = true) (s : State) :
    SameRegs s (runAccesses (as ++ [w]) s) ∨
      ∃ y, SameRegs s y ∧ runAccesses (as ++ [w]) s = (w.perform y).tick.complete := by
  induction as generalizing s with
  | nil => right; exact ⟨s, ⟨rfl, rfl, rfl⟩, by rw [List.nil_append, runAccesses_last]⟩
  | cons a rest ih =>
    have h1 : SameRegs s (a.perform s).tick := by
      have := hreads a (by simp)
      cases a <;> simp [Access.reads] at this <;> simp [SameRegs, Access.perform, State.setFlight, State.setRes]
    rw [List.cons_append, runAccesses]
    split
    · left; simpa [SameRegs, State.complete] using h1
    · split
      · left; exact h1
      · obtain h | ⟨y, hy, h⟩ := ih (fun a ha => hreads a (by simp [ha])) (a.perform s).tick
        · left; exact ⟨h.1.trans h1.1, h.2.1.trans h1.2.1, h.2.2.trans h1.2.2⟩
        · right; exact ⟨y, ⟨hy.1.trans h1.1, hy.2.1.trans h1.2.1, hy.2.2.trans h1.2.2⟩, h⟩

/-- Accesses that leave a register leave what it stores. -/
theorem runAccesses_stored (as : List Access) (r : Reg) (hp : ∀ a ∈ as, ∀ s, (a.perform s).stored r = s.stored r) (s : State) :
    (runAccesses as s).stored r = s.stored r := by
  refine runAccesses_induct (fun x => x.stored r = s.stored r) as (fun a ha x hx => (hp a ha x).trans hx) (fun x hx => ?_)
    (fun x hx => ?_) s rfl
  · rw [← hx]; cases r <;> rfl
  · rw [← hx]; cases r <;> simp [State.stored, State.complete]

/-- What a register stores after an access followed by accesses that leave it. -/
theorem runAccesses_cons_stored (a : Access) (rest : List Access) (r : Reg) (s : State)
    (hp : ∀ b ∈ rest, ∀ x, (b.perform x).stored r = x.stored r) :
    (runAccesses (a :: rest) s).stored r = (a.perform s).stored r := by
  have h1 : (a.perform s).tick.complete.stored r = (a.perform s).stored r := by cases r <;> simp [State.stored, State.complete]
  have h2 : (a.perform s).tick.stored r = (a.perform s).stored r := by cases r <;> rfl
  rw [runAccesses]
  split
  · exact h1
  · split
    · exact h2
    · rw [runAccesses_stored _ r hp, h2]

/-- A list of accesses that no test ends early pauses where the next event is due. -/
theorem runAccesses_pauses (as : List Access) (s : State) (d : Nat) (e : Event) (rest : List (Nat × Event))
    (hp : s.plan = (d, e) :: rest) (h0 : 0 < d) (hd : d < as.length)
    (hfirst : ∀ a, as.head? = some a → a.endsCommand (a.perform s).tick = false) (htail : ∀ a ∈ as.tail, ∀ r n, a ≠ .test r n) :
    (runAccesses as s).cur.flight.done = s.cur.flight.done + d ∧ (runAccesses as s).cur.cp = s.cur.cp ∧
      (runAccesses as s).cur.prog = s.cur.prog ∧ (runAccesses as s).plan = (0, e) :: rest ∧
      (runAccesses as s).config = s.config := by
  induction as generalizing s d with
  | nil => simp at hd
  | cons a as ih =>
    obtain ⟨c1, c2, c3, c4⟩ := perform_cur a s
    have c5 := (perform_platform a s).1
    have he := hfirst a rfl
    obtain ⟨b, bs, rfl⟩ := List.exists_cons_of_ne_nil (l := as) (by rintro rfl; simp at hd; omega)
    have hplan : (a.perform s).tick.plan = (d - 1, e) :: rest := by rw [tick_plan, c4, hp]; rfl
    by_cases h1 : d = 1
    · subst h1
      rw [runAccesses_pause he (by unfold State.eventDue; rw [hplan]; rfl)]
      exact ⟨by simpa using c1, by simpa using c2, by simpa using c3, hplan, by simpa using c5⟩
    · rw [runAccesses_next he (by
        obtain ⟨k, rfl⟩ : ∃ k, d = k + 2 := ⟨d - 2, by omega⟩
        unfold State.eventDue; rw [hplan]; rfl)]
      obtain ⟨h2, h3, h4, h5, h6⟩ := ih (a.perform s).tick (d - 1) hplan (by omega) (by simp at hd ⊢; omega)
        (fun x hx => by
          have := htail x (by simp at hx; simp [hx])
          cases x <;> simp [Access.endsCommand] at this ⊢)
        (fun c hc => htail c (by simp at hc ⊢; exact .inr hc))
      exact ⟨by rw [h2, tick_cur, c1]; omega, by rw [h3, tick_cur, c2], by rw [h4, tick_cur, c3], h5,
        by rw [h6, tick_config, c5]⟩

/-! ### Runs and progress -/

/-- One more step at the end of a run. -/
theorem run_succ {M : Host.Core} {k : Nat} {s t : M.State} (h : M.run k s = .next t) : M.run (k + 1) s = M.step t := by
  induction k generalizing s with
  | zero =>
    simp only [Host.Core.run, Host.Outcome.next.injEq] at h
    subst h
    simp only [Host.Core.run]
    cases M.step s <;> rfl
  | succ k ih =>
    rw [Host.Core.run] at h ⊢
    cases hs : M.step s <;> rw [hs] at h
    · exact ih h
    all_goals cases h

/-- One more step at the start of a run. -/
theorem run_cons {M : Host.Core} {k : Nat} {s t : M.State} (h : M.step s = .next t) : M.run (k + 1) s = M.run k t := by
  rw [Host.Core.run, h]

/-- A run of accesses completes the command or has done at least one access more. -/
theorem runAccesses_progress (as : List Access) (x : State) : (runAccesses as x).cur.prog = x.cur.prog ∧
    ((runAccesses as x).cur.cp = x.cur.cp + 1 ∨
      ((runAccesses as x).cur.cp = x.cur.cp ∧ x.cur.flight.done < (runAccesses as x).cur.flight.done ∧
        (runAccesses as x).cur.flight.done < x.cur.flight.done + as.length)) := by
  induction as generalizing x with
  | nil => simp [runAccesses]
  | cons a rest ih =>
    obtain ⟨c1, c2, c3, c4⟩ := perform_cur a x
    rw [runAccesses]
    split
    · simp [c2, c3]
    · next hc =>
      have hl : 0 < rest.length := List.length_pos_of_ne_nil (by rintro rfl; simp at hc)
      split
      · simp [c1, c2, c3, hl]
      · obtain ⟨h1, h2⟩ := ih (a.perform x).tick
        simp only [tick_cur, c1, c2, c3, List.length_cons] at h1 h2 ⊢
        exact ⟨h1, h2.imp id fun h => ⟨h.1, by omega, by omega⟩⟩

/-- The steps of the other agents touch neither the mainline nor the plan and its cycle. -/
theorem apply_main (e : Event) (s : State) :
    (e.apply s).main = s.main ∧ (e.apply s).plan = s.plan ∧ (e.apply s).cycle = s.cycle := by
  cases e with
  | dispatch v => simp only [Event.apply]; split <;> exact ⟨rfl, rfl, rfl⟩
  | padDrive p n b => exact ⟨rfl, rfl, rfl⟩
  | forcePending n => exact ⟨rfl, rfl, rfl⟩
  | clockOn p => exact ⟨rfl, rfl, rfl⟩

/-! ### The plan does not matter to an access -/

/-- The state with another plan. -/
def State.withPlan (s : State) (l : List (Nat × Event)) : State := { s with plan := l }

theorem withPlan_setCur (s : State) (l : List (Nat × Event)) (c : Ctx) : (s.withPlan l).setCur c = (s.setCur c).withPlan l := by
  cases h : s.active <;> simp [State.withPlan, State.setCur, h]

theorem withPlan_perform (a : Access) (s : State) (l : List (Nat × Event)) :
    a.perform (s.withPlan l) = (a.perform s).withPlan l := by
  have hc : ∀ x : State, (x.withPlan l).cur = x.cur := fun _ => rfl
  have hr : ∀ r, (s.withPlan l).regRead r = s.regRead r := fun r => regRead_congr _ _ rfl rfl rfl r
  have hw : ∀ r v, (s.withPlan l).regWrite r v = (s.regWrite r v).withPlan l := fun r v => withPlan_regWrite s l r v
  have he : ∀ v, (s.withPlan l).enableVector v = (s.enableVector v).withPlan l := fun _ => rfl
  cases a <;> simp [Access.perform, State.setFlight, State.setRes, hc, hr, hw, he, withPlan_setCur]

theorem withPlan_tick (s : State) (l : List (Nat × Event)) : (s.withPlan l).tick = s.withPlan (ticks 1 l) := by
  simp [State.withPlan, State.tick]; cases l <;> rfl

theorem withPlan_complete (s : State) (l : List (Nat × Event)) : (s.withPlan l).complete = s.complete.withPlan l := by
  simp only [State.complete, withPlan_setCur]; rfl

theorem withPlan_endsCommand (a : Access) (s : State) (l : List (Nat × Event)) :
    a.endsCommand (s.withPlan l) = a.endsCommand s := by cases a <;> rfl

/-! ### Frames -/

theorem SameBut.mono {l l' : List Reg} {s t : State} (h : SameBut l s t) (hl : l ⊆ l') : SameBut l' s t :=
  ⟨h.1, h.2.1, fun r hr => h.2.2 r (fun hh => hr (hl hh))⟩

theorem SameBut.setCur {l : List Reg} (h : SameBut l s x) (c : Ctx) : SameBut l s (x.setCur c) :=
  ⟨⟨by simpa using h.1.1, fun p => by simpa using h.1.2 p⟩, by simpa using h.2.1, fun r hr => by
    rw [← h.2.2 r hr]; cases r <;> simp [State.stored]⟩

/-- A write of `ODR` keeps a frame that has the register and the pending flags in its list, gated or not. -/
theorem SameBut.regWrite_odr {l : List Reg} (h : SameBut l s x) (hp : p < s.nports) (hl : [.port p .odr, .exti .pr] ⊆ l) :
    SameBut l s (x.regWrite (.port p .odr) v) := by
  cases hc : (x.port p).clken
  · rw [regWrite_gated hc]; exact h
  · have hp' : p < x.nports := by rw [h.1.1]; exact hp
    refine ⟨h.1.trans (samePlatform_regWrite _ _ _), by simpa using h.2.1, fun r hr => ?_⟩
    rw [(sameBut_regWrite_odr hp' hc).2.2 r (fun hh => hr (hl hh)), h.2.2 r hr]

theorem reservedClear_congr {x y : State} (h : ReservedClear x) (hp : y.ports = x.ports) (he : y.exti = x.exti) :
    ReservedClear y := by
  unfold ReservedClear at *; rw [hp, he]; exact h

/-- A register write keeps the reserved bits zero. -/
theorem reservedClear_regWrite {x : State} (h : ReservedClear x) (r : Reg) (v : Word) : ReservedClear (x.regWrite r v) := by
  obtain ⟨hp, h1, h2, h3, h4⟩ := h
  have hports : ∀ (p : Nat) (r : PortReg), ∀ q ∈ x.ports.modify p (fun q => { q with regs := q.regs.set v r }),
      HighClear q.regs.otype ∧ HighClear q.regs.odr := by
    intro p r q hq
    rw [List.mem_iff_getElem] at hq
    obtain ⟨j, hj, rfl⟩ := hq
    rw [List.getElem_modify]
    have hb := hp (x.ports[j]'(by simpa using hj)) (List.getElem_mem _)
    split
    · cases r <;> simp only [PortRegs.set] <;>
        first | exact hb | exact ⟨highClear_and _, hb.2⟩ | exact ⟨hb.1, highClear_and _⟩
    · exact hb
  cases r with
  | exti r =>
    cases r
    · exact ⟨hp, highClear_and _, h2, h3, h4⟩
    · exact ⟨hp, h1, highClear_and _, h3, h4⟩
    · exact ⟨hp, h1, h2, highClear_and _, h4⟩
    · exact ⟨hp, h1, h2, h3, highClear_and_left _ h4⟩
  | port p r =>
    simp only [State.regWrite]
    split
    · cases r
      case odr => exact ⟨hports p .odr, h1, h2, h3, highClear_or h4 (highClear_ofPins _)⟩
      all_goals exact ⟨hports p _, h1, h2, h3, h4⟩
    · exact ⟨hp, h1, h2, h3, h4⟩

/-! ### Requests and dispatch -/

theorem mem_vectorsUp (s : State) (v : VectorId) : v ∈ s.vectorsUp ↔
    ∃ n : Line, s.config.vecOf[n] = v ∧ s.exti.pr.getLsbD n = true ∧ s.exti.imr.getLsbD n = true ∧ s.ven.getLsbD v = true := by
  simp only [State.vectorsUp, List.mem_dedup, List.mem_map, List.mem_filter, List.mem_finRange, true_and, State.deliverable,
    State.requests, State.vectorEnabled, bitOf, Bool.and_eq_true]
  constructor
  · rintro ⟨n, ⟨⟨a, b⟩, c⟩, rfl⟩; exact ⟨n, rfl, a, b, c⟩
  · rintro ⟨n, rfl, a, b, c⟩; exact ⟨n, ⟨⟨a, b⟩, c⟩, rfl⟩

theorem isrOf_eq (c : Config) (v : VectorId) : isrOf c v = ((c.isr.find? fun e => e.1 = v).map Prod.snd).getD [] := by
  unfold isrOf
  split
  · next h => rw [h]; rfl
  · next h => rw [h]; rfl

/-- The choice is one of the vectors, whatever the free value (log entry 7). -/
theorem chooseVector_mem (s : State) (v : VectorId) (vs : List VectorId) : s.chooseVector v vs ∈ v :: vs := by
  unfold State.chooseVector
  split
  · simp
  have h : Config.vectorChoice s.draws % (v :: vs).length < (v :: vs).length := Nat.mod_lt _ (by simp)
  rw [List.getD_eq_getElem _ _ h]
  exact List.getElem_mem h

end Sys2Proof.Machine
end

