-- ==== Sys2Proof/Tests/Slice0.lean ====
section
/-! SUPPORT. Tests by hand: expected values are the vectors of 95_test_vectors.md; and a witness for the hypotheses of each obligation. -/

namespace Sys2Proof.Tests

open Sys2Proof Sys2Proof.Machine

/-! ### Helpers -/

/-- The state after a taken step. -/
def taken (r : Result) : Option State :=
  match r with
  | .next t => some t
  | .fault _ => none
  | .refused _ => none

/-- The refusal a step ends in. -/
def refusal (r : Result) : Option Refusal :=
  match r with
  | .next _ => none
  | .fault _ => none
  | .refused why => some why

/-- One view of the state after a command. -/
def after {α : Type} (i : Instr) (s : State) (f : State → α) : Option α := (taken (exec i s)).map f

/-- Port `p` with its clock on and the given registers and pads. -/
def put (p : Nat) (regs : PortRegs) (pad : PinBits) (s : State) : State := s.modifyPort p fun _ => ⟨regs, true, pad⟩

def zero : PortRegs := PortRegs.zero

/-- The start of 95_test_vectors.md: reset, the clocks of A, B and D on. -/
def s0 : State := put 0 zero 0 (put 1 zero 0 (put 3 zero 0 State.reset))

/-- `LOOP(D, 12)` and `ODR[D]` as given. -/
def loopD (odr : Word) : State :=
  { put 3 { zero with odr := odr } 0 s0 with config := { Config.default with loop := [0, 0, 0, 0x1000] } }

def withExti (e : Exti) (s : State) : State := { s with exti := e }

def withFlight (d : Nat) (s : State) : State := s.setFlight ⟨d, 0, false⟩

def planned (l : List (Nat × Event)) (s : State) : State := { s with plan := l }

def withProg (prog : List Word) (s : State) : State := { s with main := Ctx.start prog }

/-- Vector 6 in service, at the start of the given list. -/
def serving (prog : List Word) (s : State) : State := { s with active := some ⟨6, Ctx.start prog⟩ }

/-- Line 0 requests vector 6, which is enabled. -/
def raised (s : State) : State := { s with exti := ⟨0, 1, 1, 1⟩, ven := BitVec.twoPow 256 6 }

def configRegs (p : Nat) (s : State) : List Word :=
  [s.stored (.port p .mode), s.stored (.port p .otype), s.stored (.port p .ospeed), s.stored (.port p .pull)]

def altRegs (p : Nat) (s : State) : List Word := [s.stored (.port p .afl), s.stored (.port p .afh)]

/-! ### Well-formedness: each check refuses an ill-formed term -/

theorem test_wf_pin_too_wide_cfg : (Instr.cfg .null 256 0 0 0 0 0).wellFormed = false := by decide
theorem test_wf_pin_too_wide_rdp : (Instr.rdp .null 256).wellFormed = false := by decide
theorem test_wf_pin_too_wide_wrp : (Instr.wrp .null 256 true).wellFormed = false := by decide
theorem test_wf_pin_too_wide_tgl : (Instr.tgl .null 256).wellFormed = false := by decide
theorem test_wf_pin_too_wide_saf : (Instr.saf .null 256 0).wellFormed = false := by decide
theorem test_wf_pin_too_wide_iedg : (Instr.iedg 256 .both).wellFormed = false := by decide
theorem test_wf_pin_too_wide_ien : (Instr.ien 256 0).wellFormed = false := by decide
theorem test_wf_pin_too_wide_iclr : (Instr.iclr 256).wellFormed = false := by decide
theorem test_wf_edge_code_too_small : (Instr.iedg 0 (.unrecognised 3)).wellFormed = false := by decide
theorem test_wf_edge_code_too_big : (Instr.iedg 0 (.unrecognised 16)).wellFormed = false := by decide
theorem test_wf_accepts : (Instr.iedg 255 (.unrecognised 15)).wellFormed = true := by decide

/-! ### Decoding (section 2.5 and the words of sections 2.1 to 2.4) -/

theorem test_decode_cfg : decode 0x130C0021 = .command (.cfg (.index 3) 12 1 0 1 0 0) := by decide
theorem test_decode_cfg_null : decode 0x1F04026A = .command (.cfg .null 4 2 1 3 2 0) := by decide
theorem test_decode_cfg_fields : decode 0x100F394A = .command (.cfg (.index 0) 15 2 1 2 1 7) := by decide
theorem test_decode_rdp : decode 0x230C0000 = .command (.rdp (.index 3) 12) := by decide
theorem test_decode_wrp : decode 0x30C80001 = .command (.wrp (.index 0) 200 true) := by decide
theorem test_decode_tgl : decode 0x430C0000 = .command (.tgl (.index 3) 12) := by decide
theorem test_decode_saf : decode 0x5009000A = .command (.saf (.index 0) 9 10) := by decide
theorem test_decode_iedg : decode 0x60050009 = .command (.iedg 5 (.unrecognised 9)) := by decide
theorem test_decode_ien : decode 0x700D0028 = .command (.ien 13 40) := by decide
theorem test_decode_iclr : decode 0x80020000 = .command (.iclr 2) := by decide

theorem test_decode_invalid :
    decode 0x00000000 = .invalid .reservedOpcode ∧ decode 0x90000000 = .invalid .reservedOpcode ∧
    decode 0xF0000000 = .invalid .reservedOpcode ∧ decode 0x130C8021 = .invalid .mustBeZero ∧
    decode 0x230C0001 = .invalid .mustBeZero ∧ decode 0x330C0002 = .invalid .mustBeZero ∧
    decode 0x50070010 = .invalid .mustBeZero ∧ decode 0x61000002 = .invalid .mustBeZero ∧
    decode 0x70000106 = .invalid .mustBeZero ∧ decode 0x80000001 = .invalid .mustBeZero := by decide

theorem test_encode_words :
    encode (.cfg (.index 0) 7 0 0 6 7 0) = 0x100707C0 ∧ encode (.wrp (.index 3) 0 false) = 0x33000000 ∧
    encode (.saf .null 3 7) = 0x5F030007 ∧ encode (.iedg 0 .falling) = 0x60000002 := by decide

theorem test_text : (Instr.cfg (.index 3) 12 1 0 1 0 0).text 2 = "CFG D, 12, OUT, PP, MED, NONE, 0" := by decide

/-! ### Commands, one step each -/

/-- V2 -/
theorem test_cfg_two_bit_fields :
    after (.cfg (.index 0) 0 3 1 3 2 0) s0 (configRegs 0) = some [0x00000003, 0x00000001, 0x00000003, 0x00000002] := by decide

/-- V11: invalid speed 6 and pull 7 at pin 7 spill into pin 8. -/
theorem test_cfg_spill : after (.cfg (.index 0) 7 0 0 6 7 0) s0 (configRegs 0) = some [0, 0, 0x00018000, 0x0001C000] := by decide

/-- V24: the second register, 5 OR 10. -/
theorem test_saf_or :
    after (.saf (.index 0) 9 10) (put 0 { zero with afh := 0x00000050 } 0 s0) (altRegs 0) = some [0, 0x000000F0] := by decide

/-- V21: pin 7 is the top nibble of the first register. -/
theorem test_saf_pin_seven : after (.saf (.index 0) 7 15) s0 (altRegs 0) = some [0xF0000000, 0] := by decide

/-- V35: the pad of an unlooped pin. -/
theorem test_rdp_pad : after (.rdp (.index 3) 11) (put 3 zero 0x0800 s0) (fun t => t.main.res) = some (some true) := by decide

/-- V36: a gated port reads as zero. -/
theorem test_rdp_gated :
    after (.rdp (.index 0) 2) (State.reset.modifyPort 0 fun q => { q with pad := 4 }) (fun t => t.main.res) = some (some false) := by
  decide

/-- V31 -/
theorem test_wrp_clears :
    after (.wrp (.index 3) 0 false) (loopD 0x00001003) (fun t => t.stored (.port 3 .odr)) = some 0x00001002 := by decide

/-- V65: a write to a looped source pin latches its own edge. -/
theorem test_wrp_latches_edge :
    after (.wrp (.index 0) 0 true) { s0 with config := { Config.default with loop := [1] }, exti := ⟨1, 0, 1, 0⟩ }
      (fun t => (t.stored (.port 0 .odr), t.exti.pr)) = some (1, 1) := by decide

/-- V38 -/
theorem test_tgl_looped :
    after (.tgl (.index 3) 12) (loopD 0x00009002) (fun t => t.stored (.port 3 .odr)) = some 0x00008002 := by decide

/-- S4, corner case (a): the input level decides, not the output bit; RES is not written. -/
theorem test_tgl_unlooped :
    after (.tgl (.index 0) 2) (put 0 { zero with odr := 4 } 4 s0) (fun t => (t.stored (.port 0 .odr), t.main.res)) =
      some (0, none) := by decide

/-- V51 -/
theorem test_iedg_both :
    after (.iedg 5 .both) (withExti ⟨0, 1, 0, 0⟩ s0) State.exti = some ⟨0x00000020, 0x00000021, 0, 0⟩ := by decide

/-- V52 -/
theorem test_iedg_unrecognised :
    after (.iedg 5 (.unrecognised 9)) (withExti ⟨0x20, 0x21, 0, 0⟩ s0) State.exti = some ⟨0x20, 0x21, 0, 0⟩ := by decide

/-- V56 -/
theorem test_ien :
    after (.ien 13 40) { s0 with exti := ⟨0, 0, 1, 0⟩, ven := BitVec.twoPow 256 6 }
      (fun t => (t.exti.imr, t.vectorEnabled 6, t.vectorEnabled 40, t.vectorEnabled 7)) = some (0x00002001, true, true, false) := by
  decide

/-- Table R61: vector 40 is bit 8 of the second word, and port D's clock is bit 3. -/
theorem test_platform_bits :
    ({ s0 with ven := BitVec.twoPow 256 40 }.memRead 0xE000E104 4, s0.memRead 0x40023830 4, s0.memRead 0x40023830 2) =
      (some 0x00000100, some 0x0000000B, none) := by decide +kernel

/-- The three accesses of V55: two moves in, the mask is written and the vector not yet enabled (R161). -/
theorem test_ien_order :
    after (.ien 0 6) (planned [(2, .clockOn 2)] s0) (fun t => (t.exti.imr, t.vectorEnabled 6, t.main.flight.done)) =
      some (1, false, 2) := by decide

/-- V57: the other flag stays. -/
theorem test_iclr_set : after (.iclr 0) (withExti ⟨0, 0, 0, 5⟩ s0) (fun t => t.exti.pr) = some 4 := by decide

/-- V58: one access only, so an event one move away is due after it. -/
theorem test_iclr_clear :
    after (.iclr 0) (planned [(2, .clockOn 2)] (withExti ⟨0, 0, 0, 4⟩ s0)) (fun t => (t.exti.pr, t.plan)) =
      some (4, [(1, .clockOn 2)]) := by decide

/-! ### The step -/

/-- V60 and V61: an edge in the direction that is not armed, and in the one that is. -/
theorem test_pad_rising_not_armed :
    (taken (step (planned [(0, .padDrive 0 0 true)] (withExti ⟨0, 1, 1, 0⟩ s0)))).map (fun t => t.exti.pr) = some 0 := by decide

theorem test_pad_falling_armed :
    (taken (step (planned [(0, .padDrive 0 0 false)] (withExti ⟨0, 1, 1, 0⟩ (put 0 zero 1 s0))))).map (fun t => t.exti.pr) =
      some 1 := by decide

/-- V66: port A is not the source of line 0. -/
theorem test_pad_other_port :
    (taken (step (planned [(0, .padDrive 0 0 true)]
      { s0 with config := { Config.default with src := Vector.replicate 16 1 }, exti := ⟨1, 0, 0, 0⟩ }))).map (fun t => t.exti.pr) =
      some 0 := by decide

/-- P4, middle row: the resumed `WRP A, 1, 1` writes the stale 0 back, and pin 0's write is lost. -/
theorem test_lost_update :
    after (.wrp (.index 0) 1 true) (withFlight 1 (put 0 { zero with odr := 1 } 0 s0)) (fun t => t.stored (.port 0 .odr)) =
      some 0x00000002 := by decide

/-- P2: with the mainline finished the one requested vector is taken, `RES` and the pointer fresh. -/
theorem test_forced_dispatch :
    (taken (step (raised s0))).map (fun t => t.active) = some (some ⟨6, ⟨[], 0, ⟨0, 0, false⟩, none⟩⟩) := by decide

/-- The cycle follows the plan, and leaves the machine at least one move a round. -/
theorem test_cycle :
    (taken (step { planned [(0, .clockOn 2)] s0 with cycle := [(4, .clockOn 4)] })).map State.plan = some [(4, .clockOn 4)] ∧
    (taken (step { planned [(0, .clockOn 2)] s0 with cycle := [(0, .clockOn 4)] })).map State.plan = some [(1, .clockOn 4)] := by
  decide

/-- The host's probe: the word of V55, first after reset. -/
theorem test_with_fetch_word :
    (taken (step (State.reset.withFetchWord 32 0x70000006))).map (fun t => (t.exti.imr, t.ven.getLsbD 6, t.main.cp)) =
      some (1, true, 1) := by decide

/-- V15 and V67: a pin operand above 15 is refused. -/
theorem test_pin_refused : refusal (step (State.reset.withFetchWord 32 0x80100000)) = some .pinOutOfRange := by decide

theorem test_invalid_refused : refusal (step (State.reset.withFetchWord 32 0x130C8021)) = some .invalidCommand := by decide

theorem test_reset : State.reset.plan = [] ∧ State.reset.active = none ∧ State.reset.nports = 9 := by decide

/-! ### Witnesses: the hypotheses of each obligation, met together -/

theorem witness_DecodeOfEncodeIsTheInstruction :
    (Instr.cfg .null 255 7 3 7 7 15).wellFormed = true ∧ (Instr.ien 0 255).wellFormed = true ∧
    (Instr.iedg 15 (.unrecognised 4)).wellFormed = true := by decide

theorem witness_EncodeOfDecodeIsTheWord : decode 0x5F0F000F = .command (.saf .null 15 15) := by decide

theorem witness_DecoderFollowsTheOpcodeTable :
    (∃ row ∈ opcodeTable, (0x80FF0000 : Word) &&& row.mask = row.matchWord) ∧
    (∀ row ∈ opcodeTable, (0x8F000000 : Word) &&& row.mask ≠ row.matchWord) := by decide

theorem witness_InvalidWordsAreRefused :
    ((withProg [0] s0).eventDue = false ∧ (withProg [0] s0).cur.cp < (withProg [0] s0).cur.prog.length ∧
      ∀ row ∈ opcodeTable, (withProg [0] s0).fetch &&& row.mask ≠ row.matchWord) ∧
    ((withProg [0x80000000] s0).eventDue = false ∧ (withProg [0x80000000] s0).cur.cp < (withProg [0x80000000] s0).cur.prog.length ∧
      ∃ row ∈ opcodeTable, (withProg [0x80000000] s0).fetch &&& row.mask = row.matchWord) := by decide

theorem witness_StepRunsTheDecodedCommand :
    (withProg [0x230C0000] s0).eventDue = false ∧ (withProg [0x230C0000] s0).cur.cp < (withProg [0x230C0000] s0).cur.prog.length ∧
    decode ((withProg [0x230C0000] s0).cur.prog.getD (withProg [0x230C0000] s0).cur.cp 0) = .command (.rdp (.index 3) 12) := by decide

theorem witness_PinAboveFifteenIsRefused : 16 ≤ (Instr.iclr 16).pin ∧ 16 ≤ (Instr.tgl .null 255).pin := by decide

theorem witness_PinUpToFifteenIsTaken : (Instr.iclr 15).pin ≤ 15 ∧ (Instr.tgl .null 0).pin ≤ 15 := by decide

/-- Ready, gated, and absent three ways: the null reference, the first port number not implemented, the last. -/
theorem witness_port_operands :
    s0.fresh ∧ s0.Ready 0 ∧ s0.Ready 3 ∧ s0.Gated 2 ∧ s0.Gated 8 ∧ s0.Absent .null ∧ s0.Absent (.index 9) ∧ s0.Absent (.index 14) :=
  ⟨rfl, ⟨by decide, rfl⟩, ⟨by decide, rfl⟩, ⟨by decide, rfl⟩, ⟨by decide, rfl⟩, trivial,
    show s0.nports ≤ 9 by decide, show s0.nports ≤ 14 by decide⟩

/-- Quiet with nothing planned, and with an event just behind the command. -/
theorem witness_quiet :
    s0.quiet 7 ∧ (planned [(8, .clockOn 2)] s0).quiet 7 ∧ ¬ (planned [(7, .clockOn 2)] s0).quiet 7 :=
  ⟨trivial, show 7 < 8 by decide, show ¬ 7 < 7 by decide⟩

theorem witness_ConfigurePinOrsFourFields :
    (planned [(8, .clockOn 2)] s0).fresh ∧ (planned [(8, .clockOn 2)] s0).quiet 7 ∧ (planned [(8, .clockOn 2)] s0).Ready 0 ∧
    (planned [(8, .clockOn 2)] s0).Gated 2 ∧ (planned [(8, .clockOn 2)] s0).Absent .null :=
  ⟨rfl, show 7 < 8 by decide, ⟨by decide, rfl⟩, ⟨by decide, rfl⟩, trivial⟩

theorem witness_SetAlternateFunctionOrsOneNibble :
    s0.fresh ∧ s0.quiet 1 ∧ s0.Ready 1 ∧ s0.Gated 2 ∧ s0.Absent .null ∧ (7 : Line).val ≤ 7 ∧ 8 ≤ (8 : Line).val ∧ 8 ≤ (15 : Line).val :=
  ⟨rfl, trivial, ⟨by decide, rfl⟩, ⟨by decide, rfl⟩, trivial, by decide, by decide, by decide⟩

theorem witness_ConfigurationFieldsAccumulate :
    s0.fresh ∧ s0.Ready 0 ∧ s0.quiet 7 ∧ (∃ t, exec (.cfg (.index 0) 15 7 3 7 7 0) s0 = .next t) ∧
    (∃ t, exec (.saf (.index 0) 8 15) s0 = .next t) :=
  ⟨rfl, ⟨by decide, rfl⟩, trivial, ⟨_, rfl⟩, ⟨_, rfl⟩⟩

theorem witness_OtherPinsArePreserved :
    s0.fresh ∧ s0.Ready 0 ∧ s0.quiet 7 ∧ (8 : Line) ≠ 7 ∧ ((3 : BitVec 3) ≤ 3 ∧ (1 : BitVec 2) ≤ 1) ∧
    (∃ t, exec (.cfg (.index 0) 7 3 1 3 3 0) s0 = .next t) ∧ (∃ t, exec (.saf (.index 0) 7 15) s0 = .next t) :=
  ⟨rfl, ⟨by decide, rfl⟩, trivial, by decide, by decide, ⟨_, rfl⟩, ⟨_, rfl⟩⟩

/-- A next pin exists up to pin 14; pin 15 has none, and has others that are not its neighbours. -/
theorem witness_InvalidEnumerantsSpillIntoTheNextPin :
    s0.fresh ∧ s0.quiet 7 ∧ s0.Ready 0 ∧ (15 : Line).val = (14 : Line).val + 1 ∧ (0 : Line).val ≠ (15 : Line).val ∧
    (0 : Line).val ≠ (15 : Line).val + 1 ∧ (∃ t, exec (.cfg (.index 0) 14 7 3 7 7 0) s0 = .next t) ∧
    (∃ t, exec (.cfg (.index 0) 15 7 3 7 7 0) s0 = .next t) :=
  ⟨rfl, trivial, ⟨by decide, rfl⟩, by decide, by decide, by decide, ⟨_, rfl⟩, ⟨_, rfl⟩⟩

theorem witness_ReadPinDeliversTheLevel : s0.fresh ∧ s0.Ready 3 ∧ s0.Gated 8 ∧ s0.Absent (.index 9) :=
  ⟨rfl, ⟨by decide, rfl⟩, ⟨by decide, rfl⟩, show s0.nports ≤ 9 by decide⟩

theorem witness_WritePinWritesExactlyThatBit : (loopD 1).fresh ∧ (loopD 1).quiet 1 ∧ (loopD 1).Ready 3 ∧ (loopD 1).Gated 2 ∧
    (loopD 1).Absent (.index 14) :=
  ⟨rfl, trivial, ⟨by decide, rfl⟩, ⟨by decide, rfl⟩, show (loopD 1).nports ≤ 14 by decide⟩

theorem witness_TogglePinWritesTheOppositeOfTheLevel : (loopD 1).fresh ∧ (loopD 1).quiet 2 ∧ (loopD 1).Ready 3 ∧
    (loopD 1).Gated 2 ∧ (loopD 1).Absent .null :=
  ⟨rfl, trivial, ⟨by decide, rfl⟩, ⟨by decide, rfl⟩, trivial⟩

theorem witness_WrittenPinIsReadBackWhenLooped :
    (loopD 0).fresh ∧ (loopD 0).quiet 1 ∧ (loopD 0).Ready 3 ∧ (∃ t, exec (.wrp (.index 3) 12 true) (loopD 0) = .next t) ∧
    ((loopD 0).config.loop.getD 3 0).getLsbD 12 = true ∧ ((loopD 0).config.loop.getD 3 0).getLsbD 11 = false :=
  ⟨rfl, trivial, ⟨by decide, rfl⟩, ⟨_, rfl⟩, by decide, by decide⟩

theorem witness_ToggleTwiceRestoresALoopedPin :
    (loopD 0x9002).fresh ∧ (loopD 0x9002).quiet 5 ∧ (loopD 0x9002).Ready 3 ∧
    ((loopD 0x9002).config.loop.getD 3 0).getLsbD 12 = true ∧ (∃ t, exec (.tgl (.index 3) 12) (loopD 0x9002) = .next t) :=
  ⟨rfl, trivial, ⟨by decide, rfl⟩, by decide, ⟨_, rfl⟩⟩

theorem witness_ConfigureEdgeArmsExactlyThatLine : s0.fresh ∧ s0.quiet 1 ∧ s0.quiet 3 := ⟨rfl, trivial, trivial⟩

theorem witness_EnableInterruptUnmasksAndEnables : s0.fresh ∧ s0.quiet 2 := ⟨rfl, trivial⟩

theorem witness_ClearPendingClearsExactlyThatFlag :
    (withExti ⟨0, 0, 0, 0x8001⟩ s0).fresh ∧ (withExti ⟨0, 0, 0, 0x8001⟩ s0).quiet 1 ∧
    (withExti ⟨0, 0, 0, 0x8001⟩ s0).exti.pr.getLsbD 15 = true ∧ (withExti ⟨0, 0, 0, 0x8001⟩ s0).exti.pr.getLsbD 14 = false :=
  ⟨rfl, trivial, by decide, by decide⟩

/-- Each reachable state of a line is some state's, and the three commands are taken there. -/
theorem witness_CommandsMoveTheLineStateMachine :
    s0.fresh ∧ s0.quiet 3 ∧ s0.lineState 0 = .disabled ∧ (withExti ⟨1, 0, 0, 0⟩ s0).lineState 0 = .armed ∧
    (withExti ⟨1, 0, 1, 0⟩ s0).lineState 0 = .enabled ∧ (withExti ⟨0, 1, 1, 1⟩ s0).lineState 0 = .triggered ∧
    (withExti ⟨0, 0, 1, 0⟩ s0).lineState 0 = .unmaskedUnarmed ∧ (withExti ⟨1, 0, 0, 1⟩ s0).lineState 0 = .latchedMasked ∧
    (∃ t, exec (.iedg 0 .both) s0 = .next t) ∧ (∃ t, exec (.ien 0 6) s0 = .next t) ∧ (∃ t, exec (.iclr 0) s0 = .next t) :=
  ⟨rfl, trivial, by decide, by decide, by decide, by decide, by decide, by decide, ⟨_, rfl⟩, ⟨_, rfl⟩, ⟨_, rfl⟩⟩

theorem witness_PortsAreIndependent :
    portOf (.wrp (.index 3) 12 true) = some (.index 3) ∧ 0 ≠ (3 : Fin 15).val ∧ (∃ t, exec (.wrp (.index 3) 12 true) (loopD 0) = .next t) :=
  ⟨rfl, by decide, ⟨_, rfl⟩⟩

theorem witness_DataCommandsLeaveTheRest :
    (∃ t, exec (.rdp (.index 0) 0) s0 = .next t) ∧ (∃ t, exec (.wrp (.index 0) 15 true) (withFlight 1 s0) = .next t) ∧
    (∃ t, exec (.tgl (.index 14) 15) s0 = .next t) := ⟨⟨_, rfl⟩, ⟨_, rfl⟩, ⟨_, rfl⟩⟩

/-- Fresh and paused commands of each row, boundary pins and ports, and an absent port. -/
theorem witness_CommandsWriteOnlyTheirRegisters :
    (∃ t, exec (.cfg (.index 0) 15 7 3 7 7 0) (withFlight 5 s0) = .next t) ∧ (∃ t, exec (.saf (.index 0) 7 15) s0 = .next t) ∧
    (∃ t, exec (.saf (.index 0) 8 15) (withFlight 1 s0) = .next t) ∧ (7 : Line).val ≤ 7 ∧ 8 ≤ (8 : Line).val ∧
    (∃ t, exec (.iedg 15 .rising) (withFlight 1 s0) = .next t) ∧ (∃ t, exec (.iedg 0 .falling) s0 = .next t) ∧
    (∃ t, exec (.iedg 15 .both) (withFlight 2 s0) = .next t) ∧ (∃ t, exec (.iedg 0 .neither) s0 = .next t) ∧
    (∃ t, exec (.iedg 0 (.unrecognised 15)) s0 = .next t) ∧ (∃ t, exec (.ien 15 255) (withFlight 2 s0) = .next t) ∧
    (0 : VectorId) ≠ 255 ∧ (∃ t, exec (.iclr 15) s0 = .next t) ∧ (0 : Line) ≠ 15 ∧
    portOf (.tgl (.index 14) 15) = some (.index 14) ∧ s0.Absent (.index 14) ∧ (∃ t, exec (.tgl (.index 14) 15) s0 = .next t) :=
  ⟨⟨_, rfl⟩, ⟨_, rfl⟩, ⟨_, rfl⟩, by decide, by decide, ⟨_, rfl⟩, ⟨_, rfl⟩, ⟨_, rfl⟩, ⟨_, rfl⟩, ⟨_, rfl⟩, ⟨_, rfl⟩, by decide, ⟨_, rfl⟩,
    by decide, rfl, show s0.nports ≤ 14 by decide, ⟨_, rfl⟩⟩

theorem witness_LineCommandsAreBlindToPorts : portOf (.iedg 15 .both) = none ∧ (∃ t, exec (.iedg 15 .both) s0 = .next t) :=
  ⟨rfl, ⟨_, rfl⟩⟩

theorem witness_UninterruptedCommandsClearNoConfigurationBit :
    (planned [(8, .clockOn 2)] s0).fresh ∧
    (planned [(8, .clockOn 2)] s0).quiet (accessCount (.cfg (.index 0) 3 1 0 2 1 0) (planned [(8, .clockOn 2)] s0) - 1) ∧
    (∃ t, exec (.cfg (.index 0) 3 1 0 2 1 0) (planned [(8, .clockOn 2)] s0) = .next t) :=
  ⟨rfl, show 8 - 1 < 8 by decide, ⟨_, rfl⟩⟩

theorem witness_ReservedBitsReadAsZero : 16 ≤ 16 ∧ 16 ≤ 31 := by decide

theorem witness_GatedPortReadsZeroAndIgnoresWrites : (s0.port 2).clken = false := by decide

theorem defaultMap_wf : AddrMap.default.wf 15 ∧ AddrMap.default.wf 9 ∧ AddrMap.default.wf 1 := by decide +kernel

theorem witness_AddressMapIsInjective : 0 ≤ 15 ∧ 15 ≤ 15 ∧ AddrMap.default.wf 15 ∧ BusReg.block (.port 14 .afh) ∈ BusReg.all 15 ∧
    BusReg.block (.exti .pr) ∈ BusReg.all 15 ∧ BusReg.plat .clockControl ∈ BusReg.all 15 ∧
    BusReg.plat (.vectorEnable 7) ∈ BusReg.all 15 ∧ 2 ≠ 4 :=
  ⟨by decide, by decide, defaultMap_wf.1, by decide, by decide, by decide, by decide, by decide⟩

theorem witness_AddressedAccessReachesTheRegister :
    s0.config.addr.wf s0.nports ∧ Reg.port 8 .afh ∈ Reg.all s0.nports ∧ Reg.exti .pr ∈ Reg.all s0.nports :=
  ⟨defaultMap_wf.2.1, by decide, by decide⟩

/-- The first and the last vector and port. -/
theorem witness_PlatformBitsOnTheBus :
    (0 : Fin 8).val = (31 : VectorId).val / 32 ∧ (1 : Fin 8).val = (32 : VectorId).val / 32 ∧ (7 : Fin 8).val = (255 : VectorId).val / 32 ∧
    (8 : Fin 15).val < s0.nports := by decide

theorem witness_ClockOnSetsOnlyThatEnable :
    (planned [(0, .clockOn 8)] s0).plan = (0, .clockOn 8) :: [] ∧ 8 < (planned [(0, .clockOn 8)] s0).nports := by decide

theorem witness_PadDriveLatchesArmedEdges :
    (planned [(0, .padDrive 8 15 true)] s0).plan = (0, .padDrive 8 15 true) :: [] ∧ 8 < (planned [(0, .padDrive 8 15 true)] s0).nports := by
  decide

/-- A rising and a falling edge, on an enabled, a triggered and an armed line. -/
theorem witness_ArmedEdgeMovesTheLineStateMachine :
    (∃ t, step (planned [(0, .padDrive 0 15 true)] (withExti ⟨0x8000, 0, 0x8000, 0⟩ s0)) = .next t ∧
      s0.config.src[(15 : Line)] = 0 ∧ (s0.port 0).pad.getLsbD 15 = false ∧ (s0.config.loop.getD 0 0).getLsbD 15 = false) ∧
    (∃ t, step (planned [(0, .padDrive 0 0 false)] (withExti ⟨0, 1, 0, 0⟩ (put 0 zero 1 s0))) = .next t ∧
      ((put 0 zero 1 s0).port 0).pad.getLsbD 0 = true) ∧
    (withExti ⟨0x8000, 0, 0x8000, 0⟩ s0).lineState 15 = .enabled ∧ (withExti ⟨1, 0, 1, 1⟩ s0).lineState 0 = .triggered ∧
    (withExti ⟨0, 1, 0, 0⟩ s0).lineState 0 = .armed :=
  ⟨⟨_, rfl, by decide, by decide, by decide⟩, ⟨_, rfl, by decide⟩, by decide, by decide, by decide⟩

theorem witness_ForcePendingSetsOnlyThatFlag : (planned [(0, .forcePending 15)] s0).plan = (0, .forcePending 15) :: [] := by decide

/-- A step that sets a flag: the edge of V61. -/
theorem witness_PendingIsSetByArmedEdgesOnly :
    ∃ t, step (planned [(0, .padDrive 0 0 false)] (withExti ⟨0, 1, 1, 0⟩ (put 0 zero 1 s0))) = .next t ∧ t.exti.pr.getLsbD 0 = true :=
  ⟨_, rfl, by decide⟩

/-- A step that clears a flag: V57. -/
theorem witness_PendingIsClearedByItsClearCommandOnly :
    ∃ t, step (withProg [0x80000000] (withExti ⟨0, 0, 0, 5⟩ s0)) = .next t ∧ t.exti.pr.getLsbD 0 = false := ⟨_, rfl, by decide⟩

theorem witness_DispatchEntersTheRoutine :
    (planned [(0, .dispatch 6)] (raised s0)).active = none ∧
    (∃ n : Line, (raised s0).config.vecOf[n] = 6 ∧ (raised s0).exti.pr.getLsbD n = true ∧ (raised s0).exti.imr.getLsbD n = true ∧
      (raised s0).ven.getLsbD (6 : VectorId) = true) := ⟨rfl, 0, by decide, by decide, by decide, by decide⟩

/-- Planned dispatches that do nothing: a vector not enabled, and one while a service is active. -/
theorem witness_DispatchEntersTheRoutine_not :
    ¬((planned [(0, .dispatch 255)] (raised s0)).active = none ∧ ∃ n : Line, (raised s0).config.vecOf[n] = 255 ∧
      (raised s0).exti.pr.getLsbD n = true ∧ (raised s0).exti.imr.getLsbD n = true ∧ (raised s0).ven.getLsbD (255 : VectorId) = true) ∧
    ¬((serving [] (raised s0)).active = none) := by decide

/-- The mainline is finished and vector 6 with its empty routine is up: dispatch and return take turns without end, which is fair. -/
def looping (d : Nat) : State := { raised s0 with draws := d }

theorem looping_dispatch (d : Nat) : step (looping d) = .next (serving [] (looping (d + 1))) := by
  have h : (looping d).vectorsUp = [6] := show (looping 0).vectorsUp = [6] by decide
  rw [step_finished_main (s := looping d) rfl (Nat.le_refl 0) rfl, State.afterLast]
  simp only [h]
  rfl

theorem looping_return (d : Nat) : step (serving [] (looping d)) = .next (looping d) := rfl

theorem looping_run (k : Nat) : ∀ d, Sys2Proof.core.run (2 * k) (looping d) = .next (looping (d + k)) ∧
    Sys2Proof.core.run (2 * k + 1) (looping d) = .next (serving [] (looping (d + k + 1))) := by
  induction k with
  | zero => exact fun d => ⟨rfl, (run_succ (M := Sys2Proof.core) (k := 0) (s := looping d) rfl).trans (looping_dispatch d)⟩
  | succ k ih =>
    intro d
    have h2 : Sys2Proof.core.run (2 * k + 1 + 1) (looping d) = .next (looping (d + k + 1)) :=
      (run_succ (M := Sys2Proof.core) (ih d).2).trans (looping_return _)
    exact ⟨h2, (run_succ (M := Sys2Proof.core) h2).trans (looping_dispatch _)⟩

theorem looping_goes_on (k d : Nat) : ∃ t : State, Sys2Proof.core.run k (looping d) = .next t ∧ t.ven = (raised s0).ven := by
  obtain ⟨j, rfl | rfl⟩ : ∃ j, k = 2 * j ∨ k = 2 * j + 1 := ⟨k / 2, by omega⟩
  · exact ⟨_, (looping_run j d).1, rfl⟩
  · exact ⟨_, (looping_run j d).2, rfl⟩

theorem looping_up : (looping 0).Up 6 := ⟨0, by decide, by decide, by decide, by decide⟩

theorem looping_fair : FairRun (looping 0) := by
  intro v m h
  obtain ⟨t, ht, _, _, _, _, hv⟩ := h m (Nat.le_refl m)
  obtain ⟨t', ht', hven⟩ := looping_goes_on m 0
  rw [ht] at ht'
  cases ht'
  rw [hven] at hv
  have h6 : ∀ u : VectorId, (raised s0).ven.getLsbD u = true → u = 6 := by decide +kernel
  obtain rfl := h6 v hv
  exact ⟨2 * m + 1, _, by omega, (looping_run m 0).2, rfl⟩

theorem witness_NoVectorStaysDispatchableForEver :
    (looping 0).active = none ∧ (looping 0).Up 6 ∧ ∀ k, ∃ t : State, Sys2Proof.core.run k (looping 0) = .next t :=
  ⟨rfl, looping_up, fun k => (looping_goes_on k 0).imp fun _ h => h.1⟩

theorem witness_FairRunsServePendingLines :
    FairRun (looping 0) ∧ (∀ k, ∃ t : State, Sys2Proof.core.run k (looping 0) = .next t) ∧
    (looping 0).exti.pr.getLsbD (0 : Line) = true ∧ (looping 0).exti.imr.getLsbD (0 : Line) = true ∧
    (looping 0).ven.getLsbD (looping 0).config.vecOf[(0 : Line)] = true :=
  ⟨looping_fair, fun k => (looping_goes_on k 0).imp fun _ h => h.1, by decide, by decide, by decide⟩

/-- A service that starts where one is planned, and one that starts because the mainline is finished. -/
theorem witness_ServicesStartForDispatchableVectorsOnly :
    (∃ t svc, step (planned [(0, .dispatch 6)] (raised (withProg [0x80000000] s0))) = .next t ∧ t.active = some svc) ∧
    (∃ t svc, step (raised s0) = .next t ∧ t.active = some svc) := ⟨⟨_, _, rfl, rfl⟩, ⟨_, _, rfl, rfl⟩⟩

theorem witness_ReturnResumesTheMainline :
    (serving [] s0).active = some ⟨6, Ctx.start []⟩ ∧ (Ctx.start []).cp = (Ctx.start []).prog.length ∧ (serving [] s0).eventDue = false := by
  decide

/-- A service that goes on, and one that ends. -/
theorem witness_ServiceRunsToItsEnd :
    (∃ t, step (serving [0x80000000] s0) = .next t ∧ t.active.isSome = true) ∧ (∃ t, step (serving [] s0) = .next t ∧ t.active = none) :=
  ⟨⟨_, rfl, by decide⟩, ⟨_, rfl, by decide⟩⟩

theorem witness_FinishedMainlineIsInterrupted :
    (raised s0).active = none ∧ (raised s0).main.prog.length ≤ (raised s0).main.cp ∧ (raised s0).eventDue = false ∧
    (∃ n : Line, (raised s0).exti.pr.getLsbD n = true ∧ (raised s0).exti.imr.getLsbD n = true ∧
      (raised s0).ven.getLsbD (raised s0).config.vecOf[n] = true) := ⟨rfl, by decide, by decide, 0, by decide, by decide, by decide⟩

theorem witness_UnclearedFlagIsServedAgain :
    (serving [] (raised s0)).active = some ⟨6, Ctx.start []⟩ ∧ (serving [] (raised s0)).quiet 1 ∧
    (serving [] (raised s0)).main.prog.length ≤ (serving [] (raised s0)).main.cp ∧
    (∃ n : Line, (serving [] (raised s0)).exti.pr.getLsbD n = true ∧ (serving [] (raised s0)).exti.imr.getLsbD n = true ∧
      (serving [] (raised s0)).ven.getLsbD (serving [] (raised s0)).config.vecOf[n] = true) :=
  ⟨rfl, trivial, by decide, 0, by decide, by decide, by decide⟩

/-- Vector 6 with the routine `TGL D, 12`, a mainline that has a command to run, and the platform taking the vector at every return. -/
def storm : State :=
  { raised (withProg [0x80000000] s0) with
    config := { Config.default with isr := [(6, [0x430C0000])] }
    plan := [(0, .dispatch 6)]
    cycle := [(4, .dispatch 6)] }

theorem witness_StormStarvesTheMainline : Storm storm 6 (.tgl (.index 3) 12) :=
  ⟨rfl, ⟨0, by decide, by decide, by decide, by decide⟩, ⟨0x430C0000, by decide, by decide⟩, by decide, nofun, rfl, rfl⟩

/-- The storm alone, and with vector 7 of line 1 up beside it. -/
def storm7 : State := { storm with exti := ⟨0, 3, 3, 3⟩, ven := BitVec.twoPow 256 6 ||| BitVec.twoPow 256 7 }

theorem witness_StormIsFairUnlessItStarvesAVector :
    (∀ u : VectorId, u ≠ 6 → storm.ven.getLsbD u = false) ∧ (∀ n u, Instr.tgl (.index 3) 12 = .ien n u → u = 6) ∧
    Storm storm7 6 (.tgl (.index 3) 12) ∧ (7 : VectorId) ≠ 6 ∧ storm7.Up 7 :=
  ⟨by decide +kernel, nofun,
    ⟨rfl, ⟨0, by decide, by decide, by decide, by decide⟩, ⟨0x430C0000, by decide, by decide⟩, by decide, nofun, rfl, rfl⟩,
    by decide, ⟨1, by decide, by decide, by decide, by decide⟩⟩

theorem witness_FinishedRunStaysPut :
    s0.active = none ∧ s0.main.prog.length ≤ s0.main.cp ∧ s0.eventDue = false ∧
    ∀ n : Line, ¬(s0.exti.pr.getLsbD n = true ∧ s0.exti.imr.getLsbD n = true ∧ s0.ven.getLsbD s0.config.vecOf[n] = true) := by decide

/-- `CFG` at its first and at its last inner boundary; `ICLR` of a set flag at its one. -/
theorem witness_CommandPausesAtEveryBoundary :
    (planned [(7, .clockOn 2)] s0).fresh ∧ 0 < 7 ∧ 7 < accessCount (.cfg (.index 0) 3 1 0 2 1 0) (planned [(7, .clockOn 2)] s0) ∧
    1 < accessCount (.cfg (.index 0) 3 1 0 2 1 0) (planned [(1, .clockOn 2)] s0) ∧
    1 < accessCount (.iclr 15) (planned [(1, .clockOn 2)] (withExti ⟨0, 0, 0, 0x8000⟩ s0)) :=
  ⟨rfl, by decide, by decide, by decide, by decide⟩

theorem witness_UninterruptedCommandsTakeTheirAccesses :
    (Instr.cfg (.index 0) 15 1 0 2 1 0).pin ≤ 15 ∧ (planned [(8, .clockOn 2)] s0).fresh ∧
    (planned [(8, .clockOn 2)] s0).quiet (accessCount (.cfg (.index 0) 15 1 0 2 1 0) (planned [(8, .clockOn 2)] s0) - 1) ∧
    (planned [(1, .clockOn 2)] s0).quiet (accessCount (.iclr 0) (planned [(1, .clockOn 2)] s0) - 1) :=
  ⟨by decide, rfl, show 8 - 1 < 8 by decide, show 1 - 1 < 1 by decide⟩

theorem witness_PauseAndResumeIsInvisible :
    s0.plan = [] ∧ (∃ u, exec (.tgl (.index 0) 3) { s0 with plan := [(2, .clockOn 2)] } = .next u ∧ u.cur.cp = s0.cur.cp ∧
      u.cur.flight.done = 2) := ⟨rfl, _, rfl, by decide, by decide⟩

theorem witness_StaleReadIsWrittenBack :
    (withFlight 1 s0).Ready 0 ∧ (withFlight 1 s0).cur.flight.done = 1 ∧ (withFlight 2 s0).cur.flight.done = 2 ∧
    (withFlight 3 s0).cur.flight.done = 3 ∧ (withFlight 5 s0).cur.flight.done = 5 ∧ (withFlight 7 s0).cur.flight.done = 7 :=
  ⟨⟨by decide, rfl⟩, rfl, rfl, rfl, rfl, rfl⟩

/-- A state that meets the invariant and steps: one command to run. -/
theorem witness_EveryStepKeepsTheInvariant :
    Inv (withProg [0x80000000] State.reset) ∧ (∃ t, step (withProg [0x80000000] State.reset) = .next t) :=
  ⟨⟨by decide, by decide, by decide, defaultMap_wf.2.1, by simp [withProg, State.reset, State.powerOn]⟩, ⟨_, rfl⟩⟩

theorem witness_PowerOnMeetsTheInvariant :
    (1 ≤ 1 ∧ 1 ≤ 15 ∧ Config.default.addr.wf 1) ∧ (1 ≤ 15 ∧ 15 ≤ 15 ∧ Config.default.addr.wf 15) :=
  ⟨⟨by decide, by decide, defaultMap_wf.2.2⟩, ⟨by decide, by decide, defaultMap_wf.1⟩⟩

theorem witness_ParametersPersistAndEnablesStayOn :
    ∃ t, step (withProg [0x70000006] (raised s0)) = .next t ∧ ((raised s0).port 3).clken = true ∧
      (raised s0).ven.getLsbD (6 : VectorId) = true :=
  ⟨_, rfl, by decide, by decide⟩

theorem witness_PowerOnValues : 0 < 9 ∧ 8 < 9 := by decide

end Sys2Proof.Tests
end

section
/-! SUPPORT. What every step keeps: the parameters, the enables, the reserved bits, the two contexts; and where a command pauses. -/

namespace Sys2Proof.Machine

open Sys2Proof

variable {s t x : State} {i : Instr} {a : Access}

/-! ### One access, in normal form -/

@[simp] theorem cur_enableVector (s : State) (v : VectorId) : (s.enableVector v).cur = s.cur := rfl

@[simp] theorem cur_effect (a : Access) (f : InFlight) (s : State) : (a.effect f s).cur = s.cur :=
  cur_congr s _ (by simp) (by simp)

/-- An access is its register effect, then one write of the running context. -/
theorem perform_eq_setCur (a : Access) (s : State) : a.perform s =
    (a.effect s.cur.flight s).setCur
      { s.cur with flight := a.flight s.cur.flight s, res := a.result s.cur.res s } := by
  cases a <;> simp [Access.perform, Access.effect, Access.flight, Access.result, State.setFlight, State.setRes]

/-! ### The parameters and the enables -/

/-- From `s` to `t` no parameter and no port count changes, no clock goes off and no vector is disabled (R17, R36, R37). -/
def Persists (s t : State) : Prop :=
  t.config = s.config ∧ t.nports = s.nports ∧ (∀ p, (s.port p).clken = true → (t.port p).clken = true) ∧
    (∀ v : VectorId, s.ven.getLsbD v = true → t.ven.getLsbD v = true)

theorem Persists.refl (s : State) : Persists s s := ⟨rfl, rfl, fun _ h => h, fun _ h => h⟩

theorem Persists.trans (h : Persists s t) (h' : Persists t x) : Persists s x := by
  obtain ⟨hc, hn, hk, hv⟩ := h
  obtain ⟨hc', hn', hk', hv'⟩ := h'
  exact ⟨hc'.trans hc, hn'.trans hn, fun p hp => hk' p (hk p hp), fun v h => hv' v (hv v h)⟩

theorem persists_of_same (hc : t.config = s.config) (hp : t.ports = s.ports) (hv : t.ven = s.ven) : Persists s t :=
  ⟨hc, by simp [State.nports, hp], fun p h => by simpa [State.port, hp] using h, fun v h => by rwa [hv]⟩

theorem persists_setCur (s : State) (c : Ctx) : Persists s (s.setCur c) := persists_of_same (by simp) (by simp) (by simp)

/-- A change of one port that leaves a clock that is on, on. -/
theorem persists_modifyPort (s : State) (p : Nat) (g : Port → Port) (hg : ∀ q, q.clken = true → (g q).clken = true) :
    Persists s (s.modifyPort p g) := by
  refine ⟨rfl, by simp, fun q hq => ?_, fun _ h => h⟩
  rw [port_modifyPort]
  split
  · exact hg _ hq
  · exact hq

theorem persists_enableVector (s : State) (v : VectorId) : Persists s (s.enableVector v) :=
  ⟨rfl, rfl, fun _ h => h, fun u hu => by simp [State.enableVector, hu]⟩

theorem persists_latchEdges (s t : State) : Persists t (latchEdges s t) := persists_of_same rfl rfl rfl

theorem persists_regWrite (s : State) (r : Reg) (v : Word) : Persists s (s.regWrite r v) :=
  ⟨by simp, by simp, fun p hp => by simpa using hp, fun u hu => by simpa using hu⟩

theorem persists_effect (a : Access) (f : InFlight) (s : State) : Persists s (a.effect f s) := by
  cases a with
  | read _ | sample _ _ | latch _ _ | test _ _ => exact .refl s
  | writeOr _ _ | writeAndn _ _ | writeOpposite _ _ | write _ _ => exact persists_regWrite s _ _
  | enableVector v => exact persists_enableVector s v

theorem persists_perform (a : Access) (s : State) : Persists s (a.perform s) := by
  rw [perform_eq_setCur]
  exact (persists_effect a _ s).trans (persists_setCur _ _)

theorem persists_exec (h : exec i s = .next t) : Persists s t :=
  exec_induct (Persists s) (fun a _ _ hx => hx.trans (persists_perform a _))
    (fun x hx => hx.trans (persists_of_same (t := x.tick) rfl rfl rfl))
    (fun _ hx => hx.trans (persists_setCur _ _)) (fun _ _ hx => hx.trans (persists_setCur _ _)) h (.refl s)

theorem persists_apply (e : Event) (s : State) : Persists s (e.apply s) := by
  cases e with
  | padDrive p n b =>
    refine .trans (persists_modifyPort s p _ ?_) (persists_latchEdges s _)
    exact fun _ h => h
  | forcePending n => exact persists_of_same rfl rfl rfl
  | clockOn p => exact persists_modifyPort s p _ fun _ _ => rfl
  | dispatch v =>
    simp only [Event.apply]
    split
    · exact persists_of_same rfl rfl rfl
    · exact .refl s

/-! ### The end of a list -/

/-- What the end of a list can do: a service returns, a service starts, or the machine idles (R198, R222). -/
theorem afterLast_cases (s : State) :
    s.afterLast = s.return.tick ∨ (∃ v, s.afterLast = { (s.dispatch v).tick with draws := s.draws + 1 }) ∨
      s.afterLast = s.tick := by
  unfold State.afterLast
  split
  · exact .inl rfl
  · split
    · exact .inr (.inr rfl)
    · exact .inr (.inl ⟨_, rfl⟩)

theorem persists_afterLast (s : State) : Persists s s.afterLast := by
  obtain h | ⟨v, h⟩ | h := afterLast_cases s <;> rw [h] <;> exact persists_of_same rfl rfl rfl

theorem persists_step (h : step s = .next t) : Persists s t := by
  obtain ⟨e, rest, _, rfl⟩ | ⟨_, _, rfl⟩ | ⟨_, _, i, _, hi⟩ := step_next h
  · exact (persists_of_same rfl rfl rfl).trans (persists_apply e _)
  · exact persists_afterLast s
  · exact persists_exec hi

/-! ### The reserved bits -/

theorem reservedClear_setCur (h : ReservedClear s) (c : Ctx) : ReservedClear (s.setCur c) :=
  reservedClear_congr h (by simp) (by simp)

theorem reservedClear_perform (a : Access) (h : ReservedClear s) : ReservedClear (a.perform s) := by
  rw [perform_eq_setCur]
  refine reservedClear_setCur ?_ _
  cases a with
  | read _ | sample _ _ | latch _ _ | test _ _ => exact h
  | writeOr _ _ | writeAndn _ _ | writeOpposite _ _ | write _ _ => exact reservedClear_regWrite h _ _
  | enableVector _ => exact h

theorem reservedClear_exec (h : exec i s = .next t) (hs : ReservedClear s) : ReservedClear t :=
  exec_induct ReservedClear (fun a _ _ hx => reservedClear_perform a hx) (fun _ hx => hx)
    (fun _ hx => reservedClear_setCur hx _) (fun _ _ hx => reservedClear_setCur hx _) h hs

/-- Pending flags set among the 16 lines keep the reserved bits zero. -/
theorem reservedClear_orPending {v : Word} (h : ReservedClear s) (hv : HighClear v) :
    ReservedClear { s with exti := { s.exti with pr := s.exti.pr ||| v } } := by
  obtain ⟨hports, hrtsr, hftsr, himr, hpr⟩ := h
  exact ⟨hports, hrtsr, hftsr, himr, highClear_or hpr hv⟩

/-- A change of one port that leaves its registers. -/
theorem reservedClear_modifyPort (h : ReservedClear s) (p : Nat) (g : Port → Port) (hg : ∀ q, (g q).regs = q.regs) :
    ReservedClear (s.modifyPort p g) := by
  refine ⟨fun q hq => ?_, h.2⟩
  obtain ⟨j, hj, rfl⟩ := List.mem_iff_getElem.1 hq
  have hold := h.1 (s.ports[j]'(by simpa [State.modifyPort] using hj)) (List.getElem_mem _)
  simp only [State.modifyPort, List.getElem_modify]
  split
  · rwa [hg]
  · exact hold

theorem reservedClear_apply (e : Event) (h : ReservedClear s) : ReservedClear (e.apply s) := by
  cases e with
  | padDrive p n b =>
    exact reservedClear_orPending (reservedClear_modifyPort h p _ fun _ => rfl) (highClear_ofPins _)
  | forcePending n => exact reservedClear_orPending h (highClear_pinMask (by omega))
  | clockOn p => exact reservedClear_modifyPort h p _ fun _ => rfl
  | dispatch v =>
    simp only [Event.apply]
    split <;> exact h

theorem reservedClear_afterLast (h : ReservedClear s) : ReservedClear s.afterLast := by
  obtain hs | ⟨v, hs⟩ | hs := afterLast_cases s <;> rw [hs] <;> exact h

theorem reservedClear_step (h : step s = .next t) (hs : ReservedClear s) : ReservedClear t := by
  obtain ⟨e, rest, _, rfl⟩ | ⟨_, _, rfl⟩ | ⟨_, _, i, _, hi⟩ := step_next h
  · exact reservedClear_apply e hs
  · exact reservedClear_afterLast hs
  · exact reservedClear_exec hi hs

/-! ### The two contexts -/

/-- A service's context is inside the list of its vector (R41, R42, R197). -/
def Service.ok (c : Config) (svc : Service) : Prop := svc.ctx.ok ∧ svc.ctx.prog = isrOf c svc.vector

/-- Both contexts are inside their lists, the service's list that of its vector: the invariant's part about the requester. -/
def ContextsOk (s : State) : Prop := s.main.ok ∧ ∀ svc ∈ s.active, svc.ok s.config

theorem start_ok (prog : List Word) : (Ctx.start prog).ok := ⟨Nat.zero_le _, fun _ => rfl⟩

theorem contextsOk_congr (h : ContextsOk s) (hc : t.config = s.config) (hm : t.main = s.main) (ha : t.active = s.active) :
    ContextsOk t := by
  unfold ContextsOk
  rwa [hc, hm, ha]

/-- The running context replaced by one that is inside the same list. -/
theorem contextsOk_setCur (h : ContextsOk s) {c : Ctx} (hc : c.ok) (hprog : c.prog = s.cur.prog) : ContextsOk (s.setCur c) := by
  obtain ⟨hmain, hirq⟩ := h
  cases ha : s.active with
  | none => simpa [ContextsOk, State.setCur, ha] using hc
  | some svc =>
    have hlist : c.prog = isrOf s.config svc.vector := by
      rw [hprog, State.cur, ha]
      exact (hirq svc ha).2
    simpa [ContextsOk, State.setCur, ha, Service.ok] using ⟨hmain, hc, hlist⟩

/-- A context before the end of its list may have anything in flight. -/
theorem ok_of_lt {c : Ctx} (h : c.cp < c.prog.length) : c.ok := ⟨h.le, fun he => absurd he h.ne⟩

/-- A completed command leaves the pointer inside the list or at its end, with nothing in flight. -/
theorem contextsOk_complete (h : ContextsOk s) (hlt : s.cur.cp < s.cur.prog.length) : ContextsOk s.complete :=
  contextsOk_setCur h ⟨hlt, fun _ => rfl⟩ rfl

/-- Both contexts are inside their lists, and the running one has a command to run: kept until that command completes. -/
def Unfinished (s : State) : Prop := ContextsOk s ∧ s.cur.cp < s.cur.prog.length

theorem unfinished_perform (a : Access) (h : Unfinished s) : Unfinished (a.perform s) := by
  obtain ⟨hs, hlt⟩ := h
  have heffect : ContextsOk (a.effect s.cur.flight s) := contextsOk_congr hs (by simp) (by simp) (by simp)
  rw [perform_eq_setCur]
  exact ⟨contextsOk_setCur heffect (ok_of_lt hlt) (by rw [cur_effect]), by rwa [cur_setCur]⟩

theorem unfinished_setRes (b : Bool) (h : Unfinished s) : Unfinished (s.setRes b) :=
  ⟨contextsOk_setCur h.1 (ok_of_lt h.2) rfl, by rw [cur_setRes]; exact h.2⟩

theorem contextsOk_exec (h : exec i s = .next t) (hs : ContextsOk s) (hlt : s.cur.cp < s.cur.prog.length) : ContextsOk t := by
  obtain ⟨y, ⟨hy, hylt⟩, rfl | rfl⟩ := exec_split Unfinished (fun a _ _ => unfinished_perform a) (fun _ hx => hx)
    (fun _ b => unfinished_setRes b) h ⟨hs, hlt⟩
  · exact hy
  · exact contextsOk_complete hy hylt

theorem contextsOk_dispatch (h : ContextsOk s) (v : VectorId) : ContextsOk (s.dispatch v) :=
  ⟨h.1, by rintro _ ⟨⟩; exact ⟨start_ok _, rfl⟩⟩

theorem contextsOk_apply (e : Event) (h : ContextsOk s) : ContextsOk (e.apply s) := by
  cases e with
  | padDrive _ _ _ | forcePending _ | clockOn _ => exact h
  | dispatch v =>
    simp only [Event.apply]
    split
    · exact contextsOk_dispatch h v
    · exact h

theorem contextsOk_afterLast (h : ContextsOk s) : ContextsOk s.afterLast := by
  obtain hs | ⟨v, hs⟩ | hs := afterLast_cases s <;> rw [hs]
  · exact ⟨h.1, nofun⟩
  · exact contextsOk_dispatch h v
  · exact h

theorem contextsOk_step (h : step s = .next t) (hs : ContextsOk s) : ContextsOk t := by
  obtain ⟨e, rest, _, rfl⟩ | ⟨_, _, rfl⟩ | ⟨_, hf, i, _, hi⟩ := step_next h
  · exact contextsOk_apply e hs
  · exact contextsOk_afterLast hs
  · exact contextsOk_exec hi hs ((finished_iff _).1 hf)

/-! ### Where a command pauses -/

theorem endsCommand_of_not_test (h : ∀ r n, a ≠ .test r n) (s : State) : a.endsCommand s = false := by
  cases a with
  | test r n => exact absurd rfl (h r n)
  | _ => rfl

/-- `ICLR` goes on after its read when the flag is set (R162). -/
theorem endsCommand_iclr_set {n : Nat} (hn : n ≤ 15) (h : bitOf s.exti.pr n = true) :
    (Access.test (.exti .pr) n).endsCommand ((Access.test (.exti .pr) n).perform s).tick = false := by
  simp [Access.endsCommand, Access.perform, InFlight.advance, State.regRead, Exti.get, h, bitOf_lowHalf hn]

/-- The only command that tests is `ICLR`. -/
theorem not_test_of_mem_listed (hi : ∀ n, i ≠ .iclr n) (ha : a ∈ listedAccesses i s) (r : Reg) (m : Nat) : a ≠ .test r m := by
  rintro rfl
  cases i with
  | cfg port n mode otype speed pull af =>
    cases hp : s.resolvePort port <;> simp [listedAccesses, hp, cfgAccesses, rmwOr] at ha
  | rdp port n => cases hp : s.resolvePort port <;> simp [listedAccesses, hp, rdpAccesses] at ha
  | wrp port n value =>
    cases hp : s.resolvePort port <;> cases value <;> simp [listedAccesses, hp, wrpAccesses, rmwOr, rmwAndn] at ha
  | tgl port n => cases hp : s.resolvePort port <;> simp [listedAccesses, hp, tglAccesses] at ha
  | saf port n af => cases hp : s.resolvePort port <;> simp [listedAccesses, hp, safAccesses, rmwOr] at ha
  | iedg n edge => cases edge <;> simp [listedAccesses, iedgAccesses, rmwOr] at ha
  | ien n vector => simp [listedAccesses, ienAccesses, rmwOr] at ha
  | iclr n => exact hi n rfl

/-- No command makes more accesses than it lists (R232). -/
theorem accessCount_le_length (i : Instr) (s : State) : accessCount i s ≤ (listedAccesses i s).length := by
  cases i with
  | cfg port n mode otype speed pull af =>
    cases hp : s.resolvePort port <;> simp [accessCount, listedAccesses, hp, cfgAccesses, rmwOr]
  | rdp port n => cases hp : s.resolvePort port <;> simp [accessCount, listedAccesses, hp, rdpAccesses]
  | wrp port n value =>
    cases hp : s.resolvePort port <;> cases value <;> simp [accessCount, listedAccesses, hp, wrpAccesses, rmwOr, rmwAndn]
  | tgl port n => cases hp : s.resolvePort port <;> simp [accessCount, listedAccesses, hp, tglAccesses]
  | saf port n af => cases hp : s.resolvePort port <;> simp [accessCount, listedAccesses, hp, safAccesses, rmwOr]
  | iedg n edge => cases edge <;> simp [accessCount, listedAccesses, iedgAccesses, rmwOr]
  | ien n vector => simp [accessCount, listedAccesses, ienAccesses, rmwOr]
  | iclr n => cases hb : bitOf s.exti.pr n <;> simp [accessCount, listedAccesses, iclrAccesses, hb]

/-- A command that makes two accesses or more does not end with its first. -/
theorem endsCommand_head (hpin : i.pin ≤ 15) (hcount : 1 < accessCount i s) (ha : (listedAccesses i s).head? = some a) :
    a.endsCommand (a.perform s).tick = false := by
  by_cases hi : ∃ n, i = .iclr n
  · obtain ⟨n, rfl⟩ := hi
    have hset : bitOf s.exti.pr n = true := by
      by_contra hclear
      simp [accessCount, hclear] at hcount
    obtain rfl : Access.test (.exti .pr) n = a := by simpa [listedAccesses, iclrAccesses] using ha
    exact endsCommand_iclr_set hpin hset
  · exact endsCommand_of_not_test (not_test_of_mem_listed (not_exists.1 hi) (List.mem_of_mem_head? ha)) _

/-- Behind the first access no command tests. -/
theorem not_test_of_mem_tail (ha : a ∈ (listedAccesses i s).tail) (r : Reg) (m : Nat) : a ≠ .test r m := by
  by_cases hi : ∃ n, i = .iclr n
  · obtain ⟨n, rfl⟩ := hi
    obtain rfl : a = .write (.exti .pr) (pinMask n) := by simpa [listedAccesses, iclrAccesses] using ha
    nofun
  · exact not_test_of_mem_listed (not_exists.1 hi) (List.mem_of_mem_tail ha) r m

/-- A command that makes an access is the run of its listed accesses. -/
theorem exec_of_accessCount_pos (hpin : i.pin ≤ 15) (h : 0 < accessCount i s) :
    exec i s = .next (runCommand (listedAccesses i s) s) := by
  refine exec_listed hpin ?_
  rintro port n rfl
  by_contra habsent
  simp [accessCount, habsent] at h

/-! ### At power-on -/

theorem highClear_zero : HighClear 0 := by decide

/-- The default addresses of nine ports are aligned, and no two registers share one (R61). -/
theorem defaultAddr_wf_nine : AddrMap.default.wf 9 := by decide +kernel

end Sys2Proof.Machine
end

section
/-! PROOFS. The obligations of 00_scope.md. -/

namespace Sys2Proof.Machine

open Sys2Proof

/-- Settles O55: parameters and port count persist, and the reserved bits and the two contexts are kept one by one. -/
theorem everyStepKeepsTheInvariant : Obligations.EveryStepKeepsTheInvariant := by
  intro s t hinv hstep
  obtain ⟨hconfig, hnports, -, -⟩ := persists_step hstep
  obtain ⟨hmain, hirq⟩ := contextsOk_step hstep ⟨hinv.main, hinv.irq⟩
  exact {
    ports := by rw [PortCountOk, hnports]; exact hinv.ports
    reserved := reservedClear_step hstep hinv.reserved
    main := hmain
    addr := by rw [hconfig, hnports]; exact hinv.addr
    irq := hirq }

/-- Settles O51: the listed accesses pause at the planned event, since a command with an inner boundary left is not ended by a test. -/
theorem commandPausesAtEveryBoundary : Obligations.CommandPausesAtEveryBoundary := by
  intro i s d e rest hpin hfresh hplan hpos hlt
  obtain ⟨hdone, hcp, hprog, hplan', hconfig⟩ := runAccesses_pauses (listedAccesses i s) s d e rest hplan hpos
    (hlt.trans_le (accessCount_le_length i s)) (fun _ => endsCommand_head hpin (by omega)) (fun _ => not_test_of_mem_tail)
  have hrun : runCommand (listedAccesses i s) s = runAccesses (listedAccesses i s) s := by rw [runCommand, hfresh, List.drop_zero]
  refine ⟨_, exec_of_accessCount_pos hpin (by omega), ?_⟩
  rw [hrun]
  exact ⟨by rw [hdone, hfresh, Nat.zero_add], hcp, hprog, hplan', hconfig⟩

/-- Settles O57: by the cases of a step; the only writes to a clock or a vector enable set it. -/
theorem parametersPersistAndEnablesStayOn : Obligations.ParametersPersistAndEnablesStayOn :=
  fun _ _ => persists_step

/-- Settles O6: with no event due and the list unfinished, of the branches of the step only the decoded command is left. -/
theorem stepRunsTheDecodedCommand : Obligations.StepRunsTheDecodedCommand := by
  intro s i hdue hlt hdecode
  have hgoing : s.cur.finished = false := (finished_iff _).2 hlt
  have hfetch : decode s.fetch = .command i := hdecode
  simp [step_not_due hdue, hgoing, hfetch]

/-- A power-on state with every register zero and 1 to 15 ports meets the invariant (R5, R45, R61). -/
theorem inv_powerOn {c : Config} {nports : Nat} (h1 : 1 ≤ nports) (h15 : nports ≤ 15) (hwf : c.addr.wf nports)
    (pads : List PinBits) (prog : List Word) : Inv (State.powerOn c (ResetValues.zero nports) pads prog) := by
  have hn : (State.powerOn c (ResetValues.zero nports) pads prog).nports = nports := by
    simp [State.nports, State.powerOn, ResetValues.zero]
  have hzero : ∀ q ∈ (State.powerOn c (ResetValues.zero nports) pads prog).ports, q.regs = PortRegs.zero := by
    intro q hq
    obtain ⟨j, hj, rfl⟩ := List.mem_iff_getElem.1 hq
    simp [State.powerOn, ResetValues.zero]
  exact {
    ports := by rw [PortCountOk, hn]; exact ⟨h1, h15⟩
    reserved := ⟨fun q hq => by rw [hzero q hq]; exact ⟨highClear_zero, highClear_zero⟩,
      highClear_zero, highClear_zero, highClear_zero, highClear_zero⟩
    main := start_ok prog
    addr := by rw [hn]; exact hwf
    irq := nofun }

/-- Settles O56: reset is the case of nine ports and the default address map. -/
theorem powerOnMeetsTheInvariant : Obligations.PowerOnMeetsTheInvariant :=
  ⟨inv_powerOn (by decide) (by decide) defaultAddr_wf_nine [] [],
    fun _ _ pads prog h1 h15 hwf => inv_powerOn h1 h15 hwf pads prog⟩

end Sys2Proof.Machine
end

section
/-! SUPPORT. What an uninterrupted command leaves: the register contents of each command, and its normal form. -/

namespace Sys2Proof.Machine

open Sys2Proof

variable {s t x : State} {i : Instr} {p n k : Nat} {r : PortReg} {v : Word}

/-! ### The register contents of each command -/

/-- A read-modify-write that sets bits, on the register contents (R75). -/
def State.orReg (s : State) (r : Reg) (v : Word) : State := s.regWrite r (s.regRead r ||| v)

/-- The register contents `IEDG` leaves (R160). -/
def iedgState (s : State) (n : Nat) : EdgeSel → State
  | .rising => s.orReg (.exti .rtsr) (pinMask n)
  | .falling => s.orReg (.exti .ftsr) (pinMask n)
  | .both => (s.orReg (.exti .rtsr) (pinMask n)).orReg (.exti .ftsr) (pinMask n)
  | .neither => s
  | .unrecognised _ => s

/-- The register contents a command leaves that starts in `s` and is not interrupted; an absent port leaves all (R68). -/
def commandState (i : Instr) (s : State) : State :=
  match i with
  | .cfg port n mode otype speed pull _ => (s.resolvePort port).elim s fun p => cfgState s p n mode otype speed pull
  | .rdp _ _ => s
  | .wrp port n b => (s.resolvePort port).elim s fun p =>
      s.regWrite (.port p .odr) (if b then s.regRead (.port p .odr) ||| pinMask n else s.regRead (.port p .odr) &&& ~~~pinMask n)
  | .tgl port n => (s.resolvePort port).elim s fun p =>
      s.regWrite (.port p .odr) (if bitOf (s.regRead (.port p .idr)) n then s.regRead (.port p .odr) &&& ~~~pinMask n
        else s.regRead (.port p .odr) ||| pinMask n)
  | .saf port n af => (s.resolvePort port).elim s fun p => s.orReg (.port p (afReg n)) (toField af 4 (n % 8))
  | .iedg n e => iedgState s n e
  | .ien n u => (s.orReg (.exti .imr) (pinMask n)).enableVector u
  | .iclr n => if bitOf s.exti.pr n then s.regWrite (.exti .pr) (pinMask n) else s

/-- The result latch it leaves: only `RDP` writes it (R40, R140). -/
def commandResult (i : Instr) (s : State) : Option Bool :=
  match i with
  | .rdp port n => some ((s.resolvePort port).elim false fun p => bitOf (s.regRead (.port p .idr)) n)
  | .cfg .. | .wrp .. | .tgl .. | .saf .. | .iedg .. | .ien .. | .iclr _ => s.cur.res

/-- The running context after the command. -/
def commandCtx (i : Instr) (s : State) : Ctx :=
  { s.cur with cp := s.cur.cp + 1, flight := InFlight.fresh, res := commandResult i s }

/-! ### The normal form -/

theorem bitOf_regRead_exti (r : ExtiReg) (hn : n ≤ 15) : bitOf (s.regRead (.exti r)) n = bitOf (s.exti.get r) n := by
  simp [State.regRead, bitOf_lowHalf hn]

/-- `IEDG` uninterrupted (R160). -/
theorem run_iedg {e : EdgeSel} (hq : 1 < accessCount (.iedg n e) s → s.quiet (accessCount (.iedg n e) s - 1)) :
    runAccesses (iedgAccesses n e) (s.at 0 s.cur) =
      (iedgState s n e).at (max 1 (accessCount (.iedg n e) s)) { s.cur with cp := s.cur.cp + 1, flight := InFlight.fresh } := by
  cases e with
  | rising | falling => exact run_rmwOr_last (hq (Nat.lt_succ_self 1))
  | both =>
    have hq := hq (by simp [accessCount])
    rw [iedgAccesses, run_rmwOr_next (by simp [rmwOr]) (quiet_mono hq (Nat.le_succ 2)),
      run_rmwOr_last (by rw [quiet_of_plan (s := s) (by simp)]; exact hq)]
    rfl
  | neither | unrecognised _ => exact run_none

/-- The listed accesses of a command, uninterrupted: for a port command, those on an implemented port. -/
theorem run_listed (hpin : i.pin ≤ 15) (hport : ∀ port, portOf i = some port → (s.resolvePort port).isSome)
    (hq : 1 < accessCount i s → s.quiet (accessCount i s - 1)) :
    runAccesses (listedAccesses i s) (s.at 0 s.cur) = (commandState i s).at (max 1 (accessCount i s)) (commandCtx i s) := by
  cases i with
  | cfg port n mode otype speed pull af =>
    obtain ⟨p, hp⟩ := Option.isSome_iff_exists.1 (hport port rfl)
    simp only [listedAccesses, commandState, accessCount, hp, Option.isSome_some, if_true] at hq ⊢
    exact run_cfg (hq (by decide))
  | rdp port n =>
    obtain ⟨p, hp⟩ := Option.isSome_iff_exists.1 (hport port rfl)
    simp only [listedAccesses, commandState, commandCtx, commandResult, accessCount, hp, Option.isSome_some, if_true]
    exact run_last _
  | wrp port n b =>
    obtain ⟨p, hp⟩ := Option.isSome_iff_exists.1 (hport port rfl)
    simp only [listedAccesses, commandState, accessCount, hp, Option.isSome_some, if_true] at hq ⊢
    exact run_wrp (hq (by decide))
  | tgl port n =>
    obtain ⟨p, hp⟩ := Option.isSome_iff_exists.1 (hport port rfl)
    simp only [listedAccesses, commandState, accessCount, hp, Option.isSome_some, if_true] at hq ⊢
    exact run_tgl (hq (by decide))
  | saf port n af =>
    obtain ⟨p, hp⟩ := Option.isSome_iff_exists.1 (hport port rfl)
    simp only [listedAccesses, commandState, accessCount, hp, Option.isSome_some, if_true] at hq ⊢
    exact run_rmwOr_last (hq (by decide))
  | iedg n e => exact run_iedg hq
  | ien n u => exact run_ien (hq (by simp [accessCount]))
  | iclr n =>
    have hbit : bitOf (s.regRead (.exti .pr)) n = bitOf s.exti.pr n := bitOf_regRead_exti .pr hpin
    cases hb : bitOf s.exti.pr n <;> simp only [listedAccesses, commandState, accessCount, hb, if_true] at hq ⊢
    · exact run_iclr_clear (hbit.trans hb)
    · exact run_iclr_set (hbit.trans hb) (hq (by decide))

/-- A command without an access is one move and its completion (R102, R120). -/
theorem runCommand_nil (s : State) :
    runCommand [] s = s.at 1 { s.cur with cp := s.cur.cp + 1, flight := InFlight.fresh } := by
  conv_lhs => rw [runCommand, List.drop_nil, ← at_zero s]
  exact run_none

@[simp] theorem at_of_setCur (s : State) (c c' : Ctx) : (s.setCur c).at k c' = s.at k c' := by
  cases h : s.active <;> simp [State.at, State.setCur, h]

/-- A port command on an absent port makes no access (R68, R120). -/
theorem exec_absentPort {port : PortSel} (hpin : i.pin ≤ 15) (hport : portOf i = some port)
    (habsent : s.resolvePort port = none) :
    exec i s = .next ((commandState i s).at (max 1 (accessCount i s)) (commandCtx i s)) := by
  cases i with
  | iedg _ _ | ien _ _ | iclr _ => cases hport
  | rdp port' n =>
    cases hport
    simp [exec, execRdp, guardPin_ok (show n ≤ 15 from hpin), commandState, accessCount, commandCtx, commandResult, habsent,
      runCommand_nil, State.setRes]
  | cfg port' n mode otype speed pull af | wrp port' n b | tgl port' n | saf port' n af =>
    cases hport
    rw [exec_listed hpin nofun]
    simp [listedAccesses, commandState, accessCount, commandCtx, commandResult, habsent, runCommand_nil]

/-- An uninterrupted command: its register contents, its moves, its requester (R41, R232). A command of one access or none has no
boundary inside it, so it asks nothing of the plan. -/
theorem exec_uninterrupted (hpin : i.pin ≤ 15) (hf : s.fresh) (hq : 1 < accessCount i s → s.quiet (accessCount i s - 1)) :
    exec i s = .next ((commandState i s).at (max 1 (accessCount i s)) (commandCtx i s)) := by
  by_cases habsent : ∃ port, portOf i = some port ∧ s.resolvePort port = none
  · obtain ⟨port, hport, hnone⟩ := habsent
    exact exec_absentPort hpin hport hnone
  · have hport : ∀ port, portOf i = some port → (s.resolvePort port).isSome := fun port hi =>
      Option.isSome_iff_ne_none.2 fun hnone => habsent ⟨port, hi, hnone⟩
    rw [exec_listed hpin fun port n hi => hport port (by rw [hi]; rfl), runCommand_fresh hf, run_listed hpin hport hq]

theorem exec_uninterrupted_next (hf : s.fresh) (hq : 1 < accessCount i s → s.quiet (accessCount i s - 1))
    (h : exec i s = .next t) : t = (commandState i s).at (max 1 (accessCount i s)) (commandCtx i s) := by
  rw [exec_uninterrupted (exec_next h).1 hf hq, Host.Outcome.next.injEq] at h
  exact h.symm

theorem fresh_at_commandCtx (x : State) (k : Nat) (i : Instr) (s : State) : (x.at k (commandCtx i s)).fresh := by
  rw [State.fresh, at_cur]
  rfl

/-! ### What reads return after it -/

@[simp] theorem orReg_plan (s : State) (r : Reg) (v : Word) : (s.orReg r v).plan = s.plan := regWrite_plan s r _

@[simp] theorem commandState_plan (i : Instr) (s : State) : (commandState i s).plan = s.plan := by
  cases i with
  | cfg port _ _ _ _ _ _ | wrp port _ _ | tgl port _ | saf port _ _ =>
    cases hp : s.resolvePort port <;> simp [commandState, hp, cfgState]
  | rdp _ _ => rfl
  | iedg _ e => cases e <;> simp [commandState, iedgState]
  | ien _ _ => simp [commandState]
  | iclr n => cases hb : bitOf s.exti.pr n <;> simp [commandState, hb]

/-- Only an implemented port has its clock on: what stands for a port that is not implemented has it off. -/
theorem lt_nports_of_clken (hc : (s.port p).clken = true) : p < s.nports := by
  by_contra hp
  have hnone : s.ports[p]? = none := List.getElem?_eq_none (Nat.le_of_not_lt hp)
  simp [State.port, List.getD_eq_getElem?_getD, hnone] at hc

/-- A register but `IDR` reads the same where it stores the same and the clocks are the same. -/
theorem regRead_of_stored {y : Reg} (hy : ∀ p, y ≠ .port p .idr) (hk : ∀ p, (t.port p).clken = (s.port p).clken)
    (h : t.stored y = s.stored y) : t.regRead y = s.regRead y := by
  cases y with
  | exti r => rw [regRead_exti, regRead_exti, h]
  | port p r =>
    have hr : r ≠ .idr := fun hr => hy p (by rw [hr])
    cases hc : (s.port p).clken
    · rw [regRead_gated hc, regRead_gated ((hk p).trans hc)]
    · rw [regRead_port hr hc, regRead_port hr ((hk p).trans hc), h]

/-- A register write leaves every other register's storage, the pending flags apart, which a store to `ODR` may set (R74, R163). -/
theorem stored_regWrite_other {y r : Reg} (hy : y ≠ r) (hpr : y ≠ .exti .pr) : (s.regWrite r v).stored y = s.stored y := by
  cases r with
  | exti r => exact sameBut_regWrite_exti.2.2 y (by simpa using hy)
  | port p r =>
    cases hc : (s.port p).clken
    · rw [regWrite_gated hc]
    have hp : p < s.nports := lt_nports_of_clken hc
    by_cases hodr : r = .odr
    · subst hodr
      rw [stored_regWrite_odr hp hc y hpr, if_neg hy]
    by_cases hidr : r = .idr
    · subst hidr
      cases y <;> simp [State.stored, regWrite_port, hc, port_modifyPort, PortRegs.set]
    · rw [stored_regWrite_port hodr hidr hp hc, if_neg hy]

/-- A register write leaves what every other register reads as, `IDR` and the pending flags apart (R74). -/
theorem regRead_regWrite_other {y r : Reg} (hidr : ∀ p, y ≠ .port p .idr) (hpr : y ≠ .exti .pr) (hy : y ≠ r) :
    (s.regWrite r v).regRead y = s.regRead y :=
  regRead_of_stored hidr (by simp) (stored_regWrite_other hy hpr)

/-- A port register reads as zero in the bits it does not implement (R23, R27, R28). -/
theorem regRead_and_implementedBits (s : State) (p : Nat) (r : PortReg) :
    s.regRead (.port p r) &&& implementedBits r = s.regRead (.port p r) := by
  cases hc : (s.port p).clken
  · rw [regRead_gated hc]
    exact BitVec.zero_and
  by_cases hr : r = .idr
  · subst hr
    rw [regRead_idr hc]
    exact (highClear_iff _).1 (highClear_ofPins _)
  · rw [regRead_port hr hc, BitVec.and_assoc, BitVec.and_self]

/-- What a clocked port register but `ODR` and `IDR` reads as after its read-modify-write (R75). -/
theorem regRead_orReg_same (hodr : r ≠ .odr) (hidr : r ≠ .idr) (hc : (s.port p).clken = true) :
    (s.orReg (.port p r) v).regRead (.port p r) = (s.regRead (.port p r) ||| v) &&& implementedBits r := by
  have hp : p < s.nports := lt_nports_of_clken hc
  rw [State.orReg, regRead_port hidr (by simpa using hc), stored_regWrite_port hodr hidr hp hc, if_pos rfl, BitVec.and_assoc,
    BitVec.and_self]

end Sys2Proof.Machine
end

section
/-! SUPPORT. What a configuration keeps, bits that are set and fields of other pins; and what a written pin reads as. -/

namespace Sys2Proof.Machine

open Sys2Proof

variable {s t x : State} {i : Instr} {p n k : Nat} {r : PortReg} {v : Word}

/-! ### Bits that are set stay set (R46) -/

/-- Every bit that reads as 1 in `s` reads as 1 in `t`, in every register but `IDR`, `ODR` and `PR`. -/
def KeepsOnes (s t : State) : Prop :=
  ∀ y : Reg, (∀ p, y ≠ .port p .idr) → (∀ p, y ≠ .port p .odr) → y ≠ .exti .pr →
    ∀ k, (s.regRead y).getLsbD k = true → (t.regRead y).getLsbD k = true

theorem KeepsOnes.refl (s : State) : KeepsOnes s s := fun _ _ _ _ _ h => h

theorem KeepsOnes.trans (h : KeepsOnes s t) (h' : KeepsOnes t x) : KeepsOnes s x :=
  fun y hidr hodr hpr k hk => h' y hidr hodr hpr k (h y hidr hodr hpr k hk)

/-- A read-modify-write that sets bits clears none (R31 to R33). -/
theorem keepsOnes_orReg (s : State) (r : Reg) (v : Word) : KeepsOnes s (s.orReg r v) := by
  intro y hidr hodr hpr k hk
  by_cases hy : y = r
  · subst hy
    cases y with
    | port p r =>
      cases hc : (s.port p).clken
      · rwa [State.orReg, regWrite_gated hc]
      · rw [← regRead_and_implementedBits, BitVec.getLsbD_and, Bool.and_eq_true] at hk
        rw [regRead_orReg_same (fun h => hodr p (by rw [h])) (fun h => hidr p (by rw [h])) hc, BitVec.getLsbD_and,
          BitVec.getLsbD_or, hk.1, hk.2]
        rfl
    | exti r =>
      have hr : r ≠ .pr := fun h => hpr (by rw [h])
      rw [regRead_exti, BitVec.getLsbD_and, Bool.and_eq_true] at hk
      rw [State.orReg, regRead_exti, stored_regWrite_exti hr, if_pos rfl, regRead_exti, and_lowHalf_idem, BitVec.getLsbD_and,
        BitVec.getLsbD_or, BitVec.getLsbD_and, hk.1, hk.2]
      rfl
  · rwa [State.orReg, regRead_regWrite_other hidr hpr hy]

theorem keepsOnes_odr (s : State) (p : Nat) (v : Word) : KeepsOnes s (s.regWrite (.port p .odr) v) :=
  fun _ hidr hodr hpr k hk => by rwa [regRead_regWrite_other hidr hpr (hodr p)]

theorem keepsOnes_pr (s : State) (v : Word) : KeepsOnes s (s.regWrite (.exti .pr) v) :=
  fun _ hidr _ hpr k hk => by rwa [regRead_regWrite_other hidr hpr hpr]

theorem keepsOnes_enableVector (s : State) (u : VectorId) : KeepsOnes s (s.enableVector u) :=
  fun y _ _ _ _ hk => by rwa [regRead_congr s (s.enableVector u) rfl rfl rfl y]

theorem keepsOnes_elim {f : Nat → State} (hf : ∀ p, KeepsOnes s (f p)) (o : Option Nat) : KeepsOnes s (o.elim s f) := by
  cases o with
  | none => exact .refl s
  | some p => exact hf p

theorem keepsOnes_iedgState (s : State) (n : Nat) (e : EdgeSel) : KeepsOnes s (iedgState s n e) := by
  cases e with
  | rising | falling => exact keepsOnes_orReg s _ _
  | both => exact (keepsOnes_orReg s _ _).trans (keepsOnes_orReg _ _ _)
  | neither | unrecognised _ => exact .refl s

/-- No uninterrupted command clears a bit of a configuration, trigger or mask register (R46). -/
theorem keepsOnes_commandState (i : Instr) (s : State) : KeepsOnes s (commandState i s) := by
  cases i with
  | cfg port n mode otype speed pull af =>
    exact keepsOnes_elim (fun p => (keepsOnes_orReg s _ _).trans <| (keepsOnes_orReg _ _ _).trans <|
      (keepsOnes_orReg _ _ _).trans (keepsOnes_orReg _ _ _)) _
  | rdp port n => exact .refl s
  | wrp port n b => exact keepsOnes_elim (fun p => keepsOnes_odr s p _) _
  | tgl port n => exact keepsOnes_elim (fun p => keepsOnes_odr s p _) _
  | saf port n af => exact keepsOnes_elim (fun p => keepsOnes_orReg s _ _) _
  | iedg n e => exact keepsOnes_iedgState s n e
  | ien n u => exact (keepsOnes_orReg s _ _).trans (keepsOnes_enableVector _ u)
  | iclr n =>
    simp only [commandState]
    split
    · exact keepsOnes_pr s _
    · exact .refl s

/-! ### The fields of the other pins (R128) -/

/-- An operand that fits its field, as a value of the field's width (R93). -/
theorem toField_setWidth {k : Nat} (v : BitVec k) (w n : Nat) (hv : v.toNat < 2 ^ w) :
    toField (v.setWidth w) w n = toField v w n := by
  have hfit : (v.setWidth w).setWidth 32 = v.setWidth 32 := by
    apply BitVec.eq_of_toNat_eq
    simp [Nat.mod_eq_of_lt hv]
  rw [toField, toField, hfit]

theorem pinFieldOf_and (w n : Nat) (a b : Word) : pinFieldOf w n (a &&& b) = pinFieldOf w n a &&& pinFieldOf w n b :=
  BitVec.extractLsb'_and

/-- A read-modify-write of pin `n`'s field with an operand that fits leaves what the field of another pin reads as (R128). -/
theorem pinFieldOf_orReg_other {k w q : Nat} (f : BitVec k) (hodr : r ≠ .odr) (hidr : r ≠ .idr) (hc : (s.port p).clken = true)
    (hf : f.toNat < 2 ^ w) (hw : w * q + w ≤ 32) (hq : q ≠ n) :
    pinFieldOf w q ((s.orReg (.port p r) (toField f w n)).regRead (.port p r)) = pinFieldOf w q (s.regRead (.port p r)) := by
  have hfar : q < n ∨ w * n + w ≤ w * q := by
    obtain h | h := Nat.lt_or_gt_of_ne hq
    · exact .inl h
    · exact .inr (Nat.mul_le_mul_left w h)
  rw [regRead_orReg_same hodr hidr hc, pinFieldOf_and, ← toField_setWidth f w n hf,
    pinFieldOf_or_far w n q _ _ hw hfar, ← pinFieldOf_and, regRead_and_implementedBits]

theorem regRead_orReg_other {r' : PortReg} (hidr : r' ≠ .idr) (hr : r' ≠ r) :
    (s.orReg (.port p r) v).regRead (.port p r') = s.regRead (.port p r') :=
  regRead_regWrite_other (by simp [hidr]) (by simp) (by simp [hr])

@[simp] theorem clken_orReg (s : State) (r : Reg) (v : Word) (q : Nat) :
    ((s.orReg r v).port q).clken = (s.port q).clken := clken_regWrite s r _ q

section Cfg
variable (s) (p n) (mode : BitVec 3) (otype : BitVec 2) (speed pull : BitVec 3)

/-- `CFG` is four read-modify-writes (R121). -/
theorem cfgState_eq : cfgState s p n mode otype speed pull =
    (((s.orReg (.port p .mode) (toField mode 2 n)).orReg (.port p .otype) (toField otype 1 n)).orReg (.port p .ospeed)
      (toField speed 2 n)).orReg (.port p .pull) (toField pull 2 n) := rfl

variable {s p} (hc : (s.port p).clken = true)
include hc

/-! Each of the four registers reads as if its read-modify-write were the only one. -/

theorem regRead_cfgState_mode : (cfgState s p n mode otype speed pull).regRead (.port p .mode) =
    (s.orReg (.port p .mode) (toField mode 2 n)).regRead (.port p .mode) := by
  simp [cfgState_eq, regRead_orReg_same, regRead_orReg_other, hc]

theorem regRead_cfgState_otype : (cfgState s p n mode otype speed pull).regRead (.port p .otype) =
    (s.orReg (.port p .otype) (toField otype 1 n)).regRead (.port p .otype) := by
  simp [cfgState_eq, regRead_orReg_same, regRead_orReg_other, hc]

theorem regRead_cfgState_ospeed : (cfgState s p n mode otype speed pull).regRead (.port p .ospeed) =
    (s.orReg (.port p .ospeed) (toField speed 2 n)).regRead (.port p .ospeed) := by
  simp [cfgState_eq, regRead_orReg_same, regRead_orReg_other, hc]

theorem regRead_cfgState_pull : (cfgState s p n mode otype speed pull).regRead (.port p .pull) =
    (s.orReg (.port p .pull) (toField pull 2 n)).regRead (.port p .pull) := by
  simp [cfgState_eq, regRead_orReg_same, regRead_orReg_other, hc]

end Cfg

/-! `SAF` writes the register of its own pin (R126). -/

theorem afReg_ne_odr (n : Nat) : afReg n ≠ .odr := by unfold afReg; split <;> decide

theorem afReg_ne_idr (n : Nat) : afReg n ≠ .idr := by unfold afReg; split <;> decide

/-- Two pins of one alternate-function register have different nibbles of it (R26). -/
theorem nibble_ne_of_afReg_eq {q n : Line} (hq : q ≠ n) (h : afReg q = afReg n) : q.val % 8 ≠ n.val % 8 := by
  have hqn : q.val ≠ n.val := fun h => hq (Fin.ext h)
  unfold afReg at h
  split at h <;> split at h
  · omega
  · cases h
  · cases h
  · omega

/-! ### A written pin (R143) -/

/-- The bit `WRP` writes (R141). -/
theorem bitOf_written (a : Word) (b : Bool) {n : Nat} (hn : n ≤ 15) :
    bitOf (if b then a ||| pinMask n else a &&& ~~~pinMask n) n = b := by
  cases b <;> simp [bitOf_pinMask n hn, bitOf_not _ hn]

/-- The level of a pin after a store to the output register of its clocked port (R38). -/
theorem level_regWrite_odr (hc : (s.port p).clken = true) (n : Line) :
    (s.regWrite (.port p .odr) v).level p n = if looped s.config p n then bitOf v n else (s.port p).pad.getLsbD n := by
  have hp : p < s.nports := lt_nports_of_clken hc
  simp [State.level, port_regWrite hc, hp, PortRegs.set, bitOf_lowHalf (show n.val ≤ 15 by omega)]

theorem level_at (x : State) (k : Nat) (c : Ctx) (p : Nat) (n : Line) : (x.at k c).level p n = x.level p n := by
  simp [State.level]

/-- `RDP` on a clocked port latches the level, whatever is planned: it is one access (R140). -/
theorem exec_rdp_level (p : Fin 15) (n : Line) (hf : s.fresh) (hc : (s.port p).clken = true) :
    ∃ u, exec (.rdp (.index p) n) s = .next u ∧ u.cur.res = some (s.level p n) := by
  have hport : s.resolvePort (.index p) = some p.val := resolve_index p (lt_nports_of_clken hc)
  refine ⟨_, exec_uninterrupted (Nat.le_of_lt_succ n.isLt) hf fun hcount => ?_, ?_⟩
  · simp [accessCount, hport] at hcount
  · rw [at_cur, commandCtx, commandResult, hport, Option.elim_some, regRead_idr hc, idr_bit]

end Sys2Proof.Machine
end

section
/-! SUPPORT. What each access writes, and so which ports and which pending flags a command can touch; a pause and its resumption. -/

namespace Sys2Proof.Machine

open Sys2Proof

variable {s t x y : State} {i : Instr} {a : Access} {p q : Nat} {r : Reg} {v : Word} {n : Line}

/-! ### The register an access writes -/

/-- The register of the block an access writes, if it writes one. -/
def Access.writes : Access → Option Reg
  | .writeOr r _ => some r
  | .writeAndn r _ => some r
  | .writeOpposite r _ => some r
  | .write r _ => some r
  | .read _ => none
  | .sample _ _ => none
  | .latch _ _ => none
  | .test _ _ => none
  | .enableVector _ => none

/-- What an access can do to the register contents: nothing, enable a vector, or write its register. -/
theorem effect_cases (a : Access) (f : InFlight) (s : State) :
    a.effect f s = s ∨ (∃ u, a.effect f s = s.enableVector u) ∨
      ∃ r v, a.writes = some r ∧ a.effect f s = s.regWrite r v := by
  cases a with
  | read _ | sample _ _ | latch _ _ | test _ _ => exact .inl rfl
  | enableVector u => exact .inr (.inl ⟨u, rfl⟩)
  | writeOr _ _ | writeAndn _ _ | writeOpposite _ _ | write _ _ => exact .inr (.inr ⟨_, _, rfl, rfl⟩)

@[simp] theorem complete_exti (s : State) : s.complete.exti = s.exti := setCur_exti s _
@[simp] theorem setRes_exti (s : State) (b : Bool) : (s.setRes b).exti = s.exti := setCur_exti s _
@[simp] theorem port_complete (s : State) (p : Nat) : s.complete.port p = s.port p := port_setCur s _ p
@[simp] theorem port_setRes (s : State) (b : Bool) (p : Nat) : (s.setRes b).port p = s.port p := port_setCur s _ p

theorem perform_exti (a : Access) (s : State) : (a.perform s).exti = (a.effect s.cur.flight s).exti := by
  rw [perform_eq_setCur, setCur_exti]

/-- The registers of the block a command writes, in order (Table R76). -/
def writtenRegs (i : Instr) (s : State) : List Reg :=
  match i with
  | .cfg port _ _ _ _ _ _ => (s.resolvePort port).elim [] fun p =>
      [PortReg.mode, .otype, .ospeed, .pull].map (.port p)
  | .rdp _ _ => []
  | .wrp port _ _ => (s.resolvePort port).elim [] fun p => [PortReg.odr].map (.port p)
  | .tgl port _ => (s.resolvePort port).elim [] fun p => [PortReg.odr].map (.port p)
  | .saf port n _ => (s.resolvePort port).elim [] fun p => [afReg n].map (.port p)
  | .iedg _ .rising => [.exti .rtsr]
  | .iedg _ .falling => [.exti .ftsr]
  | .iedg _ .both => [.exti .rtsr, .exti .ftsr]
  | .iedg _ .neither => []
  | .iedg _ (.unrecognised _) => []
  | .ien _ _ => [.exti .imr]
  | .iclr _ => [.exti .pr]

theorem filterMap_writes_listed (i : Instr) (s : State) : (listedAccesses i s).filterMap Access.writes = writtenRegs i s := by
  cases i with
  | cfg port n mode otype speed pull af => cases hp : s.resolvePort port <;> simp only [listedAccesses, writtenRegs, hp] <;> rfl
  | rdp port n => cases hp : s.resolvePort port <;> simp only [listedAccesses, writtenRegs, hp] <;> rfl
  | wrp port n b => cases hp : s.resolvePort port <;> cases b <;> simp only [listedAccesses, writtenRegs, hp] <;> rfl
  | tgl port n => cases hp : s.resolvePort port <;> simp only [listedAccesses, writtenRegs, hp] <;> rfl
  | saf port n af => cases hp : s.resolvePort port <;> simp only [listedAccesses, writtenRegs, hp] <;> rfl
  | iedg n e => cases e <;> rfl
  | ien n u => rfl
  | iclr n => rfl

theorem mem_writtenRegs (ha : a ∈ listedAccesses i s) (hw : a.writes = some r) : r ∈ writtenRegs i s := by
  rw [← filterMap_writes_listed]
  exact List.mem_filterMap.2 ⟨a, ha, hw⟩

/-- A port command writes registers of the port it resolves to, and no others. -/
theorem port_of_mem_writtenRegs {port : PortSel} (hport : portOf i = some port) (hr : r ∈ writtenRegs i s) :
    ∃ p r', s.resolvePort port = some p ∧ r = .port p r' := by
  cases i with
  | iedg _ _ | ien _ _ | iclr _ => cases hport
  | rdp _ _ => cases hr
  | cfg _ n mode otype speed pull af | wrp _ n b | tgl _ n | saf _ n af =>
    cases hport
    cases hp : s.resolvePort port with
    | none => simp [writtenRegs, hp] at hr
    | some p =>
      simp only [writtenRegs, hp, Option.elim_some] at hr
      obtain ⟨r', -, rfl⟩ := List.mem_map.1 hr
      exact ⟨p, r', rfl, rfl⟩

/-- Only `ICLR` writes the pending flags. -/
theorem iclr_of_pr_mem_writtenRegs (hr : .exti .pr ∈ writtenRegs i s) : ∃ m, i = .iclr m := by
  cases i with
  | iclr m => exact ⟨m, rfl⟩
  | rdp _ _ => cases hr
  | iedg _ e => cases e <;> simp [writtenRegs] at hr
  | ien _ _ => simp [writtenRegs] at hr
  | cfg port _ _ _ _ _ _ | wrp port _ _ | tgl port _ | saf port _ _ =>
    cases hp : s.resolvePort port <;> simp [writtenRegs, hp] at hr

/-! ### The other ports (R21) -/

theorem port_regWrite_other {r : PortReg} (hq : q ≠ p) : (s.regWrite (.port p r) v).port q = s.port q := by
  cases hc : (s.port p).clken
  · rw [regWrite_gated hc]
  · rw [port_regWrite hc, if_neg fun h => hq h.1]

/-- An access that writes no register of port `q` leaves that port. -/
theorem port_perform (hw : ∀ r, a.writes ≠ some (.port q r)) (s : State) : (a.perform s).port q = s.port q := by
  rw [perform_eq_setCur, port_setCur]
  obtain h | ⟨u, h⟩ | ⟨r, v, hr, h⟩ := effect_cases a s.cur.flight s <;> rw [h]
  · rfl
  · cases r with
    | port p r => exact port_regWrite_other fun hq => hw r (by rw [hr, hq])
    | exti r => rfl

/-! ### The pending flags -/

/-- A register write clears no pending flag but those a write of `PR` names (R34). -/
theorem pending_regWrite_mono (hr : r = .exti .pr → v.getLsbD n = false) (h : s.exti.pr.getLsbD n = true) :
    (s.regWrite r v).exti.pr.getLsbD n = true := by
  cases r with
  | exti r => cases r <;> simp_all [State.regWrite, Exti.set, show n.val < 32 by omega]
  | port p r =>
    cases hc : (s.port p).clken
    · rwa [regWrite_gated hc]
    by_cases hodr : r = .odr
    · subst hodr
      have hold : bitOf s.exti.pr n = true := h
      exact (pending_regWrite_odr hc n).trans (by rw [hold, Bool.true_or])
    · rwa [regWrite_port hodr hc, modifyPort_exti]

/-- Only a store to `ODR` sets a pending flag (R34, R163). -/
theorem pending_of_regWrite (hr : ∀ p, r ≠ .port p .odr) (h : (s.regWrite r v).exti.pr.getLsbD n = true) :
    s.exti.pr.getLsbD n = true := by
  cases r with
  | exti r => cases r <;> simp_all [State.regWrite, Exti.set]
  | port p r =>
    cases hc : (s.port p).clken
    · rwa [regWrite_gated hc] at h
    · rwa [regWrite_port (fun h => hr p (by rw [h])) hc, modifyPort_exti] at h

/-- An access that does not write `PR` clears no pending flag. -/
theorem pending_perform_mono (hw : a.writes ≠ some (.exti .pr)) (h : s.exti.pr.getLsbD n = true) :
    (a.perform s).exti.pr.getLsbD n = true := by
  rw [perform_exti]
  obtain he | ⟨u, he⟩ | ⟨r, v, hr, he⟩ := effect_cases a s.cur.flight s <;> rw [he]
  · exact h
  · exact h
  · exact pending_regWrite_mono (fun hpr => absurd (hr.trans (by rw [hpr])) hw) h

/-- An access that does not write an `ODR` sets no pending flag. -/
theorem pending_of_perform (hw : ∀ p, a.writes ≠ some (.port p .odr)) (h : (a.perform s).exti.pr.getLsbD n = true) :
    s.exti.pr.getLsbD n = true := by
  rw [perform_exti] at h
  obtain he | ⟨u, he⟩ | ⟨r, v, hr, he⟩ := effect_cases a s.cur.flight s <;> rw [he] at h
  · exact h
  · exact h
  · exact pending_of_regWrite (fun p hodr => hw p (hr.trans (by rw [hodr]))) h

/-- `ICLR` of one line keeps the flags of the others (R162). -/
theorem pending_perform_iclr {m : Nat} (hm : n.val ≠ m) (ha : a ∈ iclrAccesses m) (h : s.exti.pr.getLsbD n = true) :
    (a.perform s).exti.pr.getLsbD n = true := by
  obtain rfl | rfl : a = .test (.exti .pr) m ∨ a = .write (.exti .pr) (pinMask m) := by simpa [iclrAccesses] using ha
  · exact pending_perform_mono nofun h
  · rw [perform_exti]
    exact pending_regWrite_mono (fun _ => by simp [pinMask_getLsbD, hm]) h

/-- A pending flag that a command clears is that of its own line, and the command is `ICLR` (R34, R162). -/
theorem iclr_of_exec_clears (h : exec i s = .next t) (hs : s.exti.pr.getLsbD n = true) (ht : t.exti.pr.getLsbD n = false) :
    i = .iclr n := by
  by_contra hi
  have hkept : ∀ a ∈ listedAccesses i s, ∀ x : State,
      x.exti.pr.getLsbD n = true → (a.perform x).exti.pr.getLsbD n = true := by
    intro a ha x hx
    by_cases hw : a.writes = some (.exti .pr)
    · obtain ⟨m, rfl⟩ := iclr_of_pr_mem_writtenRegs (mem_writtenRegs ha hw)
      exact pending_perform_iclr (fun hm => hi (by rw [hm])) ha hx
    · exact pending_perform_mono hw hx
  have hflag : t.exti.pr.getLsbD n = true :=
    exec_induct (fun x => x.exti.pr.getLsbD n = true) hkept (fun _ hx => hx) (fun x hx => by rwa [complete_exti])
      (fun x b hx => by rwa [setRes_exti]) h hs
  simp [hflag] at ht

/-! ### Edges (R163) -/

theorem SameRegs.lineIn (h : SameRegs s t) (n : Line) : t.lineIn n = s.lineIn n := lineIn_congr s t h.2.2 h.1 n

/-- Pending flags by edges, seen from and to states with the same registers. -/
theorem PendingByEdges.congr (h : PendingByEdges y x) (hs : SameRegs s y) (ht : SameRegs x t) : PendingByEdges s t := by
  obtain ⟨hflags, hhigh⟩ := h
  refine ⟨fun n => ?_, ?_⟩
  · rw [ht.2.1, ht.lineIn, ← hs.lineIn, ← hs.2.1, ← hs.2.2]
    exact hflags n
  · rw [ht.2.1, ← hs.2.1]
    exact hhigh

theorem PendingByEdges.refl (s : State) : PendingByEdges s s :=
  ⟨fun n => by cases s.lineIn n <;> simp, rfl⟩

theorem PendingByEdges.of_sameRegs (h : SameRegs s t) : PendingByEdges s t := (refl s).congr ⟨rfl, rfl, rfl⟩ h

/-- A change of levels latches exactly the armed edges. -/
theorem pendingByEdges_latchEdges (he : x.exti = s.exti) (hc : x.config = s.config) : PendingByEdges s (latchEdges s x) := by
  have hline : ∀ n, (latchEdges s x).lineIn n = x.lineIn n := fun n => lineIn_congr _ _ rfl rfl n
  refine ⟨fun n => ?_, ?_⟩
  · rw [hline, ← he, ← hc]
    exact bitOf_latchEdges s x n
  · apply BitVec.eq_of_getLsbD_eq
    intro k _
    simp [latchEdges, ofPins_getLsbD, he]

/-- A store to `ODR`, gated or not. -/
theorem pendingByEdges_regWrite_odr (s : State) (p : Nat) (v : Word) : PendingByEdges s (s.regWrite (.port p .odr) v) := by
  cases hc : (s.port p).clken
  · rw [regWrite_gated hc]
    exact .refl s
  · exact pendingByEdges_odr hc

/-- From `s` to `t` the input of line `n` changed in an armed direction, and the line is unmasked or the latch not gated (R163). -/
def ArmedEdge (s t : State) (n : Line) : Prop :=
  ((s.lineIn n = false ∧ t.lineIn n = true ∧ s.exti.rtsr.getLsbD n = true) ∨
    (s.lineIn n = true ∧ t.lineIn n = false ∧ s.exti.ftsr.getLsbD n = true)) ∧
  (s.exti.imr.getLsbD n = true ∨ s.config.latchGatedByMask = false)

/-- A flag that is set by edges was set by an armed one. -/
theorem PendingByEdges.armedEdge (h : PendingByEdges s t) (hs : s.exti.pr.getLsbD n = false) (ht : t.exti.pr.getLsbD n = true) :
    ArmedEdge s t n := by
  have hflag := h.1 n
  rw [hs, ht] at hflag
  simpa [ArmedEdge, and_assoc] using hflag

/-- `WRP` and `TGL` are reads and then one store to `ODR`; no other command stores to an `ODR` (Table R76). -/
theorem listed_odr (i : Instr) (s : State) : (∀ p, .port p .odr ∉ writtenRegs i s) ∨
    ∃ p as w, listedAccesses i s = as ++ [w] ∧ (∀ a ∈ as, a.reads = true) ∧ w.writes = some (.port p .odr) := by
  cases i with
  | rdp _ _ => exact .inl fun _ => List.not_mem_nil
  | iedg _ e => left; cases e <;> simp [writtenRegs]
  | ien _ _ => simp [writtenRegs]
  | iclr _ => simp [writtenRegs]
  | cfg port _ _ _ _ _ _ =>
    left
    cases hp : s.resolvePort port <;> simp [writtenRegs, hp]
  | saf port n _ =>
    left
    cases hp : s.resolvePort port <;> simp [writtenRegs, hp, (afReg_ne_odr n).symm]
  | wrp port n b =>
    cases hp : s.resolvePort port with
    | none => simp [writtenRegs, hp]
    | some p =>
      right
      cases b
      · exact ⟨p, [.read (.port p .odr)], _, by simp only [listedAccesses, hp]; rfl, by simp [Access.reads], rfl⟩
      · exact ⟨p, [.read (.port p .odr)], _, by simp only [listedAccesses, hp]; rfl, by simp [Access.reads], rfl⟩
  | tgl port n =>
    cases hp : s.resolvePort port with
    | none => simp [writtenRegs, hp]
    | some p =>
      right
      exact ⟨p, [.sample (.port p .idr) n, .read (.port p .odr)], _, by simp only [listedAccesses, hp]; rfl,
        by simp [Access.reads], rfl⟩

theorem sameRegs_setCur (s : State) (c : Ctx) : SameRegs s (s.setCur c) := ⟨by simp, by simp, by simp⟩

/-- An access that writes an `ODR` latches the edges of the levels it changes. -/
theorem pendingByEdges_perform {w : Access} (hw : w.writes = some (.port p .odr)) (s : State) :
    PendingByEdges s (w.perform s) := by
  rw [perform_eq_setCur]
  refine PendingByEdges.congr (y := s) ?_ ⟨rfl, rfl, rfl⟩ (sameRegs_setCur _ _)
  obtain h | ⟨u, h⟩ | ⟨r, v, hr, h⟩ := effect_cases w s.cur.flight s <;> rw [h]
  · exact .refl s
  · exact .of_sameRegs ⟨rfl, rfl, rfl⟩
  · obtain rfl : r = .port p .odr := Option.some.inj (hr.symm.trans hw)
    exact pendingByEdges_regWrite_odr s p v

/-- A store to `ODR` behind reads latches the edges of the levels it changes, from wherever the command stands. -/
theorem pendingByEdges_runCommand {as : List Access} {w : Access} (hreads : ∀ a ∈ as, a.reads = true)
    (hw : w.writes = some (.port p .odr)) (s : State) : PendingByEdges s (runCommand (as ++ [w]) s) := by
  rw [runCommand]
  obtain hd | hd := Nat.lt_or_ge as.length s.cur.flight.done
  · rw [List.drop_eq_nil_of_le (by simpa using hd)]
    exact .of_sameRegs (sameRegs_setCur s.tick _)
  · rw [List.drop_append_of_le_length hd]
    obtain h | ⟨y, hy, h⟩ := run_reads_last (as.drop s.cur.flight.done) w (fun a ha => hreads a (List.mem_of_mem_drop ha)) s
    · exact .of_sameRegs h
    · rw [h]
      exact (pendingByEdges_perform hw y).congr hy (sameRegs_setCur (w.perform y).tick _)

/-- A pending flag that a command sets was set by an armed edge. -/
theorem armedEdge_of_exec_sets (h : exec i s = .next t) (hs : s.exti.pr.getLsbD n = false) (ht : t.exti.pr.getLsbD n = true) :
    ArmedEdge s t n := by
  obtain hnone | ⟨p, as, w, hlisted, hreads, hw⟩ := listed_odr i s
  · have hkept : ∀ a ∈ listedAccesses i s, ∀ x : State,
        x.exti.pr.getLsbD n = false → (a.perform x).exti.pr.getLsbD n = false := by
      intro a ha x hx
      by_contra hset
      have hold := pending_of_perform (fun p hodr => hnone p (mem_writtenRegs ha hodr)) (by simpa using hset)
      simp [hx] at hold
    have hflag : t.exti.pr.getLsbD n = false :=
      exec_induct (fun x => x.exti.pr.getLsbD n = false) hkept (fun _ hx => hx) (fun x hx => by rwa [complete_exti])
        (fun x b hx => by rwa [setRes_exti]) h hs
    simp [hflag] at ht
  · refine PendingByEdges.armedEdge ?_ hs ht
    obtain ⟨-, rfl | ⟨_, _, _, _, rfl⟩⟩ := exec_next h
    · rw [hlisted]
      exact pendingByEdges_runCommand hreads hw s
    · rw [runCommand_nil]
      exact .of_sameRegs ⟨by simp [State.setRes], by simp, by simp [State.setRes]⟩

/-- The steps of the other agents clear no pending flag. -/
theorem pending_apply_mono (e : Event) (h : s.exti.pr.getLsbD n = true) : (e.apply s).exti.pr.getLsbD n = true := by
  cases e with
  | padDrive p m b => simp [Event.apply, latchEdges, h]
  | forcePending m => simp [Event.apply, h]
  | clockOn p => exact h
  | dispatch u =>
    simp only [Event.apply]
    split <;> exact h

/-- A pending flag that another agent sets, the harness apart, was set by an armed edge. -/
theorem armedEdge_of_apply_sets {e : Event} (he : ∀ m, e ≠ .forcePending m) (hs : s.exti.pr.getLsbD n = false)
    (ht : (e.apply s).exti.pr.getLsbD n = true) : ArmedEdge s (e.apply s) n := by
  refine PendingByEdges.armedEdge ?_ hs ht
  cases e with
  | padDrive p m b => exact pendingByEdges_latchEdges rfl rfl
  | forcePending m => exact absurd rfl (he m)
  | clockOn p => exact absurd ht (by simp [Event.apply, hs])
  | dispatch u =>
    simp only [Event.apply]
    split <;> exact .of_sameRegs ⟨rfl, rfl, rfl⟩

/-- The end of a list touches no pending flag. -/
@[simp] theorem afterLast_exti (s : State) : s.afterLast.exti = s.exti := by
  obtain h | ⟨u, h⟩ | h := afterLast_cases s <;> rw [h] <;> rfl

/-! ### A pause and its resumption -/

/-- Accesses that pause go on, from the record they leave, as if they had not paused. -/
theorem runAccesses_resume (as : List Access) (s : State) (hcp : (runAccesses as s).cur.cp = s.cur.cp) :
    runAccesses (as.drop ((runAccesses as s).cur.flight.done - s.cur.flight.done)) ((runAccesses as s).withPlan []) =
      runAccesses as (s.withPlan []) := by
  induction as generalizing s with
  | nil => simp [runAccesses] at hcp
  | cons a rest ih =>
    obtain ⟨hdone, hcp', -, -⟩ := perform_cur a s
    have hunplanned : (a.perform (s.withPlan [])).tick = (a.perform s).tick.withPlan [] := by
      rw [withPlan_perform]
      rfl
    by_cases hend : rest.isEmpty || a.endsCommand (a.perform s).tick
    · rw [runAccesses, if_pos hend] at hcp
      simp [hcp'] at hcp
    have hgo : runAccesses (a :: rest) (s.withPlan []) = runAccesses rest ((a.perform s).tick.withPlan []) := by
      rw [runAccesses, hunplanned, withPlan_endsCommand, if_neg hend, if_neg (by simp [State.eventDue, State.withPlan])]
    rw [hgo]
    cases hdue : (a.perform s).tick.eventDue with
    | true =>
      have hpause : runAccesses (a :: rest) s = (a.perform s).tick := by simp only [runAccesses]; rw [if_neg hend, if_pos hdue]
      rw [hpause, tick_cur, hdone, Nat.add_sub_cancel_left]
      rfl
    | false =>
      have hrun : runAccesses (a :: rest) s = runAccesses rest (a.perform s).tick := by
        simp only [runAccesses]
        rw [if_neg hend, if_neg (by simp [hdue])]
      rw [hrun] at hcp ⊢
      have hlater := (runAccesses_progress rest (a.perform s).tick).2.resolve_left (by simp [hcp, hcp'])
      rw [tick_cur, hdone] at hlater
      rw [← ih (a.perform s).tick (by simp [hcp, hcp']), tick_cur, hdone,
        show (runAccesses rest (a.perform s).tick).cur.flight.done - s.cur.flight.done =
          (runAccesses rest (a.perform s).tick).cur.flight.done - (s.cur.flight.done + 1) + 1 by omega, List.drop_succ_cons]

/-- A command that pauses goes on from its in-flight record as if it had not paused. -/
theorem runCommand_resume (as : List Access) (s : State) (hcp : (runCommand as s).cur.cp = s.cur.cp) :
    runCommand as ((runCommand as s).withPlan []) = runCommand as (s.withPlan []) := by
  have hlater := (runAccesses_progress (as.drop s.cur.flight.done) s).2.resolve_left (by rw [runCommand] at hcp; omega)
  have hresume := runAccesses_resume (as.drop s.cur.flight.done) s hcp
  rwa [List.drop_drop, Nat.add_sub_cancel' hlater.2.1.le] at hresume

theorem resolvePort_congr (h : t.nports = s.nports) (port : PortSel) : t.resolvePort port = s.resolvePort port := by
  cases port <;> simp [State.resolvePort, h]

/-- The accesses a command lists depend on the number of ports alone. -/
theorem listedAccesses_congr (h : t.nports = s.nports) (i : Instr) : listedAccesses i t = listedAccesses i s := by
  cases i <;> simp only [listedAccesses, resolvePort_congr h]

/-- A command that does not complete is a run of its listed accesses: an absent-port read would have completed. -/
theorem exec_listed_of_pause (h : exec i s = .next t) (hcp : t.cur.cp = s.cur.cp) (hn : x.nports = s.nports) :
    exec i x = .next (runCommand (listedAccesses i s) x) := by
  rw [← listedAccesses_congr hn]
  refine exec_listed (exec_next h).1 ?_
  rintro port n rfl
  rw [resolvePort_congr hn, Option.isSome_iff_ne_none]
  intro habsent
  obtain ⟨-, rfl | ⟨_, _, _, _, rfl⟩⟩ := exec_next h
  · simp [listedAccesses, habsent, runCommand_nil] at hcp
  · simp [runCommand_nil] at hcp

end Sys2Proof.Machine
end

section
/-! SUPPORT. Single accesses and single steps: reserved bits, the platform's words on the bus, the clock and pad steps, power-on. -/

namespace Sys2Proof.Machine

open Sys2Proof

variable {s t x : State} {p q k : Nat} {r : PortReg} {v w : Word} {n : Line}

/-! ### Reads -/

/-- A port register with 16 implemented bits reads as zero above them (R23, R27, R28). -/
theorem regRead_port_reserved (s : State) (p : Nat) (hr : implementedBits r = lowHalf) (hk : 16 ≤ k) :
    (s.regRead (.port p r)).getLsbD k = false := by
  rw [← regRead_and_implementedBits, hr, BitVec.getLsbD_and, lowHalf_getLsbD]
  simp [hk]

theorem regRead_exti_reserved (s : State) (r : ExtiReg) (hk : 16 ≤ k) : (s.regRead (.exti r)).getLsbD k = false := by
  rw [regRead_exti, BitVec.getLsbD_and, lowHalf_getLsbD]
  simp [hk]

/-- An `IDR` read samples the level of a clocked port (R27, R67). -/
theorem regRead_idr_bit (s : State) (p : Nat) (n : Line) :
    (s.regRead (.port p .idr)).getLsbD n = ((s.port p).clken && s.level p n) := by
  cases hc : (s.port p).clken
  · rw [regRead_gated hc]
    simp
  · rw [regRead_idr hc]
    exact idr_bit s p n

/-! ### The platform's words -/

/-- Ports whose registers are the same, with the same `EXTI`, store the same. -/
theorem sameRegsBut_nil (hp : ∀ q, (t.port q).regs = (s.port q).regs) (he : t.exti = s.exti) : SameRegsBut [] s t := by
  intro r _
  cases r with
  | port q r => rw [State.stored, hp, State.stored]
  | exti r => rw [State.stored, he, State.stored]

/-- Bit `p` of the clock control (R36, Table R61). -/
theorem platRead_clock_bit (s : State) (p : Fin 15) : (s.platRead .clockControl).getLsbD p = (s.port p).clken := by
  simp [State.platRead, show p.val < 32 by omega]

/-- Bit `v & 31` of vector-enable word `v >> 5` (R37, Table R61). -/
theorem platRead_vector_bit (s : State) (u : VectorId) :
    (s.platRead (vectorPlace u).1).getLsbD (vectorPlace u).2 = s.ven.getLsbD u := by
  simp [vectorPlace, State.platRead, Nat.mod_lt, Nat.div_add_mod]

/-- A write of a vector-enable word, vector by vector (R66 (f)). -/
theorem platWrite_vector_bit (s : State) (k : Fin 8) (w : Word) (u : VectorId) :
    (s.platWrite w (.vectorEnable k)).ven.getLsbD u =
      (s.ven.getLsbD u || (decide (u.val / 32 = k.val) && w.getLsbD (u.val % 32))) := by
  rw [State.platWrite, BitVec.getLsbD_or, BitVec.getLsbD_shiftLeft, BitVec.getLsbD_setWidth]
  by_cases hword : u.val / 32 = k.val
  · have hbit : u.val - 32 * k.val = u.val % 32 := by omega
    simp [hword, hbit, show ¬ u.val < 32 * k.val by omega, show u.val % 32 < 256 by omega]
  · obtain hlow | hhigh : u.val < 32 * k.val ∨ 32 ≤ u.val - 32 * k.val := by omega
    · simp [hword, hlow]
    · simp [hword, BitVec.getLsbD_of_ge w _ hhigh]

/-- The write `IEN` makes is one bit of a vector-enable word (R161). -/
theorem platWrite_vectorPlace (s : State) (u : VectorId) :
    s.platWrite (BitVec.twoPow 32 (vectorPlace u).2) (vectorPlace u).1 = s.enableVector u := by
  have hbit : (BitVec.twoPow 32 (u.val % 32)).setWidth 256 <<< (32 * (u.val / 32)) = BitVec.twoPow 256 u.val := by
    apply BitVec.eq_of_getLsbD_eq
    intro j hj
    rw [BitVec.getLsbD_shiftLeft, BitVec.getLsbD_setWidth, BitVec.getLsbD_twoPow, BitVec.getLsbD_twoPow, Bool.eq_iff_iff]
    simp
    omega
  simp only [vectorPlace, State.platWrite, State.enableVector, hbit]

/-- `ClockOn(p)` is the write of bit `p` of the clock control. -/
theorem clockOn_eq_platWrite (s : State) (p : Fin 15) :
    (Event.clockOn p).apply s = s.platWrite (BitVec.twoPow 32 p.val) .clockControl := by
  have hports : s.ports.modify p (fun q => { q with clken := true }) =
      s.ports.mapIdx fun j q => { q with clken := q.clken || (BitVec.twoPow 32 p.val).getLsbD j } := by
    refine List.ext_getElem (by simp) fun j h _ => ?_
    rw [List.getElem_modify, List.getElem_mapIdx, BitVec.getLsbD_twoPow]
    by_cases hj : p.val = j
    · simp [hj, show j < 32 by omega]
    · simp [hj]
  simp only [Event.apply, State.modifyPort, State.platWrite, hports]

theorem samePlatform_platWrite_vector (s : State) (k : Fin 8) (w : Word) : SamePlatform s (s.platWrite w (.vectorEnable k)) :=
  ⟨rfl, fun _ => ⟨rfl, rfl⟩⟩

theorem sameRequester_platWrite (s : State) (r : PlatReg) (w : Word) : SameRequester s (s.platWrite w r) := by
  simp [SameRequester]

theorem regs_platWrite (s : State) (r : PlatReg) (w : Word) (q : Nat) : ((s.platWrite w r).port q).regs = (s.port q).regs := by
  cases r with
  | clockControl =>
    rw [port_platWrite_clock]
    split <;> rfl
  | vectorEnable k => rfl

theorem pad_platWrite_clock (s : State) (w : Word) (q : Nat) : ((s.platWrite w .clockControl).port q).pad = (s.port q).pad := by
  rw [port_platWrite_clock]
  split <;> rfl

/-! ### The steps of the other agents -/

/-- A change of one port that leaves its registers leaves what every register stores. -/
theorem sameRegsBut_modifyPort (s : State) (p : Nat) (g : Port → Port) (hg : ∀ q, (g q).regs = q.regs) :
    SameRegsBut [] s (s.modifyPort p g) := by
  refine sameRegsBut_nil (fun q => ?_) rfl
  rw [port_modifyPort]
  split
  · exact hg _
  · rfl

/-- The pad levels of a port after one is driven (R38). -/
def drivenPads (pad : PinBits) (n : Line) (b : Bool) : PinBits :=
  if b then pad ||| BitVec.twoPow 16 n.val else pad &&& ~~~(BitVec.twoPow 16 n.val)

theorem apply_padDrive (s : State) (p : Nat) (n : Line) (b : Bool) : (Event.padDrive p n b).apply s =
    latchEdges s (s.modifyPort p fun q => { q with pad := drivenPads q.pad n b }) := rfl

theorem port_padDrive (s : State) (p : Nat) (n : Line) (b : Bool) (q : Nat) : ((Event.padDrive p n b).apply s).port q =
    if q = p ∧ p < s.nports then { s.port q with pad := drivenPads (s.port q).pad n b } else s.port q := by
  rw [apply_padDrive, port_latchEdges, port_modifyPort]

theorem port_clockOn (s : State) (p q : Nat) : ((Event.clockOn p).apply s).port q =
    if q = p ∧ p < s.nports then { s.port q with clken := true } else s.port q := port_modifyPort s p q _

theorem drivenPads_getLsbD (pad : PinBits) (n : Line) (b : Bool) (m : Line) :
    (drivenPads pad n b).getLsbD m = if m = n then b else pad.getLsbD m := by
  have hbit : (BitVec.twoPow 16 n.val).getLsbD m = decide (m = n) := by
    rw [BitVec.getLsbD_twoPow, Bool.eq_iff_iff]
    simp [Fin.ext_iff]
    omega
  cases b with
  | true =>
    rw [drivenPads, if_pos rfl, BitVec.getLsbD_or, hbit]
    by_cases hm : m = n <;> simp [hm]
  | false =>
    rw [drivenPads, if_neg nofun, BitVec.getLsbD_and, BitVec.getLsbD_not, hbit]
    by_cases hm : m = n <;> simp [hm]

/-- A latch of edges stores into `PR` only. -/
theorem sameRegsBut_latchEdges (s t : State) : SameRegsBut [.exti .pr] t (latchEdges s t) := by
  intro r hr
  cases r with
  | port q r => rfl
  | exti r =>
    cases r with
    | rtsr | ftsr | imr => rfl
    | pr => exact absurd (List.mem_singleton_self _) hr

theorem sameRegsBut_padDrive (s : State) (p : Nat) (n : Line) (b : Bool) :
    SameRegsBut [.exti .pr] s ((Event.padDrive p n b).apply s) := by
  intro r hr
  rw [apply_padDrive, sameRegsBut_latchEdges s _ r hr]
  exact sameRegsBut_modifyPort s p _ (by exact fun _ => rfl) r List.not_mem_nil

theorem pendingByEdges_padDrive (s : State) (p : Nat) (n : Line) (b : Bool) :
    PendingByEdges s ((Event.padDrive p n b).apply s) := pendingByEdges_latchEdges rfl rfl

/-! ### Power-on -/

/-- A port at power-on: registers zero, clock off, pads as the environment holds them (R45). -/
theorem port_powerOn (c : Config) (nports : Nat) (pads : List PinBits) (prog : List Word) (p : Nat) :
    (State.powerOn c (ResetValues.zero nports) pads prog).port p =
      ⟨PortRegs.zero, false, if p < nports then pads.getD p 0 else 0⟩ := by
  by_cases hp : p < nports <;>
    simp [State.port, State.powerOn, ResetValues.zero, List.getD_eq_getElem?_getD, hp]

@[simp] theorem get_zero (r : PortReg) : PortRegs.zero.get r = 0 := by cases r <;> rfl

theorem stored_powerOn (c : Config) (nports : Nat) (pads : List PinBits) (prog : List Word) (r : Reg) :
    (State.powerOn c (ResetValues.zero nports) pads prog).stored r = 0 := by
  cases r with
  | port p r => rw [State.stored, port_powerOn, get_zero]
  | exti r => cases r <;> rfl

end Sys2Proof.Machine
end

section
/-! PROOFS. The obligations of 10_state.md. -/

namespace Sys2Proof.Machine

open Sys2Proof

/-- Settles O12: an operand that fits is ORed into its own pin's field only, and `SAF` writes one of two registers. -/
theorem otherPinsArePreserved : Obligations.OtherPinsArePreserved := by
  rintro s t p n q hf ⟨hp, hc⟩ hq
  have hqn : q.val ≠ n.val := fun h => hq (Fin.ext h)
  have hport : s.resolvePort (.index p) = some p.val := resolve_index p hp
  refine ⟨fun mode otype speed pull af hquiet hm ho hs hu h => ?_, fun af hquiet h => ?_⟩
  · obtain rfl := exec_uninterrupted_next hf (fun _ => by simpa [accessCount, hport] using hquiet) h
    simp only [at_regRead, commandState, hport, Option.elim_some, regRead_cfgState_mode n mode otype speed pull hc,
      regRead_cfgState_otype n mode otype speed pull hc, regRead_cfgState_ospeed n mode otype speed pull hc,
      regRead_cfgState_pull n mode otype speed pull hc]
    exact ⟨pinFieldOf_orReg_other mode (by decide) (by decide) hc (Nat.lt_succ_of_le hm) (by omega) hqn,
      pinFieldOf_orReg_other otype (by decide) (by decide) hc (Nat.lt_succ_of_le ho) (by omega) hqn,
      pinFieldOf_orReg_other speed (by decide) (by decide) hc (Nat.lt_succ_of_le hs) (by omega) hqn,
      pinFieldOf_orReg_other pull (by decide) (by decide) hc (Nat.lt_succ_of_le hu) (by omega) hqn⟩
  · obtain rfl := exec_uninterrupted_next hf (fun _ => by simpa [accessCount, hport] using hquiet) h
    simp only [at_regRead, commandState, hport, Option.elim_some]
    change pinFieldOf 4 (q.val % 8) (State.regRead _ (.port p (afReg q))) = pinFieldOf 4 (q.val % 8) (s.regRead (.port p (afReg q)))
    by_cases hreg : afReg q = afReg n
    · rw [hreg]
      exact pinFieldOf_orReg_other af (afReg_ne_odr n) (afReg_ne_idr n) hc af.isLt (by omega) (nibble_ne_of_afReg_eq hq hreg)
    · rw [regRead_orReg_other (afReg_ne_idr q) hreg]

/-- Settles O17: the read samples the level, which for a looped pin is the output bit just written. -/
theorem writtenPinIsReadBackWhenLooped : Obligations.WrittenPinIsReadBackWhenLooped := by
  rintro s t p n b hf hquiet ⟨hp, hc⟩ h
  have hport : s.resolvePort (.index p) = some p.val := resolve_index p hp
  obtain rfl := exec_uninterrupted_next hf (fun _ => by simpa [accessCount, hport] using hquiet) h
  simp only [commandState, hport, Option.elim_some]
  refine (exec_rdp_level p n (fresh_at_commandCtx _ _ _ s) (by simpa using hc)).imp fun u hu => ⟨hu.1, ?_⟩
  rw [hu.2, level_at, level_regWrite_odr hc, bitOf_written _ b (Nat.le_of_lt_succ n.isLt)]
  rfl

/-- Settles O27: every write of a configuration, trigger or mask register is a read-modify-write that sets bits. -/
theorem uninterruptedCommandsClearNoConfigurationBit : Obligations.UninterruptedCommandsClearNoConfigurationBit := by
  intro i s t hf hquiet h
  obtain rfl := exec_uninterrupted_next hf (fun _ => hquiet) h
  have hkeeps := keepsOnes_commandState i s
  simp only [at_regRead]
  refine ⟨fun p r hr => hkeeps (.port p r) ?_ ?_ nofun, fun r hr => hkeeps (.exti r) nofun nofun ?_⟩
  · rintro _ ⟨⟩
    exact absurd hr (by decide)
  · rintro _ ⟨⟩
    exact absurd hr (by decide)
  · rintro ⟨⟩
    exact absurd hr (by decide)

/-- Settles O23: every register a command on `p` writes is one of `p`'s. -/
theorem portsAreIndependent : Obligations.PortsAreIndependent := by
  intro i s t p q hport hq h
  refine ⟨exec_induct (fun x => x.port q = s.port q) (fun a ha x hx => ?_) (fun _ hx => hx)
    (fun x hx => by rwa [port_complete]) (fun x b hx => by rwa [port_setRes]) h rfl, (persists_exec h).2.1⟩
  refine (port_perform (fun r hw => ?_) x).trans hx
  obtain ⟨p', r', hp', hr⟩ := port_of_mem_writtenRegs hport (mem_writtenRegs ha hw)
  obtain ⟨-, p'', hindex, hval⟩ := resolve_some hp'
  cases hindex
  cases hr
  exact hq hval.symm

/-- Settles O52: the normal form of an uninterrupted command has the accesses of Table R232 as its moves. -/
theorem uninterruptedCommandsTakeTheirAccesses : Obligations.UninterruptedCommandsTakeTheirAccesses := by
  intro i s hpin hf hquiet
  refine ⟨_, exec_uninterrupted hpin hf fun _ => hquiet, ?_⟩
  rw [at_cur, at_plan, commandState_plan]
  exact ⟨rfl, rfl, rfl, rfl⟩

/-- Settles O53: the accesses left at a pause are those the unpaused run goes on with, and no access depends on the plan. -/
theorem pauseAndResumeIsInvisible : Obligations.PauseAndResumeIsInvisible := by
  intro i s u d e hplan h hcp
  have hunplanned : { s with plan := [(d, e)] }.withPlan [] = s := by
    rw [← hplan]
    rfl
  have hlisted : ∀ x : State, x.nports = s.nports → exec i x = .next (runCommand (listedAccesses i s) x) :=
    fun x hn => exec_listed_of_pause (s := { s with plan := [(d, e)] }) h hcp hn
  have hu : u = runCommand (listedAccesses i s) { s with plan := [(d, e)] } :=
    Host.Outcome.next.inj (h.symm.trans (hlisted _ rfl))
  have hresume := runCommand_resume (listedAccesses i s) { s with plan := [(d, e)] } (by rw [← hu]; exact hcp)
  rw [← hu, hunplanned] at hresume
  rw [hlisted { u with plan := [] } (persists_exec h).2.1, hlisted s rfl]
  exact congrArg _ hresume

/-- Settles O38: the only writes that set a flag are a pad change and a store to `ODR`, and each runs the edge detector. -/
theorem pendingIsSetByArmedEdgesOnly : Obligations.PendingIsSetByArmedEdgesOnly := by
  intro s t n hforce h hs ht
  obtain ⟨e, rest, hplan, rfl⟩ | ⟨-, -, rfl⟩ | ⟨-, -, i, -, hi⟩ := step_next h
  · exact armedEdge_of_apply_sets (s := { s with plan := s.planAfter rest }) (fun m he => hforce m rest (by rw [hplan, he])) hs ht
  · simp [hs] at ht
  · exact armedEdge_of_exec_sets hi hs ht

/-- Settles O39: of the three kinds of step only a command clears a flag, and of the commands only `ICLR` of that line. -/
theorem pendingIsClearedByItsClearCommandOnly : Obligations.PendingIsClearedByItsClearCommandOnly := by
  intro s t n h hs ht
  obtain ⟨e, rest, hplan, rfl⟩ | ⟨-, -, rfl⟩ | ⟨hdue, hgoing, i, hdecode, hi⟩ := step_next h
  · have hkept := pending_apply_mono (s := { s with plan := s.planAfter rest }) e hs
    simp [hkept] at ht
  · simp [hs] at ht
  · exact ⟨hdue, (finished_iff _).1 hgoing, by rw [hdecode, iclr_of_exec_clears hi hs ht]⟩

/-- Settles O33: each word bit by bit; the state's other fields are framed by the laws of the bus write. -/
theorem platformBitsOnTheBus : Obligations.PlatformBitsOnTheBus := by
  intro s
  refine ⟨fun p => ⟨rfl, platRead_clock_bit s p⟩,
    fun v => ⟨rfl, fun k hk => ?_, platRead_vector_bit s v, platWrite_vectorPlace s v⟩,
    fun k w => ⟨platWrite_vector_bit s k w, samePlatform_platWrite_vector s k w, ?_, sameRequester_platWrite s _ w⟩,
    clockOn_eq_platWrite s,
    fun w => ⟨fun p hp => ?_, pad_platWrite_clock s w, by simp, by simp, ?_, sameRequester_platWrite s _ w⟩⟩
  · simp only [vectorPlace, ← hk]
  · exact sameRegsBut_nil (regs_platWrite s _ w) (platWrite_exti s _ w)
  · rw [port_platWrite_clock, if_pos hp]
  · exact sameRegsBut_nil (regs_platWrite s _ w) (platWrite_exti s _ w)

/-- Settles O35: the driven pad is one change of one port, and the edge detector runs on it in the same step. -/
theorem padDriveLatchesArmedEdges : Obligations.PadDriveLatchesArmedEdges := by
  intro s p n b rest hplan hp
  refine ⟨_, step_of_due hplan, fun m => ?_, fun q hq => ?_, fun q => ?_,
    modifyPort_nports { s with plan := s.planAfter rest } p _,
    (pendingByEdges_padDrive { s with plan := s.planAfter rest } p n b).congr ⟨rfl, rfl, rfl⟩ ⟨rfl, rfl, rfl⟩,
    sameRegsBut_padDrive { s with plan := s.planAfter rest } p n b, rfl, ⟨rfl, rfl, rfl, rfl, rfl⟩, rfl⟩
  · rw [port_padDrive, if_pos ⟨rfl, hp⟩]
    exact drivenPads_getLsbD _ n b m
  · rw [port_padDrive, if_neg fun h => hq h.1]
    rfl
  · rw [port_padDrive]
    split <;> rfl

/-- Settles O28: a read masks the reserved bits, whatever is stored. -/
theorem reservedBitsReadAsZero : Obligations.ReservedBitsReadAsZero := by
  intro s p k hk
  refine ⟨fun r hr => regRead_port_reserved s p ?_ hk, fun r => regRead_exti_reserved s r hk, regRead_idr_bit s p⟩
  revert r
  decide

/-- Settles O30: a write of `PR` is an AND with the complement of the word. -/
theorem pendingWriteClearsTheOnes : Obligations.PendingWriteClearsTheOnes := by
  intro s v
  refine ⟨fun n => ?_, sameBut_regWrite_exti, by simp [SameRequester]⟩
  rw [State.regWrite, Exti.set, BitVec.getLsbD_and, BitVec.getLsbD_not, BitVec.getLsbD_and, lowHalf_getLsbD]
  simp [show n.val < 32 by omega]

/-- Settles O34: the step is one change of one port's clock enable. -/
theorem clockOnSetsOnlyThatEnable : Obligations.ClockOnSetsOnlyThatEnable := by
  intro s p rest hplan hp
  have hport : ((Event.clockOn p).apply { s with plan := s.planAfter rest }).port p = { s.port p with clken := true } := by
    rw [port_clockOn, if_pos ⟨rfl, hp⟩]
    rfl
  refine ⟨_, step_of_due hplan, by rw [hport], by rw [hport], fun q hq => port_modifyPort_other _ p q _ hq,
    modifyPort_nports { s with plan := s.planAfter rest } p _, rfl,
    sameRegsBut_modifyPort { s with plan := s.planAfter rest } p _ fun _ => rfl, ⟨rfl, rfl, rfl, rfl, rfl⟩, rfl⟩

/-- Settles O58: each clause is a field of the power-on state. -/
theorem powerOnValues : Obligations.PowerOnValues := by
  intro c nports pads prog
  refine ⟨stored_powerOn c nports pads prog, fun p => by rw [port_powerOn], fun p hp => by rw [port_powerOn, if_pos hp], ?_,
    fun v => ?_, rfl, rfl, rfl, rfl⟩
  · simp [State.nports, State.powerOn, ResetValues.zero]
  · simp [State.powerOn]

end Sys2Proof.Machine
end

section
/-! SUPPORT. What a command writes at most; the interrupt-line commands against the ports; a service in progress; addresses. -/

namespace Sys2Proof.Machine

open Sys2Proof

variable {s t : State} {i : Instr} {a : Access} {p : Nat} {r : Reg} {v : Word} {l : List Reg}

/-! ### The frame of a command (Table R76) -/

/-- Only `IEN` enables a vector, its own (R161). -/
theorem ien_of_enableVector_mem {u : VectorId} (ha : .enableVector u ∈ listedAccesses i s) : ∃ n, i = .ien n u := by
  cases i with
  | ien n w =>
    obtain rfl : u = w := by simpa [listedAccesses, ienAccesses, rmwOr] using ha
    exact ⟨n, rfl⟩
  | cfg port _ _ _ _ _ _ => cases hp : s.resolvePort port <;> simp [listedAccesses, hp, cfgAccesses, rmwOr] at ha
  | rdp port _ => cases hp : s.resolvePort port <;> simp [listedAccesses, hp, rdpAccesses] at ha
  | wrp port _ b => cases hp : s.resolvePort port <;> cases b <;> simp [listedAccesses, hp, wrpAccesses, rmwOr, rmwAndn] at ha
  | tgl port _ => cases hp : s.resolvePort port <;> simp [listedAccesses, hp, tglAccesses] at ha
  | saf port _ _ => cases hp : s.resolvePort port <;> simp [listedAccesses, hp, safAccesses, rmwOr] at ha
  | iedg _ e => cases e <;> simp [listedAccesses, iedgAccesses, rmwOr] at ha
  | iclr _ => simp [listedAccesses, iclrAccesses] at ha

/-- A register write that is neither to `PR` nor to an `ODR` leaves the pending flags (R34, R163). -/
theorem pr_regWrite_other (hodr : ∀ p, r ≠ .port p .odr) (hpr : r ≠ .exti .pr) : (s.regWrite r v).exti.pr = s.exti.pr := by
  cases r with
  | exti r => exact sameBut_regWrite_exti.2.2 (.exti .pr) (by simpa using hpr.symm)
  | port p r =>
    cases hc : (s.port p).clken
    · rw [regWrite_gated hc]
    · rw [regWrite_port (fun h => hodr p (by rw [h])) hc, modifyPort_exti]

/-- A register that a write does not name keeps what it stores, the pending flags only if no `ODR` is written either. -/
theorem stored_regWrite_frame {y : Reg} (hy : y ≠ r) (hpr : y = .exti .pr → ∀ p, r ≠ .port p .odr) :
    (s.regWrite r v).stored y = s.stored y := by
  by_cases h : y = .exti .pr
  · subst h
    exact pr_regWrite_other (hpr rfl) hy.symm
  · exact stored_regWrite_other hy h

@[simp] theorem stored_setCur (s : State) (c : Ctx) (y : Reg) : (s.setCur c).stored y = s.stored y := by
  cases y <;> simp [State.stored]

/-- An access leaves what the registers store that it does not write. -/
theorem stored_perform_frame {y : Reg} (hy : a.writes ≠ some y) (hpr : y = .exti .pr → ∀ p, a.writes ≠ some (.port p .odr))
    (s : State) : (a.perform s).stored y = s.stored y := by
  rw [perform_eq_setCur, stored_setCur]
  obtain h | ⟨u, h⟩ | ⟨r, v, hr, h⟩ := effect_cases a s.cur.flight s <;> rw [h]
  · cases y <;> rfl
  · exact stored_regWrite_frame (fun h => hy (by rw [hr, h])) fun h p hodr => hpr h p (by rw [hr, hodr])

/-- A command leaves ports, clocks and pads, from wherever its accesses stand. -/
theorem samePlatform_exec (h : exec i s = .next t) : SamePlatform s t := by
  have hset : ∀ (x : State) (c : Ctx), SamePlatform s x → SamePlatform s (x.setCur c) :=
    fun x c hx => hx.trans ⟨nports_setCur x c, fun q => by simp⟩
  refine exec_induct (SamePlatform s) (fun a _ x hx => ?_) (fun _ hx => hx) (fun x hx => hset x _ hx)
    (fun x b hx => hset x _ hx) h ⟨rfl, fun _ => ⟨rfl, rfl⟩⟩
  obtain ⟨-, hnports, -, -, hports⟩ := perform_platform a x
  exact hx.trans ⟨hnports, hports⟩

/-- A command writes registers it lists only, and pending flags only where it lists them or an `ODR`. -/
theorem sameRegsBut_exec (h : exec i s = .next t) (hl : writtenRegs i s ⊆ l)
    (hpr : .exti .pr ∈ l ∨ ∀ p, .port p .odr ∉ l) : SameRegsBut l s t := by
  intro y hy
  refine exec_induct (fun x => x.stored y = s.stored y) (fun a ha x hx => ?_) (fun x hx => ?_)
    (fun x hx => (stored_setCur x _ y).trans hx) (fun x b hx => (stored_setCur x _ y).trans hx) h rfl
  · have hwrites : ∀ r, a.writes = some r → r ∈ l := fun r hr => hl (mem_writtenRegs ha hr)
    refine (stored_perform_frame (fun hr => hy (hwrites y hr)) ?_ x).trans hx
    rintro rfl p hodr
    exact hpr.resolve_left hy p (hwrites _ hodr)
  · rw [← hx]
    cases y <;> rfl

/-- A command that is not `IEN` of vector `u` leaves the enable of `u`. -/
theorem vectorEnable_exec {u : VectorId} (h : exec i s = .next t) (hi : ∀ n, i ≠ .ien n u) :
    t.ven.getLsbD u = s.ven.getLsbD u := by
  refine exec_induct (fun x => x.ven.getLsbD u = s.ven.getLsbD u) (fun a ha x hx => ?_) (fun _ hx => hx)
    (fun x hx => by simpa [State.complete] using hx) (fun x b hx => by simpa [State.setRes] using hx) h rfl
  rw [← hx, perform_eq_setCur, setCur_ven]
  cases a with
  | read _ | sample _ _ | latch _ _ | test _ _ => rfl
  | writeOr _ _ | writeAndn _ _ | writeOpposite _ _ | write _ _ => simp [Access.effect]
  | enableVector w =>
    obtain ⟨n, rfl⟩ := ien_of_enableVector_mem ha
    have huw : u.val ≠ w.val := fun huw => hi n (by rw [Fin.ext huw])
    simp [Access.effect, State.enableVector, huw]

/-- The frame of a command other than `IEN`, from wherever its accesses stand. -/
theorem sameBut_exec (h : exec i s = .next t) (hi : ∀ n u, i ≠ .ien n u) (hl : writtenRegs i s ⊆ l)
    (hpr : .exti .pr ∈ l ∨ ∀ p, .port p .odr ∉ l) : SameBut l s t := by
  refine ⟨samePlatform_exec h, ?_, sameRegsBut_exec h hl hpr⟩
  exact BitVec.eq_of_getLsbD_eq fun k hk => vectorEnable_exec (u := ⟨k, hk⟩) h fun n => hi n _

/-- The registers listed for a numbered port operand are those of that port, if it is implemented. -/
theorem index_elim_subset (s : State) (p : Fin 15) (f : Nat → List Reg) : (s.resolvePort (.index p)).elim [] f ⊆ f p := by
  by_cases hp : p.val < s.nports
  · rw [resolve_index p hp]
    exact List.Subset.refl _
  · rw [resolve_absent (port := .index p) (Nat.le_of_not_lt hp)]
    exact List.nil_subset _

/-- A command on an absent port leaves all register contents (R68, R120). -/
theorem commandState_absent {port : PortSel} (hport : portOf i = some port) (habsent : s.resolvePort port = none) :
    commandState i s = s := by
  cases i with
  | iedg _ _ | ien _ _ | iclr _ => cases hport
  | rdp _ _ => rfl
  | cfg _ _ _ _ _ _ _ | wrp _ _ _ | tgl _ _ | saf _ _ _ =>
    cases hport
    simp [commandState, habsent]

/-- On an absent port a command touches its own context and the plan only (R68). -/
theorem exec_absentPort_at {port : PortSel} (hport : portOf i = some port) (habsent : s.resolvePort port = none)
    (h : exec i s = .next t) : ∃ k c, t = s.at k c := by
  rw [exec_absentPort (exec_next h).1 hport habsent, commandState_absent hport habsent, Host.Outcome.next.injEq] at h
  exact ⟨_, _, h.symm⟩

/-- A command that stores to the `ODR` of its port latches the edges of the levels it changes, from wherever its accesses stand. -/
theorem pendingByEdges_exec {port : PortSel} (hport : portOf i = some port)
    (hodr : ∀ p, s.resolvePort port = some p → .port p .odr ∈ writtenRegs i s) (h : exec i s = .next t) : PendingByEdges s t := by
  cases hp : s.resolvePort port with
  | none =>
    obtain ⟨k, c, rfl⟩ := exec_absentPort_at hport hp h
    exact (PendingByEdges.refl s).at k c
  | some p =>
    obtain hnone | ⟨q, as, w, hlisted, hreads, hw⟩ := listed_odr i s
    · exact absurd (hodr p hp) (hnone p)
    obtain ⟨-, rfl | ⟨port', n, rfl, -, -⟩⟩ := exec_next h
    · rw [hlisted]
      exact pendingByEdges_runCommand hreads hw s
    · exact absurd (hodr p hp) List.not_mem_nil

/-- `ICLR` of one line leaves the flags of the others (R162). -/
theorem pending_exec_iclr {n m : Line} (hm : m ≠ n) (h : exec (.iclr n) s = .next t) :
    t.exti.pr.getLsbD m = s.exti.pr.getLsbD m := by
  refine exec_induct (fun x => x.exti.pr.getLsbD m = s.exti.pr.getLsbD m) (fun a ha x hx => ?_) (fun _ hx => hx)
    (fun x hx => by rwa [complete_exti]) (fun x b hx => by rwa [setRes_exti]) h rfl
  have hodr : ∀ p, a.writes ≠ some (.port p .odr) := fun p hw => by simpa [writtenRegs] using mem_writtenRegs ha hw
  rw [← hx]
  exact Bool.eq_iff_iff.2 ⟨pending_of_perform hodr, pending_perform_iclr (fun h => hm (Fin.ext h)) ha⟩

/-! ### The ports do not matter to an interrupt-line command (R170) -/

/-- The state with other ports, clocks and pads. -/
def State.withPorts (s : State) (others : List Port) : State := { s with ports := others }

/-- The register of the block an access reads or writes, if it accesses one. -/
def Access.reg : Access → Option Reg
  | .read r => some r
  | .sample r _ => some r
  | .latch r _ => some r
  | .test r _ => some r
  | .writeOr r _ => some r
  | .writeAndn r _ => some r
  | .writeOpposite r _ => some r
  | .write r _ => some r
  | .enableVector _ => none

section WithPorts
variable (s) (others : List Port)

theorem withPorts_setCur (c : Ctx) : (s.withPorts others).setCur c = (s.setCur c).withPorts others := by
  cases h : s.active <;> simp [State.withPorts, State.setCur, h]

theorem withPorts_tick : (s.withPorts others).tick = s.tick.withPorts others := rfl

theorem withPorts_complete : (s.withPorts others).complete = s.complete.withPorts others := withPorts_setCur s others _

theorem withPorts_eventDue : (s.withPorts others).eventDue = s.eventDue := rfl

theorem withPorts_endsCommand (a : Access) : a.endsCommand (s.withPorts others) = a.endsCommand s := by cases a <;> rfl

end WithPorts

/-- An access of no port register does the same whatever the ports are. -/
theorem withPorts_perform (ha : ∀ p r, a.reg ≠ some (.port p r)) (s : State) (others : List Port) :
    a.perform (s.withPorts others) = (a.perform s).withPorts others := by
  have hexti : ∀ r, a.reg = some r → ∃ e, r = .exti e := by
    intro r hr
    cases r with
    | port p r => exact absurd hr (ha p r)
    | exti e => exact ⟨e, rfl⟩
  rw [perform_eq_setCur, perform_eq_setCur, ← withPorts_setCur]
  cases a with
  | enableVector u => rfl
  | read r | sample r n | latch r n | test r n | writeOr r v | writeAndn r v | writeOpposite r v | write r v =>
    obtain ⟨e, rfl⟩ := hexti r rfl
    rfl

theorem runAccesses_withPorts (as : List Access) (has : ∀ a ∈ as, ∀ p r, a.reg ≠ some (.port p r)) (s : State)
    (others : List Port) : runAccesses as (s.withPorts others) = (runAccesses as s).withPorts others := by
  induction as generalizing s with
  | nil => rw [runAccesses, withPorts_tick, withPorts_complete, runAccesses]
  | cons a rest ih =>
    have hfirst : (a.perform (s.withPorts others)).tick = (a.perform s).tick.withPorts others := by
      rw [withPorts_perform (has a List.mem_cons_self), withPorts_tick]
    simp only [runAccesses, hfirst, withPorts_endsCommand, withPorts_eventDue, withPorts_complete,
      ih fun b hb => has b (List.mem_cons_of_mem a hb)]
    split
    · rfl
    · split <;> rfl

/-- The interrupt-line commands access `EXTI` and the vector enables only (Table R76). -/
theorem reg_of_mem_listed_line (hi : portOf i = none) (ha : a ∈ listedAccesses i s) (p : Nat) (r : PortReg) :
    a.reg ≠ some (.port p r) := by
  revert a
  cases i with
  | cfg _ _ _ _ _ _ _ | rdp _ _ | wrp _ _ _ | tgl _ _ | saf _ _ _ => cases hi
  | iedg n e => cases e <;> simp [listedAccesses, iedgAccesses, rmwOr, Access.reg]
  | ien n u => simp [listedAccesses, ienAccesses, rmwOr, Access.reg]
  | iclr n => simp [listedAccesses, iclrAccesses, Access.reg]

theorem listedAccesses_line (hi : portOf i = none) (s t : State) : listedAccesses i t = listedAccesses i s := by
  cases i with
  | cfg _ _ _ _ _ _ _ | rdp _ _ | wrp _ _ _ | tgl _ _ | saf _ _ _ => cases hi
  | iedg _ _ | ien _ _ | iclr _ => rfl

/-- An interrupt-line command does the same whatever the ports are. -/
theorem exec_withPorts (hi : portOf i = none) (h : exec i s = .next t) (others : List Port) :
    exec i (s.withPorts others) = .next (t.withPorts others) := by
  have hrun : ∀ x, exec i x = .next (runCommand (listedAccesses i s) x) := by
    intro x
    rw [exec_listed (exec_next h).1 (by rintro port n rfl; cases hi), listedAccesses_line hi s x]
  rw [hrun s, Host.Outcome.next.injEq] at h
  rw [hrun, ← h]
  exact congrArg _ (runAccesses_withPorts _ (fun a ha => reg_of_mem_listed_line hi (List.mem_of_mem_drop ha)) s others)

/-! ### A service in progress (R197, R199) -/

/-- The mainline stands at `main` while vector `u` is in service with the list `prog`. -/
def State.Serves (s : State) (main : Ctx) (u : VectorId) (prog : List Word) : Prop :=
  s.main = main ∧ ∃ ctx, s.active = some ⟨u, ctx⟩ ∧ ctx.prog = prog

section Serves
variable {main c : Ctx} {u : VectorId} {prog : List Word}

theorem serves_congr (h : s.Serves main u prog) (hm : t.main = s.main) (ha : t.active = s.active) :
    t.Serves main u prog := by
  unfold State.Serves
  rwa [hm, ha]

/-- The running context is the service's. -/
theorem serves_setCur (h : s.Serves main u prog) (hc : c.prog = s.cur.prog) : (s.setCur c).Serves main u prog := by
  obtain ⟨hmain, ctx, hactive, hprog⟩ := h
  refine ⟨(setCur_main_of_active s c hactive).trans hmain, c, by simp [State.setCur, hactive], ?_⟩
  rw [hc, State.cur, hactive]
  exact hprog

/-- A command runs inside the service. -/
theorem serves_exec (hs : s.Serves main u prog) (h : exec i s = .next t) : t.Serves main u prog := by
  refine exec_induct (State.Serves · main u prog) (fun a _ x hx => ?_) (fun _ hx => hx) (fun _ hx => serves_setCur hx rfl)
    (fun _ _ hx => serves_setCur hx rfl) h hs
  rw [perform_eq_setCur]
  exact serves_setCur (serves_congr hx (effect_main a _ x) (effect_active a _ x)) (by rw [cur_effect])

/-- The other agents' steps go on beside the service; a dispatch is no step (R199). -/
theorem serves_apply (hs : s.Serves main u prog) (e : Event) : (e.apply s).Serves main u prog := by
  refine serves_congr hs (apply_main e s).1 ?_
  obtain ⟨-, ctx, hactive, -⟩ := hs
  cases e with
  | padDrive _ _ _ | forcePending _ | clockOn _ => rfl
  | dispatch w => simp [Event.apply, State.dispatchable, hactive]

end Serves

theorem afterLast_of_active {svc : Service} (h : s.active = some svc) : s.afterLast = s.return.tick := by
  simp [State.afterLast, h]

/-! ### The write half of a read-modify-write (R75, R224) -/

/-- What a register of a clocked port stores after a write. -/
theorem stored_regWrite_port_same {r : PortReg} (hr : r ≠ .idr) (hc : (s.port p).clken = true) :
    (s.regWrite (.port p r) v).stored (.port p r) = v &&& implementedBits r := by
  rw [State.stored, port_regWrite hc, if_pos ⟨rfl, lt_nports_of_clken hc⟩, get_set_same _ _ hr]

/-- What a register of `EXTI` other than `PR` stores after a write. -/
theorem stored_regWrite_exti_same {r : ExtiReg} (hr : r ≠ .pr) :
    (s.regWrite (.exti r) v).stored (.exti r) = v &&& lowHalf := by
  rw [stored_regWrite_exti hr, if_pos rfl]

/-- A command on an implemented port goes on behind the accesses done. -/
theorem portCommand_resumed {as : Nat → List Access} {n d : Nat} (hn : n ≤ 15) (p : Fin 15) (hp : p.val < s.nports)
    (hd : s.cur.flight.done = d) : portCommand (.index p) n as s = .next (runAccesses ((as p).drop d) s) := by
  rw [portCommand, guardPin_ok hn, resolve_index p hp]
  simp only [runCommand, hd]

/-- An interrupt-line command goes on behind the accesses done. -/
theorem lineCommand_resumed {as : List Access} {n d : Nat} (hn : n ≤ 15) (hd : s.cur.flight.done = d) :
    guardPin n (.next (runCommand as s)) = .next (runAccesses (as.drop d) s) := by
  rw [guardPin_ok hn, runCommand, hd]

/-- What a write made now, with the in-flight record as it stands, puts into a register is there after the command, unless a later
access writes it again. -/
theorem exec_stored_next {rest : List Access} {w : Word} (h : exec i s = .next (runAccesses (a :: rest) s))
    (hrest : ∀ b ∈ rest, b.writes ≠ some r) (hpr : r ≠ .exti .pr) (heffect : a.effect s.cur.flight s = s.regWrite r w) :
    ∃ t, exec i s = .next t ∧ t.stored r = (s.regWrite r w).stored r := by
  refine ⟨_, h, ?_⟩
  rw [runAccesses_cons_stored a rest r s fun b hb x => stored_perform_frame (hrest b hb) (fun h => absurd h hpr) x,
    perform_eq_setCur, stored_setCur, heffect]

/-- The same in a register of a clocked port. -/
theorem exec_stored_port {rest : List Access} {r : PortReg} {w : Word} (h : exec i s = .next (runAccesses (a :: rest) s))
    (hrest : ∀ b ∈ rest, b.writes ≠ some (.port p r)) (hr : r ≠ .idr) (hc : (s.port p).clken = true)
    (heffect : a.effect s.cur.flight s = s.regWrite (.port p r) w) :
    ∃ t, exec i s = .next t ∧ t.stored (.port p r) = w &&& implementedBits r :=
  (exec_stored_next h hrest nofun heffect).imp fun _ ht => ⟨ht.1, ht.2.trans (stored_regWrite_port_same hr hc)⟩

/-- The same in a register of a clocked port that implements all its bits. -/
theorem exec_stored_fullPort {rest : List Access} {r : PortReg} {w : Word} (h : exec i s = .next (runAccesses (a :: rest) s))
    (hrest : ∀ b ∈ rest, b.writes ≠ some (.port p r)) (hr : implementedBits r = 0xFFFFFFFF) (hc : (s.port p).clken = true)
    (heffect : a.effect s.cur.flight s = s.regWrite (.port p r) w) : ∃ t, exec i s = .next t ∧ t.stored (.port p r) = w := by
  have hidr : r ≠ .idr := by
    rintro rfl
    exact absurd hr (by decide)
  refine (exec_stored_port h hrest hidr hc heffect).imp fun _ ht => ⟨ht.1, ht.2.trans ?_⟩
  rw [hr]
  exact BitVec.and_allOnes

/-- The same in a register of `EXTI`. -/
theorem exec_stored_exti {rest : List Access} {r : ExtiReg} {w : Word} (h : exec i s = .next (runAccesses (a :: rest) s))
    (hrest : ∀ b ∈ rest, b.writes ≠ some (.exti r)) (hr : r ≠ .pr)
    (heffect : a.effect s.cur.flight s = s.regWrite (.exti r) w) :
    ∃ t, exec i s = .next t ∧ t.exti.get r = w &&& lowHalf :=
  (exec_stored_next h hrest (by simpa using hr) heffect).imp fun _ ht => ⟨ht.1, ht.2.trans (stored_regWrite_exti_same hr)⟩

theorem implementedBits_afReg (n : Nat) : implementedBits (afReg n) = 0xFFFFFFFF := by
  unfold afReg
  split <;> rfl

/-! ### Addresses (R60, R61) -/

theorem busReg_all_sublist {m n : Nat} (h : m ≤ n) : (BusReg.all m).Sublist (BusReg.all n) :=
  (((List.range_sublist.2 h).flatMap _).append_right _ |>.map _).append_right _

/-- A map that is well formed for some ports is so for fewer. -/
theorem addrMap_wf_mono {A : AddrMap} {m n : Nat} (hwf : A.wf n) (h : m ≤ n) : A.wf m := by
  obtain ⟨hn, hnodup, haligned⟩ := hwf
  have hsub : (A.allAddrs m).Sublist (A.allAddrs n) := (busReg_all_sublist h).map _
  exact ⟨h.trans hn, hsub.nodup hnodup, fun a ha => haligned a (hsub.subset ha)⟩

/-- The default addresses of fifteen ports are aligned, and no two registers share one (R61). -/
theorem defaultAddr_wf_fifteen : AddrMap.default.wf 15 := by decide +kernel

section Address
variable {A : AddrMap} {nports : Nat} {b b' : BusReg} (hwf : A.wf nports)
include hwf

theorem busAddr_aligned (hb : b ∈ BusReg.all nports) : A.busAddr b % 4 = 0 := hwf.2.2 _ (List.mem_map_of_mem hb)

theorem busAddr_inj (hb : b ∈ BusReg.all nports) (hb' : b' ∈ BusReg.all nports) (h : A.busAddr b' = A.busAddr b) : b' = b :=
  List.inj_on_of_nodup_map hwf.2.1 hb' hb h

/-- A four-byte access at a register's address finds that register (R62). -/
theorem regAt_busAddr (hb : b ∈ BusReg.all nports) : regAt A nports (A.busAddr b) 4 = some b := by
  rw [regAt, if_pos rfl]
  cases hfind : (BusReg.all nports).find? fun b' => A.busAddr b' = A.busAddr b with
  | none => simpa using List.find?_eq_none.1 hfind b hb
  | some b' =>
    have haddr : A.busAddr b' = A.busAddr b := by simpa using List.find?_some hfind
    rw [busAddr_inj hwf hb (List.mem_of_find?_eq_some hfind) haddr]

end Address

/-- A four-byte access at a register's address is the access of that register (R62). -/
theorem mem_access_busAddr {b : BusReg} (hwf : s.config.addr.wf s.nports) (hb : b ∈ BusReg.all s.nports) (v : Word) :
    s.memRead (s.config.addr.busAddr b) 4 = some (s.busRead b) ∧
      s.memWrite (s.config.addr.busAddr b) 4 v = some (s.busWrite b v) := by
  rw [State.memRead, State.memWrite, regAt_busAddr hwf hb]
  exact ⟨rfl, rfl⟩

theorem block_mem_busReg_all {nports : Nat} (h : r ∈ Reg.all nports) : .block r ∈ BusReg.all nports :=
  List.mem_append_left _ (List.mem_map_of_mem h)

theorem plat_mem_busReg_all (r : PlatReg) (nports : Nat) : .plat r ∈ BusReg.all nports := by
  refine List.mem_append_right _ (List.mem_map_of_mem ?_)
  cases r with
  | clockControl => exact List.mem_cons_self
  | vectorEnable k => exact List.mem_cons_of_mem _ (List.mem_map_of_mem (List.mem_finRange k))

end Sys2Proof.Machine
end

section
/-! PROOFS. The obligations of 20_memory.md. -/

namespace Sys2Proof.Machine

open Sys2Proof

/-- Settles O24: `RDP` lists no register, `WRP` and `TGL` list the `ODR`, and the store to it runs the edge detector. -/
theorem dataCommandsLeaveTheRest : Obligations.DataCommandsLeaveTheRest := by
  intro s t p n
  -- `WRP` lists the same register as `TGL`.
  have hodr : ∀ q, s.resolvePort (.index p) = some q → .port q .odr ∈ writtenRegs (.tgl (.index p) n) s := by
    intro q hq
    simp [writtenRegs, hq]
  have hframe : writtenRegs (.tgl (.index p) n) s ⊆ [.port p .odr, .exti .pr] :=
    List.Subset.trans (index_elim_subset s p _) (by simp)
  exact ⟨fun h => sameBut_exec h nofun (List.nil_subset _) (.inr fun _ => List.not_mem_nil),
    fun v h => ⟨sameBut_exec h nofun hframe (.inl (by simp)), pendingByEdges_exec (i := .wrp (.index p) n v) rfl hodr h⟩,
    fun h => ⟨sameBut_exec h nofun hframe (.inl (by simp)), pendingByEdges_exec rfl hodr h⟩⟩

/-- Settles O25: each command is framed by the registers its accesses write, and only `IEN` enables a vector. -/
theorem commandsWriteOnlyTheirRegisters : Obligations.CommandsWriteOnlyTheirRegisters := by
  intro s t n
  refine ⟨fun p mode otype speed pull af h => ?cfg, fun p af h => ⟨fun hn => ?safLow, fun hn => ?safHigh⟩,
    fun h => ?rising, fun h => ?falling, fun h => ?both, fun h => ?neither, fun c h => ?unrecognised,
    fun v h => ⟨samePlatform_exec h, ?ienRegs, fun u hu => ?ienVectors⟩,
    fun h => ⟨?iclrRegs, fun m hm => pending_exec_iclr hm h⟩, fun i port hport habsent h => ?absent⟩
  case cfg => exact sameBut_exec h nofun (index_elim_subset s p _) (.inr (by simp))
  case safLow =>
    have haf : afReg n = .afl := if_pos hn
    rw [← haf]
    exact sameBut_exec h nofun (index_elim_subset s p _) (.inr (by simp [haf]))
  case safHigh =>
    have haf : afReg n = .afh := if_neg (by omega)
    rw [← haf]
    exact sameBut_exec h nofun (index_elim_subset s p _) (.inr (by simp [haf]))
  case rising | falling | both | neither | unrecognised =>
    exact sameBut_exec h nofun (List.Subset.refl _) (.inr (by simp))
  case ienRegs => exact sameRegsBut_exec h (List.Subset.refl _) (.inr (by simp))
  case ienVectors =>
    refine vectorEnable_exec h ?_
    rintro m ⟨⟩
    exact hu rfl
  case iclrRegs => exact sameBut_exec h nofun (List.Subset.refl _) (.inl (by simp))
  case absent =>
    obtain ⟨k, c, rfl⟩ := exec_absentPort_at hport (resolve_absent habsent) h
    exact sameBut_at s k c

/-- Settles O26: every access of an interrupt-line command commutes with a change of the ports; with the ports as they are, this
says that they stay. -/
theorem lineCommandsAreBlindToPorts : Obligations.LineCommandsAreBlindToPorts := by
  intro i s t others hi h
  have hsame : t = t.withPorts s.ports := Host.Outcome.next.inj (h.symm.trans (exec_withPorts hi h s.ports))
  exact ⟨by rw [hsame]; rfl, exec_withPorts hi h others⟩

/-- Settles O31: the addresses have no duplicate, so the register found at one is the one it belongs to; the default map is
well formed for the most ports, hence for fewer. -/
theorem addressMapIsInjective : Obligations.AddressMapIsInjective :=
  ⟨fun _ hn => addrMap_wf_mono defaultAddr_wf_fifteen hn, fun _ _ hwf _ hr => ⟨busAddr_aligned hwf hr, regAt_busAddr hwf hr,
    fun _ hr' => busAddr_inj hwf hr hr', fun _ _ hwidth => if_neg hwidth⟩⟩

/-- Settles O32: block and platform registers are both on the bus. -/
theorem addressedAccessReachesTheRegister : Obligations.AddressedAccessReachesTheRegister := by
  intro s v hwf
  have hplat := fun r => mem_access_busAddr hwf (plat_mem_busReg_all r s.nports) v
  exact ⟨fun r hr => mem_access_busAddr hwf (block_mem_busReg_all hr) v, (hplat .clockControl).1, (hplat .clockControl).2,
    fun k => hplat (.vectorEnable k)⟩

/-- Settles O43: events and commands keep the service, and at the end of its list a service returns. -/
theorem serviceRunsToItsEnd : Obligations.ServiceRunsToItsEnd := by
  intro s t svc hactive h
  have hserves : s.Serves s.main svc.vector svc.ctx.prog := ⟨rfl, svc.ctx, hactive, rfl⟩
  obtain ⟨e, rest, -, rfl⟩ | ⟨hdue, hfinished, rfl⟩ | ⟨-, -, i, -, hi⟩ := step_next h
  · exact (serves_apply (s := { s with plan := s.planAfter rest }) hserves e).imp id .inl
  · rw [afterLast_of_active hactive]
    refine ⟨rfl, .inr ⟨rfl, hdue, ?_⟩⟩
    simpa [Ctx.finished, State.cur, hactive] using hfinished
  · exact (serves_exec hserves hi).imp id .inl

/-- Settles O54: the write next in line is made with the in-flight values, and no later access of the command touches its register. -/
theorem staleReadIsWrittenBack : Obligations.StaleReadIsWrittenBack := by
  intro s p n
  have hn : n.val ≤ 15 := Nat.le_of_lt_succ n.isLt
  rw [twoPow_eq_pinMask]
  refine ⟨fun hd hready => ⟨fun v => ?wrp, fun af => ?saf⟩, fun hd hready => ?tgl,
    fun hd => ⟨?rising, ?falling, ?bothRising, fun v => ?ien⟩, fun hd => ?bothFalling,
    fun mode otype speed pull af hready => ⟨fun hd => ?mode, fun hd => ?otype, fun hd => ?ospeed, fun hd => ?pull⟩⟩
  case wrp =>
    cases v with
    | true => exact exec_stored_port (portCommand_resumed hn p hready.1 hd) nofun (by decide) hready.2 rfl
    | false => exact exec_stored_port (portCommand_resumed hn p hready.1 hd) nofun (by decide) hready.2 rfl
  case saf => exact exec_stored_fullPort (portCommand_resumed hn p hready.1 hd) nofun (implementedBits_afReg n) hready.2 rfl
  case tgl => exact exec_stored_port (portCommand_resumed hn p hready.1 hd) nofun (by decide) hready.2 rfl
  case rising => exact exec_stored_exti (r := .rtsr) (lineCommand_resumed hn hd) nofun (by decide) rfl
  case falling | bothFalling => exact exec_stored_exti (r := .ftsr) (lineCommand_resumed hn hd) nofun (by decide) rfl
  case bothRising =>
    exact exec_stored_exti (r := .rtsr) (lineCommand_resumed hn hd) (by simp [rmwOr, Access.writes]) (by decide) rfl
  case ien => exact exec_stored_exti (r := .imr) (lineCommand_resumed hn hd) (by simp [Access.writes]) (by decide) rfl
  case mode =>
    exact exec_stored_fullPort (portCommand_resumed hn p hready.1 hd) (by simp [rmwOr, Access.writes]) rfl hready.2 rfl
  case otype =>
    have hfield : otype.setWidth 32 <<< n.val = toField otype 1 n := by rw [toField, Nat.one_mul]
    rw [hfield]
    exact exec_stored_port (portCommand_resumed hn p hready.1 hd) (by simp [rmwOr, Access.writes]) (by decide) hready.2 rfl
  case ospeed =>
    exact exec_stored_fullPort (portCommand_resumed hn p hready.1 hd) (by simp [rmwOr, Access.writes]) rfl hready.2 rfl
  case pull => exact exec_stored_fullPort (portCommand_resumed hn p hready.1 hd) nofun rfl hready.2 rfl

/-- Settles O8: the pin guard is the only check a command makes. -/
theorem pinUpToFifteenIsTaken : Obligations.PinUpToFifteenIsTaken := by
  intro i s hpin
  cases i with
  | cfg _ _ _ _ _ _ _ | rdp _ _ | wrp _ _ _ | tgl _ _ | saf _ _ _ | iedg _ _ | ien _ _ | iclr _ => exact ⟨_, guardPin_ok hpin⟩

/-- Settles O29: a gated port is neither read nor written, and an access of `EXTI` never looks at the ports. -/
theorem gatedPortReadsZeroAndIgnoresWrites : Obligations.GatedPortReadsZeroAndIgnoresWrites :=
  ⟨fun _ _ _ _ hgated => ⟨regRead_gated hgated, regWrite_gated hgated⟩,
    fun _ _ _ _ => ⟨rfl, rfl⟩⟩

end Sys2Proof.Machine
end

section
/-! SUPPORT. The decoder operation by operation, its rows against Table R104, and what a step makes of its verdict. -/

namespace Sys2Proof

variable {w : Word} {i : Instr} {row row' : OpcodeRow}

/-! ### The decoder by the `OP` field (R92 to R98) -/

theorem decode_cfg (h : opField w = 1) : decode w = ifFixed w 0xF0008000 0x10000000
    (.cfg (portSelOf (portField w)) (pinField w).toNat ((argField w).extractLsb' 0 3) ((argField w).extractLsb' 3 2)
      ((argField w).extractLsb' 5 3) ((argField w).extractLsb' 8 3) ((argField w).extractLsb' 11 4)) := by
  rw [decode, h]; rfl

theorem decode_rdp (h : opField w = 2) :
    decode w = ifFixed w 0xF000FFFF 0x20000000 (.rdp (portSelOf (portField w)) (pinField w).toNat) := by
  rw [decode, h]; rfl

theorem decode_wrp (h : opField w = 3) : decode w = ifFixed w 0xF000FFFE 0x30000000
    (.wrp (portSelOf (portField w)) (pinField w).toNat ((argField w).getLsbD 0)) := by
  rw [decode, h]; rfl

theorem decode_tgl (h : opField w = 4) :
    decode w = ifFixed w 0xF000FFFF 0x40000000 (.tgl (portSelOf (portField w)) (pinField w).toNat) := by
  rw [decode, h]; rfl

theorem decode_saf (h : opField w = 5) : decode w = ifFixed w 0xF000FFF0 0x50000000
    (.saf (portSelOf (portField w)) (pinField w).toNat ((argField w).extractLsb' 0 4)) := by
  rw [decode, h]; rfl

theorem decode_iedg (h : opField w = 6) : decode w = ifFixed w 0xFF00FFF0 0x60000000
    (.iedg (pinField w).toNat (edgeSelOf ((argField w).extractLsb' 0 4))) := by
  rw [decode, h]; rfl

theorem decode_ien (h : opField w = 7) : decode w = ifFixed w 0xFF00FF00 0x70000000
    (.ien (pinField w).toNat (vectorOf ((argField w).extractLsb' 0 8))) := by
  rw [decode, h]; rfl

theorem decode_iclr (h : opField w = 8) :
    decode w = ifFixed w 0xFF00FFFF 0x80000000 (.iclr (pinField w).toNat) := by
  rw [decode, h]; rfl

/-- The operation codes that no row has (R92, R101). -/
def reservedOps : List (BitVec 4) := [0, 9, 10, 11, 12, 13, 14, 15]

theorem opField_listed_or_reserved (op : BitVec 4) :
    (∃ row ∈ opcodeTable, op = opField row.matchWord) ∨ op ∈ reservedOps := by
  revert op; decide

theorem decode_reserved (h : opField w ∈ reservedOps) : decode w = .invalid .reservedOpcode := by
  simp only [reservedOps, List.mem_cons, List.not_mem_nil, or_false] at h
  rcases h with h | h | h | h | h | h | h | h <;> rw [decode, h] <;> rfl

/-! ### The rows of Table R104 -/

theorem row_eq_of_opField_eq : ∀ row ∈ opcodeTable, ∀ row' ∈ opcodeTable,
    opField row'.matchWord = opField row.matchWord → row' = row := by decide

theorem row_eq_of_mnemonic_eq : ∀ row ∈ opcodeTable, ∀ row' ∈ opcodeTable,
    row'.mnemonic = row.mnemonic → row' = row := by decide

/-- No two rows match one word (R101). -/
theorem row_eq_of_match (hr : row ∈ opcodeTable) (hr' : row' ∈ opcodeTable) (h : w &&& row.mask = row.matchWord)
    (h' : w &&& row'.mask = row'.matchWord) : row' = row :=
  row_eq_of_opField_eq row hr row' hr' ((opField_of_match hr' h').symm.trans (opField_of_match hr h))

/-- The argument of `WRP` is its lowest bit (R94). -/
theorem boolArg_of_mask {arg : BitVec 16} (h : arg &&& 0xFFFE = 0) : (if arg.getLsbD 0 then 1 else 0) = arg := by
  rw [← low_of_mask arg 1 0xFFFE (by decide) h]
  generalize arg.extractLsb' 0 1 = b
  revert b; decide

/-- A matching word is packed again from its operation code, its pin field, and any port and argument that agree with the word's
own fields once the must-be-zero bits are zero. -/
theorem pack_of_match (op mport : BitVec 4) (marg : BitVec 16) {port : BitVec 4} {arg : BitVec 16}
    (hport : portField w &&& mport = 0 → port = portField w) (harg : argField w &&& marg = 0 → arg = argField w)
    (h : w &&& pack 0xF mport 0 marg = pack op 0 0 0) : pack op port (BitVec.ofNat 8 (pinField w).toNat) arg = w := by
  obtain ⟨hop, hp, -, ha⟩ := (masked_iff w 0xF op mport 0 0 0 marg 0).1 h
  have hop' : op = opField w := hop.symm.trans BitVec.and_allOnes
  rw [hport hp, harg ha, hop', BitVec.ofNat_toNat, BitVec.setWidth_eq, pack_fields]

/-- What the decoder does at the `OP` of a row: it checks the row's mask, and the command it has cut out is one of the row, well
formed, and encoded by the word when the mask allows it. -/
theorem decode_row (hr : row ∈ opcodeTable) (hop : opField w = opField row.matchWord) :
    ∃ i, i.mnemonic = row.mnemonic ∧ decode w = ifFixed w row.mask row.matchWord i ∧ i.wellFormed = true ∧
      (w &&& row.mask = row.matchWord → encode i = w) := by
  have hpin := pinFits_pinField w
  -- The port is read whole, or must be zero; so is the argument.
  have hsel : portField w &&& 0 = 0 → (portSelOf (portField w)).bits = portField w := fun _ => bits_portSelOf _
  have hnoPort : portField w &&& 0xF = 0 → 0 = portField w := fun h => h.symm.trans BitVec.and_allOnes
  have hnoArg : argField w &&& 0xFFFF = 0 → 0 = argField w := fun h => h.symm.trans BitVec.and_allOnes
  simp only [opcodeTable, List.mem_cons, List.not_mem_nil, or_false] at hr
  obtain rfl | rfl | rfl | rfl | rfl | rfl | rfl | rfl := hr
  · exact ⟨_, rfl, decode_cfg hop, hpin, pack_of_match 1 0 0x8000 hsel (cfgArg_of_fields _)⟩
  · exact ⟨_, rfl, decode_rdp hop, hpin, pack_of_match 2 0 0xFFFF hsel hnoArg⟩
  · exact ⟨_, rfl, decode_wrp hop, hpin, pack_of_match 3 0 0xFFFE hsel boolArg_of_mask⟩
  · exact ⟨_, rfl, decode_tgl hop, hpin, pack_of_match 4 0 0xFFFF hsel hnoArg⟩
  · exact ⟨_, rfl, decode_saf hop, hpin, pack_of_match 5 0 0xFFF0 hsel (low_of_mask _ 4 0xFFF0 (by decide))⟩
  · refine ⟨_, rfl, decode_iedg hop, by simp [Instr.wellFormed, hpin, edgeSelOf_wellFormed], ?_⟩
    exact pack_of_match 6 0xF 0xFFF0 hnoPort fun h => by rw [bits_edgeSelOf, low_of_mask _ 4 0xFFF0 (by decide) h]
  · refine ⟨_, rfl, decode_ien hop, hpin, pack_of_match 7 0xF 0xFF00 hnoPort fun h => ?_⟩
    rw [vectorOf, BitVec.ofNat_toNat, BitVec.setWidth_eq, low_of_mask _ 8 0xFF00 (by decide) h]
  · exact ⟨_, rfl, decode_iclr hop, hpin, pack_of_match 8 0xF 0xFFFF hnoPort hnoArg⟩

/-- A word that matches a row decodes to a command of its mnemonic (R104). -/
theorem decode_of_match (hr : row ∈ opcodeTable) (h : w &&& row.mask = row.matchWord) :
    ∃ i, decode w = .command i ∧ i.mnemonic = row.mnemonic := by
  obtain ⟨i, hmnemonic, hdecode, -, -⟩ := decode_row hr (opField_of_match hr h)
  exact ⟨i, by rw [hdecode, ifFixed_eq_command]; exact ⟨h, rfl⟩, hmnemonic⟩

/-- INVERSION of decode: a command comes from a row that the word matches; it is well formed and the word encodes it. -/
theorem decode_command (h : decode w = .command i) :
    i.wellFormed = true ∧ encode i = w ∧ ∃ row ∈ opcodeTable, w &&& row.mask = row.matchWord := by
  obtain ⟨row, hr, hop⟩ | hop := opField_listed_or_reserved (opField w)
  · obtain ⟨j, -, hdecode, hwf, hencode⟩ := decode_row hr hop
    rw [hdecode, ifFixed_eq_command] at h
    obtain ⟨hmatch, rfl⟩ := h
    exact ⟨hwf, hencode hmatch, row, hr, hmatch⟩
  · rw [decode_reserved hop] at h
    cases h

theorem decode_of_no_match (h : ∀ row ∈ opcodeTable, w &&& row.mask ≠ row.matchWord) : ∃ why, decode w = .invalid why := by
  cases hdecode : decode w with
  | command i =>
    obtain ⟨-, -, row, hr, hmatch⟩ := decode_command hdecode
    exact absurd hmatch (h row hr)
  | invalid why => exact ⟨why, rfl⟩

/-! ### The encoder -/

/-- The word of a well-formed instruction matches some row of its mnemonic. -/
theorem encode_matches_some_row (h : i.wellFormed = true) :
    ∃ row ∈ opcodeTable, row.mnemonic = i.mnemonic ∧ row.matchesWord (encode i) = true := by
  cases i with
  | cfg port pin mode otype speed pull af => exact Laws.WordMatchesRow.cfg port pin mode otype speed pull af h
  | rdp port pin => exact Laws.WordMatchesRow.rdp port pin h
  | wrp port pin value => exact Laws.WordMatchesRow.wrp port pin value h
  | tgl port pin => exact Laws.WordMatchesRow.tgl port pin h
  | saf port pin af => exact Laws.WordMatchesRow.saf port pin af h
  | iedg pin edge => exact Laws.WordMatchesRow.iedg pin edge h
  | ien pin vector => exact Laws.WordMatchesRow.ien pin vector h
  | iclr pin => exact Laws.WordMatchesRow.iclr pin h

/-- The word of a well-formed instruction matches the row of its mnemonic. -/
theorem encode_matches_own_row (hr : row ∈ opcodeTable) (hm : row.mnemonic = i.mnemonic) (h : i.wellFormed = true) :
    encode i &&& row.mask = row.matchWord := by
  obtain ⟨row', hr', hm', hmatch⟩ := encode_matches_some_row h
  rw [← row_eq_of_mnemonic_eq row hr row' hr' (hm'.trans hm.symm)]
  simpa [OpcodeRow.matchesWord] using hmatch

/-- The encoded word decodes when its own fields, cut out again, give the instruction back. -/
theorem decode_encode_of_fields {j : Instr} (row : OpcodeRow) (hr : row ∈ opcodeTable) (hm : row.mnemonic = i.mnemonic)
    (h : i.wellFormed = true) (hdecode : opField (encode i) = opField row.matchWord →
      decode (encode i) = ifFixed (encode i) row.mask row.matchWord j) (hj : j = i) : decode (encode i) = .command i := by
  have hmatch := encode_matches_own_row hr hm h
  rw [hdecode (opField_of_match hr hmatch), ifFixed_eq_command]
  exact ⟨hmatch, hj⟩

theorem extractLsb'_arg {k : Nat} (b : BitVec k) (hk : k ≤ 16) : (b.setWidth 16).extractLsb' 0 k = b := by
  rw [BitVec.extractLsb'_setWidth_of_le (by omega), BitVec.extractLsb'_eq_self]

@[simp] theorem vectorOf_ofFin (v : VectorId) : vectorOf (.ofFin v) = v := rfl

end Sys2Proof

namespace Sys2Proof.Machine

open Sys2Proof

variable {s : State} {i : Instr}

theorem guardPin_refused {pin : Nat} (h : 16 ≤ pin) (r : Result) : guardPin pin r = .refused .pinOutOfRange :=
  if_neg (by omega)

theorem step_command (hdue : s.eventDue = false) (hcp : s.cur.cp < s.cur.prog.length) (h : decode s.fetch = .command i) :
    step s = exec i s := by
  simp [step_not_due hdue, (finished_iff _).2 hcp, h]

theorem step_invalid {why : Invalid} (hdue : s.eventDue = false) (hcp : s.cur.cp < s.cur.prog.length)
    (h : decode s.fetch = .invalid why) : step s = .refused .invalidCommand := by
  simp [step_not_due hdue, (finished_iff _).2 hcp, h]

end Sys2Proof.Machine
end

section
/-! PROOFS. The obligations of 30_encoding.md. -/

namespace Sys2Proof.Machine

open Sys2Proof

/-- Settles O2: the encoded word matches the row of its mnemonic, and its fields are the operands. -/
theorem decodeOfEncodeIsTheInstruction : Obligations.DecodeOfEncodeIsTheInstruction := by
  intro i h
  cases i with
  | cfg port pin mode otype speed pull af =>
    obtain ⟨hmode, hotype, hspeed, hpull, haf, -⟩ := cfgArg_fields mode otype speed pull af
    refine decode_encode_of_fields opcodeTable[0] (List.getElem_mem _) rfl h decode_cfg ?_
    simp [encode, pin_toNat h, hmode, hotype, hspeed, hpull, haf]
  | rdp port pin =>
    refine decode_encode_of_fields opcodeTable[1] (List.getElem_mem _) rfl h decode_rdp ?_
    simp [encode, pin_toNat h]
  | wrp port pin value =>
    refine decode_encode_of_fields opcodeTable[2] (List.getElem_mem _) rfl h decode_wrp ?_
    cases value <;> simp [encode, pin_toNat h]
  | tgl port pin =>
    refine decode_encode_of_fields opcodeTable[3] (List.getElem_mem _) rfl h decode_tgl ?_
    simp [encode, pin_toNat h]
  | saf port pin af =>
    refine decode_encode_of_fields opcodeTable[4] (List.getElem_mem _) rfl h decode_saf ?_
    simp [encode, pin_toNat h, extractLsb'_arg]
  | iedg pin edge =>
    obtain ⟨hpin, hedge⟩ : pinFits pin = true ∧ edge.wellFormed = true := by simpa [Instr.wellFormed] using h
    refine decode_encode_of_fields opcodeTable[5] (List.getElem_mem _) rfl h decode_iedg ?_
    simp [encode, pin_toNat hpin, extractLsb'_arg, edgeSelOf_bits hedge]
  | ien pin vector =>
    refine decode_encode_of_fields opcodeTable[6] (List.getElem_mem _) rfl h decode_ien ?_
    simp [encode, pin_toNat h, extractLsb'_arg]
  | iclr pin =>
    refine decode_encode_of_fields opcodeTable[7] (List.getElem_mem _) rfl h decode_iclr ?_
    simp [encode, pin_toNat h]

/-- Settles O3: the operands are all the bits of the word that a row's mask leaves free. -/
theorem encodeOfDecodeIsTheWord : Obligations.EncodeOfDecodeIsTheWord := by
  intro w i h
  obtain ⟨hwf, hencode, -⟩ := decode_command h
  exact ⟨hwf, hencode⟩

/-- Settles O4: a matching row has the word's operation code, which tells the rows apart and which the decoder follows. -/
theorem decoderFollowsTheOpcodeTable : Obligations.DecoderFollowsTheOpcodeTable :=
  ⟨rfl, fun _ => ⟨fun _ hr h => ⟨decode_of_match hr h, fun _ hr' h' => row_eq_of_match hr hr' h h'⟩, decode_of_no_match⟩⟩

/-- Settles O7: the guard on the pin is the first thing every command does. -/
theorem pinAboveFifteenIsRefused : Obligations.PinAboveFifteenIsRefused := by
  intro i s hpin
  cases i with
  | cfg _ _ _ _ _ _ _ | rdp _ _ | wrp _ _ _ | tgl _ _ | saf _ _ _ | iedg _ _ | ien _ _ | iclr _ =>
    exact guardPin_refused hpin _

theorem exec_ne_invalidCommand (i : Instr) (s : State) : exec i s ≠ .refused .invalidCommand := by
  obtain hpin | hpin := Nat.lt_or_ge i.pin 16
  · obtain ⟨t, ht⟩ := pinUpToFifteenIsTaken i s (by omega)
    simp [ht]
  · simp [pinAboveFifteenIsRefused i s hpin]

/-- Settles O5: the step refuses where the decoder answers invalid, and no command answers that refusal. -/
theorem invalidWordsAreRefused : Obligations.InvalidWordsAreRefused := by
  intro s hdue hcp
  constructor
  · intro hno
    obtain ⟨why, hdecode⟩ := decode_of_no_match hno
    exact step_invalid hdue hcp hdecode
  · rintro ⟨row, hr, hmatch⟩
    obtain ⟨i, hdecode, -⟩ := decode_of_match hr hmatch
    rw [step_command hdue hcp hdecode]
    exact exec_ne_invalidCommand i s

/-- Settles O1 by running the decoder on the eight words. -/
theorem writtenWordsDecode : Obligations.WrittenWordsDecode := by
  unfold Obligations.WrittenWordsDecode
  decide

end Sys2Proof.Machine
end

section
/-! SUPPORT. What a completed command leaves of its requester, on every kind of port; the registers and fields after `CFG` and `SAF`. -/

namespace Sys2Proof.Machine

open Sys2Proof

variable {s t : State} {i : Instr} {p : Nat} {r : PortReg} {v : Word}

/-! ### The requester, and ports without effect -/

/-- The register contents of a command are apart from the requester. -/
theorem sameRequester_commandState (i : Instr) (s : State) : SameRequester s (commandState i s) := by
  cases i with
  | cfg port _ _ _ _ _ _ | wrp port _ _ | tgl port _ | saf port _ _ =>
    cases hp : s.resolvePort port <;> simp [SameRequester, commandState, hp, cfgState, State.orReg]
  | rdp _ _ => exact ⟨rfl, rfl, rfl, rfl, rfl⟩
  | iedg _ e => cases e <;> simp [SameRequester, commandState, iedgState, State.orReg]
  | ien _ _ => simp [SameRequester, commandState, State.orReg]
  | iclr n => cases hb : bitOf s.exti.pr n <;> simp [SameRequester, commandState, hb]

/-- The normal form of an uninterrupted command has its requester past the command (R41). -/
theorem completed_commandState (i : Instr) (s : State) (k : Nat) :
    Completed (commandResult i s) s ((commandState i s).at k (commandCtx i s)) := by
  obtain ⟨hmain, hactive, hconfig, hdraws, hcycle⟩ := sameRequester_commandState i s
  exact completed_at ⟨hmain, hactive⟩ hdraws hconfig hcycle rfl rfl rfl

/-- A command on a port whose clock is off leaves all register contents (R67). -/
theorem commandState_gated {port : PortSel} (hport : portOf i = some port) (hp : s.resolvePort port = some p)
    (hc : (s.port p).clken = false) : commandState i s = s := by
  cases i with
  | iedg _ _ | ien _ _ | iclr _ => cases hport
  | rdp _ _ => rfl
  | cfg _ _ _ _ _ _ _ | wrp _ _ _ | tgl _ _ | saf _ _ _ =>
    cases hport
    simp [commandState, hp, cfgState, State.orReg, regWrite_gated hc]

/-- On a gated port an uninterrupted command completes and changes nothing (R67). -/
theorem exec_gated {p : Fin 15} (hpin : i.pin ≤ 15) (hport : portOf i = some (.index p)) (hgated : s.Gated p) (hf : s.fresh)
    (hq : 1 < accessCount i s → s.quiet (accessCount i s - 1)) :
    ∃ t, exec i s = .next t ∧ Completed (commandResult i s) s t ∧ SameBut [] s t := by
  obtain ⟨hp, hc⟩ := hgated
  refine ⟨_, exec_uninterrupted hpin hf hq, completed_commandState i s _, ?_⟩
  rw [commandState_gated hport (resolve_index p hp) hc]
  exact sameBut_at s _ _

/-- On an absent port a command completes and changes nothing, whatever is planned (R68). -/
theorem exec_absent {port : PortSel} (hpin : i.pin ≤ 15) (hport : portOf i = some port) (habsent : s.Absent port) :
    ∃ t, exec i s = .next t ∧ Completed (commandResult i s) s t ∧ SameBut [] s t := by
  refine ⟨_, exec_absentPort hpin hport (resolve_absent habsent), completed_commandState i s _, ?_⟩
  rw [commandState_absent hport (resolve_absent habsent)]
  exact sameBut_at s _ _

/-! ### The registers after `CFG` and `SAF` (R122 to R126) -/

theorem stored_orReg_same (hidr : r ≠ .idr) (hc : (s.port p).clken = true) :
    (s.orReg (.port p r) v).stored (.port p r) = (s.regRead (.port p r) ||| v) &&& implementedBits r :=
  stored_regWrite_port_same hidr hc

theorem stored_orReg_other {r' : PortReg} (hr : r' ≠ r) :
    (s.orReg (.port p r) v).stored (.port p r') = s.stored (.port p r') :=
  stored_regWrite_other (by simp [hr]) nofun

/-- `CFG` makes eight accesses or none: seven boundaries at most (R121). -/
theorem quiet_cfg {port : PortSel} {n : Nat} {mode : BitVec 3} {otype : BitVec 2} {speed pull : BitVec 3} {af : BitVec 4}
    (hquiet : s.quiet 7) (hcount : 1 < accessCount (.cfg port n mode otype speed pull af) s) :
    s.quiet (accessCount (.cfg port n mode otype speed pull af) s - 1) := by
  cases hp : s.resolvePort port with
  | none => simp [accessCount, hp] at hcount
  | some p => simpa [accessCount, hp] using hquiet

/-- `SAF` makes two accesses or none: one boundary at most (R126). -/
theorem quiet_saf {port : PortSel} {n : Nat} {af : BitVec 4} (hquiet : s.quiet 1) (hcount : 1 < accessCount (.saf port n af) s) :
    s.quiet (accessCount (.saf port n af) s - 1) := by
  cases hp : s.resolvePort port with
  | none => simp [accessCount, hp] at hcount
  | some p => simpa [accessCount, hp] using hquiet

theorem clken_exec (h : exec i s = .next t) (hc : (s.port p).clken = true) : (t.port p).clken = true :=
  ((samePlatform_exec h).2 p).1.trans hc

section Ready
variable {p : Fin 15} {n : Line} {mode : BitVec 3} {otype : BitVec 2} {speed pull : BitVec 3} {af : BitVec 4}
variable (hf : s.fresh) (hready : s.Ready p)
include hf hready

/-- The four registers an uninterrupted `CFG` writes (R122 to R125). -/
theorem stored_exec_cfg (hquiet : s.quiet 7) (h : exec (.cfg (.index p) n mode otype speed pull af) s = .next t) :
    t.stored (.port p .mode) = s.regRead (.port p .mode) ||| toField mode 2 n ∧
    t.stored (.port p .otype) = (s.regRead (.port p .otype) ||| toField otype 1 n) &&& lowHalf ∧
    t.stored (.port p .ospeed) = s.regRead (.port p .ospeed) ||| toField speed 2 n ∧
    t.stored (.port p .pull) = s.regRead (.port p .pull) ||| toField pull 2 n := by
  obtain ⟨hp, hc⟩ := hready
  obtain rfl := exec_uninterrupted_next hf (quiet_cfg hquiet) h
  simp [commandState, resolve_index p hp, cfgState_eq, stored_orReg_same, stored_orReg_other, regRead_orReg_other, hc,
    implementedBits]

/-- The one register an uninterrupted `SAF` writes (R126). -/
theorem stored_exec_saf (hquiet : s.quiet 1) (h : exec (.saf (.index p) n af) s = .next t) :
    t.stored (.port p (afReg n)) = s.regRead (.port p (afReg n)) ||| toField af 4 (n % 8) := by
  obtain ⟨hp, hc⟩ := hready
  obtain rfl := exec_uninterrupted_next hf (quiet_saf hquiet) h
  simp [commandState, resolve_index p hp, stored_orReg_same (afReg_ne_idr n) hc, implementedBits_afReg]

/-- What any pin's fields read as after an uninterrupted `CFG` of pin `n`: fields of the four ORs. -/
theorem fields_exec_cfg (hquiet : s.quiet 7) (h : exec (.cfg (.index p) n mode otype speed pull af) s = .next t) (m : Line) :
    pinFieldOf 2 m (t.regRead (.port p .mode)) = pinFieldOf 2 m (s.regRead (.port p .mode) ||| toField mode 2 n) ∧
    pinFieldOf 1 m (t.regRead (.port p .otype)) = pinFieldOf 1 m (s.regRead (.port p .otype) ||| toField otype 1 n) ∧
    pinFieldOf 2 m (t.regRead (.port p .ospeed)) = pinFieldOf 2 m (s.regRead (.port p .ospeed) ||| toField speed 2 n) ∧
    pinFieldOf 2 m (t.regRead (.port p .pull)) = pinFieldOf 2 m (s.regRead (.port p .pull) ||| toField pull 2 n) := by
  obtain ⟨hmode, hotype, hospeed, hpull⟩ := stored_exec_cfg hf hready hquiet h
  have hc : (t.port p).clken = true := clken_exec h hready.2
  refine ⟨?_, ?otype, ?_, ?_⟩
  case otype =>
    rw [regRead_port (by decide) hc, hotype]
    exact (pinFieldOf_one_lowHalf m _).trans (pinFieldOf_one_lowHalf m _)
  · rw [regRead_mono_bits rfl (by decide) hc, hmode]
  · rw [regRead_mono_bits rfl (by decide) hc, hospeed]
  · rw [regRead_mono_bits rfl (by decide) hc, hpull]

end Ready

/-- The field above the one an operand is ORed into gains the operand's bit that does not fit (R129). -/
theorem pinFieldOf_or_next {w n m : Nat} (old : Word) (f : BitVec (w + 1)) (hm : m = n + 1) (hw : w * m + w ≤ 32) :
    pinFieldOf w m (old ||| toField f w n) = pinFieldOf w m old ||| (if f.getLsbD w then 1 else 0) := by
  apply BitVec.eq_of_getLsbD_eq
  intro k hk
  have hplace : w * m + k - w * n = w + k := by
    rw [hm, Nat.mul_add]
    omega
  have hle : w * n ≤ w * m + k := by
    rw [hm, Nat.mul_add]
    omega
  rw [pinFieldOf_or_getLsbD _ _ _ _ _ hw hk, hplace, BitVec.getLsbD_or, decide_eq_true hle, Bool.true_and]
  obtain rfl | hpos := Nat.eq_zero_or_pos k
  · cases f.getLsbD w <;> simp [hk]
  · rw [BitVec.getLsbD_of_ge f (w + k) (by omega)]
    split <;> simp [hpos.ne']

end Sys2Proof.Machine
end

section
/-! PROOFS. The obligations of 40_pin_config.md. -/

namespace Sys2Proof.Machine

open Sys2Proof

/-- Settles O9: each of the four read-modify-writes writes a register of its own, and on a gated or absent port none takes effect. -/
theorem configurePinOrsFourFields : Obligations.ConfigurePinOrsFourFields := by
  intro s n mode otype speed pull af hf
  have hpin : n.val ≤ 15 := Nat.le_of_lt_succ n.isLt
  refine ⟨fun p hquiet hready => ?ready, fun p hquiet hgated => exec_gated hpin rfl hgated hf (quiet_cfg hquiet),
    fun port habsent => exec_absent hpin rfl habsent⟩
  have h := exec_uninterrupted (i := .cfg (.index p) n mode otype speed pull af) hpin hf (quiet_cfg hquiet)
  obtain ⟨hmode, hotype, hospeed, hpull⟩ := stored_exec_cfg hf hready hquiet h
  refine ⟨_, h, completed_commandState _ s _, hmode, ?_, hospeed, hpull, ?frame⟩
  · rwa [toField, Nat.one_mul] at hotype
  case frame => exact sameBut_exec h nofun (index_elim_subset s p _) (.inr (by simp))

/-- Settles O10: the pin chooses the one register that is read and written. -/
theorem setAlternateFunctionOrsOneNibble : Obligations.SetAlternateFunctionOrsOneNibble := by
  intro s n af hf
  have hpin : n.val ≤ 15 := Nat.le_of_lt_succ n.isLt
  refine ⟨fun p hquiet hready => ?ready, fun p hquiet hgated => exec_gated hpin rfl hgated hf (quiet_saf hquiet),
    fun port habsent => exec_absent hpin rfl habsent⟩
  have h := exec_uninterrupted (i := .saf (.index p) n af) hpin hf (quiet_saf hquiet)
  have hstored := stored_exec_saf hf hready hquiet h
  have hframe : SameBut [.port p (afReg n)] s _ := sameBut_exec h nofun (index_elim_subset s p _) (.inr (by simp [(afReg_ne_odr n).symm]))
  refine ⟨_, h, completed_commandState _ s _, fun hlow => ?low, fun hhigh => ?high⟩
  case low =>
    have haf : afReg n = .afl := if_pos hlow
    rw [haf, Nat.mod_eq_of_lt (Nat.lt_succ_of_le hlow)] at hstored
    rw [haf] at hframe
    exact ⟨hstored, hframe⟩
  case high =>
    have haf : afReg n = .afh := if_neg (Nat.not_le_of_lt hhigh)
    rw [haf] at hstored hframe
    exact ⟨hstored, hframe⟩

/-- Settles O11: the pin's field is the one the operand is ORed into, and its bits are all implemented. -/
theorem configurationFieldsAccumulate : Obligations.ConfigurationFieldsAccumulate := by
  intro s t p n hf hready
  refine ⟨fun mode otype speed pull af hquiet h => ?cfg, fun af hquiet h => ?saf⟩
  case cfg =>
    obtain ⟨hmode, hotype, hospeed, hpull⟩ := fields_exec_cfg hf hready hquiet h n
    exact ⟨hmode.trans (pinFieldOf_or_same 2 n _ mode (by omega)), hotype.trans (pinFieldOf_or_same 1 n _ otype (by omega)),
      hospeed.trans (pinFieldOf_or_same 2 n _ speed (by omega)), hpull.trans (pinFieldOf_or_same 2 n _ pull (by omega))⟩
  case saf =>
    change pinFieldOf 4 (n.val % 8) (t.regRead (.port p (afReg n))) = pinFieldOf 4 (n.val % 8) (s.regRead (.port p (afReg n))) ||| af
    rw [regRead_mono_bits (implementedBits_afReg n) (afReg_ne_idr n) (clken_exec h hready.2), stored_exec_saf hf hready hquiet h,
      pinFieldOf_or_same 4 _ _ af (by omega), BitVec.setWidth_eq]

/-- Settles O13: an operand one bit too wide reaches the next field with that bit and no field beyond. -/
theorem invalidEnumerantsSpillIntoTheNextPin : Obligations.InvalidEnumerantsSpillIntoTheNextPin := by
  intro s t p n mode otype speed pull af hf hquiet hready h
  refine ⟨fun m hm => ?next, ?reserved, fun m hne hne' => ?far⟩
  case next =>
    obtain ⟨hmode, hotype, hospeed, hpull⟩ := fields_exec_cfg hf hready hquiet h m
    exact ⟨hmode.trans (pinFieldOf_or_next _ mode hm (by omega)), hotype.trans (pinFieldOf_or_next _ otype hm (by omega)),
      hospeed.trans (pinFieldOf_or_next _ speed hm (by omega)), hpull.trans (pinFieldOf_or_next _ pull hm (by omega))⟩
  case reserved =>
    obtain ⟨-, hotype, -, -⟩ := stored_exec_cfg hf hready hquiet h
    rw [hotype, BitVec.getLsbD_and, lowHalf_getLsbD]
    exact Bool.and_false _
  case far =>
    obtain ⟨hmode, hotype, hospeed, hpull⟩ := fields_exec_cfg hf hready hquiet h m
    exact ⟨hmode.trans (pinFieldOf_or_far 2 n m _ mode (by omega) (by omega)),
      hotype.trans (pinFieldOf_or_far 1 n m _ otype (by omega) (by omega)),
      hospeed.trans (pinFieldOf_or_far 2 n m _ speed (by omega) (by omega)),
      hpull.trans (pinFieldOf_or_far 2 n m _ pull (by omega) (by omega))⟩

end Sys2Proof.Machine
end

section
/-! SUPPORT. The output bit a write or a toggle leaves, and the input level that `RDP` latches and `TGL` complements. -/

namespace Sys2Proof.Machine

open Sys2Proof

variable {s t : State} {port : PortSel} {m : Nat}

/-! ### One bit of a word -/

/-- The word with bit `n` at a value and every other bit as it was: what `WRP` stores (R141). -/
def withBit (a : Word) (n : Nat) (b : Bool) : Word := if b then a ||| pinMask n else a &&& ~~~pinMask n

theorem withBit_getLsbD (a : Word) {n : Nat} (b : Bool) (hm : m < 32) :
    (withBit a n b).getLsbD m = if m = n then b else a.getLsbD m := by
  have hmask : (pinMask n).getLsbD m = decide (m = n) := by rw [pinMask_getLsbD, decide_eq_true hm, Bool.true_and]
  cases b with
  | true =>
    rw [withBit, if_pos rfl, BitVec.getLsbD_or, hmask]
    by_cases hmn : m = n <;> simp [hmn]
  | false =>
    rw [withBit, if_neg nofun, BitVec.getLsbD_and, BitVec.getLsbD_not, hmask]
    by_cases hmn : m = n
    · simp [hmn]
    · simp [hm, hmn]

theorem withBit_withBit (a : Word) (n : Nat) (b b' : Bool) : withBit (withBit a n b) n b' = withBit a n b' := by
  apply BitVec.eq_of_getLsbD_eq
  intro m hm
  simp only [withBit_getLsbD _ _ hm]
  split <;> rfl

theorem withBit_bitOf (a : Word) (n : Nat) : withBit a n (bitOf a n) = a := by
  apply BitVec.eq_of_getLsbD_eq
  intro m hm
  rw [withBit_getLsbD _ _ hm]
  split
  · next hmn => rw [bitOf, hmn]
  · rfl

/-- Every output bit is implemented, so a store to `ODR` keeps the whole word (R28). -/
theorem withBit_odr (s : State) (p : Nat) (n : Line) (b : Bool) :
    withBit (s.regRead (.port p .odr)) n b &&& implementedBits .odr = withBit (s.regRead (.port p .odr)) n b := by
  cases b with
  | true => exact odr_or (Nat.le_of_lt_succ n.isLt)
  | false => exact odr_andn

/-! ### Boundaries inside the command (Table R232) -/

/-- `RDP` has no boundary inside it. -/
theorem not_lt_accessCount_rdp (s : State) (port : PortSel) (n : Nat) : ¬ 1 < accessCount (.rdp port n) s := by
  rw [accessCount]
  split <;> decide

/-- `WRP` has one boundary inside it at most. -/
theorem quiet_wrp {n : Nat} {b : Bool} (hquiet : s.quiet 1) : s.quiet (accessCount (.wrp port n b) s - 1) := by
  refine quiet_mono hquiet ?_
  rw [accessCount]
  split <;> decide

/-- `TGL` has two boundaries inside it at most. -/
theorem quiet_tgl {n : Nat} (hquiet : s.quiet 2) : s.quiet (accessCount (.tgl port n) s - 1) := by
  refine quiet_mono hquiet ?_
  rw [accessCount]
  split <;> decide

/-! ### The result of `RDP` (R140) -/

/-- On an implemented port `RDP` latches the level, gated by the port's clock (R67). -/
theorem commandResult_rdp {p : Fin 15} (hp : p.val < s.nports) (n : Line) :
    commandResult (.rdp (.index p) n) s = some ((s.port p).clken && s.level p n) := by
  rw [commandResult, resolve_index p hp]
  exact congrArg some (regRead_idr_bit s p n)

theorem commandResult_rdp_absent (habsent : s.Absent port) (n : Nat) : commandResult (.rdp port n) s = some false := by
  rw [commandResult, resolve_absent habsent]
  rfl

/-! ### The output register after `WRP` and `TGL` (R141, R142) -/

/-- The level of a looped pin of a clocked port is its output bit as it reads (R38). -/
theorem level_of_looped {p : Nat} {n : Line} (hc : (s.port p).clken = true) (hloop : looped s.config p n = true) :
    s.level p n = bitOf (s.regRead (.port p .odr)) n := by
  rw [State.level, if_pos hloop, regRead_port (by decide) hc, bitOf_and,
    show bitOf (implementedBits .odr) n = true from bitOf_lowHalf (Nat.le_of_lt_succ n.isLt), Bool.and_true]
  rfl

section Ready
variable {p : Fin 15} {n : Line} {b : Bool} (hready : s.Ready p)
include hready

theorem commandState_wrp : commandState (.wrp (.index p) n b) s =
    s.regWrite (.port p .odr) (withBit (s.regRead (.port p .odr)) n b) := by
  rw [commandState, resolve_index p hready.1]
  rfl

/-- Uninterrupted, `TGL` is the `WRP` of the complement of the input level (R142). -/
theorem commandState_tgl : commandState (.tgl (.index p) n) s = commandState (.wrp (.index p) n (!s.level p n)) s := by
  obtain ⟨hp, hc⟩ := hready
  rw [commandState_wrp ⟨hp, hc⟩, commandState, resolve_index p hp, Option.elim_some, regRead_idr hc, idr_bit]
  cases s.level p n <;> rfl

theorem stored_commandState_wrp : (commandState (.wrp (.index p) n b) s).stored (.port p .odr) =
    withBit (s.regRead (.port p .odr)) n b := by
  rw [commandState_wrp hready, stored_regWrite_port_same (by decide) hready.2, withBit_odr]

variable (hf : s.fresh)
include hf

/-- The output register an uninterrupted `WRP` leaves. -/
theorem stored_exec_wrp (hquiet : s.quiet 1) (h : exec (.wrp (.index p) n b) s = .next t) :
    t.stored (.port p .odr) = withBit (s.regRead (.port p .odr)) n b := by
  obtain rfl := exec_uninterrupted_next hf (fun _ => quiet_wrp hquiet) h
  rw [at_stored, stored_commandState_wrp hready]

/-- The output register an uninterrupted `TGL` leaves. -/
theorem stored_exec_tgl (hquiet : s.quiet 2) (h : exec (.tgl (.index p) n) s = .next t) :
    t.stored (.port p .odr) = withBit (s.regRead (.port p .odr)) n (!s.level p n) := by
  obtain rfl := exec_uninterrupted_next hf (fun _ => quiet_tgl hquiet) h
  rw [at_stored, commandState_tgl hready, stored_commandState_wrp hready]

theorem regRead_exec_tgl (hquiet : s.quiet 2) (h : exec (.tgl (.index p) n) s = .next t) :
    t.regRead (.port p .odr) = withBit (s.regRead (.port p .odr)) n (!s.level p n) := by
  rw [regRead_port (by decide) (clken_exec h hready.2), stored_exec_tgl hready hf hquiet h, withBit_odr]

/-- An uninterrupted `TGL` leaves nothing in flight and takes three moves of the plan (R232). -/
theorem fresh_and_plan_exec_tgl (hquiet : s.quiet 2) (h : exec (.tgl (.index p) n) s = .next t) :
    t.fresh ∧ t.plan = ticks 3 s.plan := by
  have hcount : accessCount (.tgl (.index p) n) s = 3 := by simp [accessCount, resolve_index p hready.1]
  obtain rfl := exec_uninterrupted_next hf (fun _ => quiet_tgl hquiet) h
  refine ⟨fresh_at_commandCtx _ _ _ s, ?_⟩
  rw [at_plan, commandState_plan, hcount]
  rfl

end Ready

end Sys2Proof.Machine
end

section
/-! PROOFS. The obligations of 41_pin_data.md. -/

namespace Sys2Proof.Machine

open Sys2Proof

/-- Settles O14: `RDP` is at most one access, which samples the level where the clock is on, so nothing can interrupt it. -/
theorem readPinDeliversTheLevel : Obligations.ReadPinDeliversTheLevel := by
  intro s n hf
  have hpin : n.val ≤ 15 := Nat.le_of_lt_succ n.isLt
  refine ⟨fun p hready => ?ready, fun p hgated => ?gated, fun port habsent => ?absent⟩
  case ready =>
    have hresult : commandResult (.rdp (.index p) n) s = some (s.level p n) := by
      rw [commandResult_rdp hready.1, hready.2, Bool.true_and]
    rw [← hresult]
    exact ⟨_, exec_uninterrupted hpin hf fun hcut => absurd hcut (not_lt_accessCount_rdp s _ n),
      completed_commandState _ s _, sameBut_at s _ _⟩
  case gated =>
    have hresult : commandResult (.rdp (.index p) n) s = some false := by
      rw [commandResult_rdp hgated.1, hgated.2, Bool.false_and]
    rw [← hresult]
    exact exec_gated hpin rfl hgated hf fun hcut => absurd hcut (not_lt_accessCount_rdp s _ n)
  case absent =>
    rw [← commandResult_rdp_absent habsent n]
    exact exec_absent hpin rfl habsent

/-- Settles O15: `WRP` stores what it read with one bit written, and its frame is that of every `WRP` (O24). -/
theorem writePinWritesExactlyThatBit : Obligations.WritePinWritesExactlyThatBit := by
  intro s n v hf
  have hpin : n.val ≤ 15 := Nat.le_of_lt_succ n.isLt
  refine ⟨fun p hquiet hready => ?ready, fun p hquiet hgated => exec_gated hpin rfl hgated hf fun _ => quiet_wrp hquiet,
    fun port habsent => exec_absent hpin rfl habsent⟩
  have h := exec_uninterrupted (i := .wrp (.index p) n v) hpin hf fun _ => quiet_wrp hquiet
  obtain ⟨-, hframe, -⟩ := dataCommandsLeaveTheRest s _ p n
  obtain ⟨hrest, hpending⟩ := hframe v h
  rw [twoPow_eq_pinMask]
  exact ⟨_, h, completed_commandState _ s _, stored_exec_wrp hready hf hquiet h, hpending, hrest⟩

/-- Settles O16: `TGL` stores what `WRP` of the complement of the level does, and its frame is that of every `TGL` (O24). -/
theorem togglePinWritesTheOppositeOfTheLevel : Obligations.TogglePinWritesTheOppositeOfTheLevel := by
  intro s n hf
  have hpin : n.val ≤ 15 := Nat.le_of_lt_succ n.isLt
  refine ⟨fun p hquiet hready => ?ready, fun p hquiet hgated => exec_gated hpin rfl hgated hf fun _ => quiet_tgl hquiet,
    fun port habsent => exec_absent hpin rfl habsent⟩
  have h := exec_uninterrupted (i := .tgl (.index p) n) hpin hf fun _ => quiet_tgl hquiet
  obtain ⟨-, -, hframe⟩ := dataCommandsLeaveTheRest s _ p n
  obtain ⟨hrest, hpending⟩ := hframe h
  refine ⟨_, h, completed_commandState _ s _, ?odr, hpending, hrest⟩
  rw [twoPow_eq_pinMask, stored_exec_tgl hready hf hquiet h]
  cases s.level p n <;> rfl

/-- Settles O18: the level of a looped pin is its output bit, so the second `TGL` writes the complement of a complement. -/
theorem toggleTwiceRestoresALoopedPin : Obligations.ToggleTwiceRestoresALoopedPin := by
  intro s t p n hf hquiet hready hloop h
  have hquiet2 : s.quiet 2 := quiet_mono hquiet (by decide)
  have hfirst := regRead_exec_tgl hready hf hquiet2 h
  obtain ⟨hf', hplan⟩ := fresh_and_plan_exec_tgl hready hf hquiet2 h
  obtain ⟨hconfig, hnports, hclocks, -⟩ := persists_exec h
  have hready' : t.Ready p := ⟨hnports ▸ hready.1, hclocks p hready.2⟩
  have hlevel : s.level p n = bitOf (s.regRead (.port p .odr)) n := level_of_looped hready.2 hloop
  have hlevel' : t.level p n = !s.level p n := by
    rw [level_of_looped hready'.2 (hconfig ▸ hloop), hfirst]
    exact bitOf_written _ _ (Nat.le_of_lt_succ n.isLt)
  obtain ⟨u, hu⟩ := pinUpToFifteenIsTaken (.tgl (.index p) n) t (Nat.le_of_lt_succ n.isLt)
  refine ⟨u, hu, ?_⟩
  calc u.regRead (.port p .odr)
      = withBit (t.regRead (.port p .odr)) n (!t.level p n) :=
        regRead_exec_tgl hready' hf' ((quiet_ticks 3 2 hplan).2 hquiet) hu
    _ = withBit (withBit (s.regRead (.port p .odr)) n (!s.level p n)) n (s.level p n) := by
        rw [hfirst, hlevel', Bool.not_not]
    _ = withBit (s.regRead (.port p .odr)) n (bitOf (s.regRead (.port p .odr)) n) := by rw [withBit_withBit, hlevel]
    _ = s.regRead (.port p .odr) := withBit_bitOf _ _

end Sys2Proof.Machine
end

section
/-! SUPPORT. One bit of an interrupt-controller register, and the state of a line as a function of its flags. -/

namespace Sys2Proof.Machine

open Sys2Proof

variable {s : State} {r : ExtiReg}

/-! ### The bits an interrupt-line command sets and clears (R160 to R162) -/

/-- A read-modify-write that sets a line's bit: the register holds what it read as with that bit set (R31 to R33). -/
theorem stored_orReg_exti (s : State) (n : Line) (hr : r ≠ .pr) :
    (s.orReg (.exti r) (pinMask n)).stored (.exti r) = s.regRead (.exti r) ||| pinMask n := by
  rw [State.orReg, stored_regWrite_exti_same hr, exti_or (Nat.le_of_lt_succ n.isLt)]

/-- It sets the line's bit of that register, and no other line's and no other register's. -/
theorem bitOf_stored_orReg_exti (s : State) (n m : Line) (r' : ExtiReg) (hr : r ≠ .pr) :
    bitOf ((s.orReg (.exti r) (pinMask n)).stored (.exti r')) m =
      (bitOf (s.stored (.exti r')) m || (decide (r' = r) && decide (m = n))) := by
  have hm : m.val ≤ 15 := Nat.le_of_lt_succ m.isLt
  by_cases h : r' = r
  · subst h
    rw [stored_orReg_exti s n hr, bitOf_or, bitOf_regRead_exti r' hm, bitOf_pinMask _ hm]
    simp [Fin.ext_iff, State.stored]
  · rw [State.orReg, stored_regWrite_exti hr, if_neg (by simpa using h)]
    simp [h]

theorem bitOf_not_pinMask (n m : Line) : bitOf (~~~pinMask n) m = !decide (m = n) := by
  have hm : m.val ≤ 15 := Nat.le_of_lt_succ m.isLt
  rw [bitOf_not _ hm, bitOf_pinMask _ hm]
  simp [Fin.ext_iff]

/-- The write of `ICLR` clears the line's flag and leaves every other bit of `PR` (R34, R162). -/
theorem pr_clearPending (s : State) (n : Line) :
    (s.regWrite (.exti .pr) (pinMask n)).exti.pr = s.exti.pr &&& ~~~pinMask n := by
  rw [State.regWrite, Exti.set, pinMask_and_lowHalf (Nat.le_of_lt_succ n.isLt)]

theorem stored_enableVector (s : State) (u : VectorId) (y : Reg) : (s.enableVector u).stored y = s.stored y := by
  cases y <;> rfl

/-! ### The state of a line (Table R166) -/

/-- Table R166 as a function of the three flags it names. -/
def lineStateOf (armed unmasked pending : Bool) : LineState :=
  match armed, unmasked, pending with
  | false, false, false => .disabled
  | true, false, false => .armed
  | true, true, false => .enabled
  | true, true, true => .triggered
  | false, true, false => .unmaskedUnarmed
  | true, false, true => .latchedMasked
  | false, _, true => .unreachable

/-! The rows of Table R167. -/

/-- A trigger bit is set. -/
def LineState.arm : LineState → LineState
  | .disabled => .armed
  | .unmaskedUnarmed => .enabled
  | x => x

/-- The mask bit is set. -/
def LineState.unmask : LineState → LineState
  | .disabled => .unmaskedUnarmed
  | .armed => .enabled
  | .latchedMasked => .triggered
  | x => x

/-- The pending flag is cleared. -/
def LineState.clear : LineState → LineState
  | .latchedMasked => .armed
  | .triggered => .enabled
  | x => x

theorem lineStateOf_arm : ∀ {armed unmasked pending : Bool}, lineStateOf armed unmasked pending ≠ .unreachable →
    lineStateOf true unmasked pending = (lineStateOf armed unmasked pending).arm := by decide

theorem lineStateOf_unmask : ∀ {armed unmasked pending : Bool}, lineStateOf armed unmasked pending ≠ .unreachable →
    lineStateOf armed true pending = (lineStateOf armed unmasked pending).unmask := by decide

theorem lineStateOf_clear : ∀ {armed unmasked pending : Bool}, lineStateOf armed unmasked pending ≠ .unreachable →
    lineStateOf armed unmasked false = (lineStateOf armed unmasked pending).clear := by decide

/-- An armed edge sets the pending flag of an unmasked line, and of a masked one if the latch is not gated (R163). -/
theorem lineStateOf_edge : ∀ unmasked pending gated : Bool,
    (lineStateOf true unmasked pending = .enabled → lineStateOf true unmasked (pending || (unmasked || !gated)) = .triggered) ∧
    (lineStateOf true unmasked pending = .triggered → lineStateOf true unmasked (pending || (unmasked || !gated)) = .triggered) ∧
    (lineStateOf true unmasked pending = .armed →
      lineStateOf true unmasked (pending || (unmasked || !gated)) = if gated then .armed else .latchedMasked) := by decide

/-- The state of a line depends on its bit of each register of `EXTI` alone. -/
theorem lineState_eq (s : State) (n : Line) : s.lineState n =
    lineStateOf (bitOf (s.stored (.exti .rtsr)) n || bitOf (s.stored (.exti .ftsr)) n) (bitOf (s.stored (.exti .imr)) n)
      (bitOf (s.stored (.exti .pr)) n) := by
  change s.lineState n = lineStateOf (s.armed n) (bitOf s.exti.imr n) (bitOf s.exti.pr n)
  unfold State.lineState lineStateOf
  cases s.armed n <;> cases bitOf s.exti.imr n <;> cases bitOf s.exti.pr n <;> rfl

@[simp] theorem lineState_at (x : State) (k : Nat) (c : Ctx) (n : Line) : (x.at k c).lineState n = x.lineState n := by
  simp [lineState_eq]

/-- The edge selections that set a trigger bit (R160). -/
def arms : EdgeSel → Bool
  | .rising => true
  | .falling => true
  | .both => true
  | .neither => false
  | .unrecognised _ => false

/-- Every line's flags after an uninterrupted `IEDG` of line `n`. -/
theorem lineState_iedg (s : State) (n m : Line) (e : EdgeSel) : (commandState (.iedg n e) s).lineState m =
    lineStateOf (bitOf (s.stored (.exti .rtsr)) m || bitOf (s.stored (.exti .ftsr)) m || (arms e && decide (m = n)))
      (bitOf (s.stored (.exti .imr)) m) (bitOf (s.stored (.exti .pr)) m) := by
  cases e with
  | rising | falling | both =>
    by_cases h : m = n <;> simp [h, lineState_eq, commandState, iedgState, bitOf_stored_orReg_exti, arms]
  | neither | unrecognised _ => simp [lineState_eq, commandState, iedgState, arms]

/-- Every line's flags after an uninterrupted `IEN` of line `n`. -/
theorem lineState_ien (s : State) (n m : Line) (u : VectorId) : (commandState (.ien n u) s).lineState m =
    lineStateOf (bitOf (s.stored (.exti .rtsr)) m || bitOf (s.stored (.exti .ftsr)) m)
      (bitOf (s.stored (.exti .imr)) m || decide (m = n)) (bitOf (s.stored (.exti .pr)) m) := by
  simp [lineState_eq, commandState, stored_enableVector, bitOf_stored_orReg_exti]

/-- Every line's flags after an uninterrupted `ICLR` of line `n`. -/
theorem lineState_iclr (s : State) (n m : Line) : (commandState (.iclr n) s).lineState m =
    lineStateOf (bitOf (s.stored (.exti .rtsr)) m || bitOf (s.stored (.exti .ftsr)) m)
      (bitOf (s.stored (.exti .imr)) m) (bitOf (s.stored (.exti .pr)) m && !decide (m = n)) := by
  cases hb : bitOf s.exti.pr n with
  | true =>
    have hpr : (s.regWrite (.exti .pr) (pinMask n)).stored (.exti .pr) = s.stored (.exti .pr) &&& ~~~pinMask n :=
      pr_clearPending s n
    simp [lineState_eq, commandState, hb, hpr, bitOf_not_pinMask, stored_regWrite_other]
  | false =>
    have hclear : bitOf (s.stored (.exti .pr)) n = false := hb
    by_cases h : m = n <;> simp [h, lineState_eq, commandState, hb, hclear]

/-! ### The input of a line (R38, R39) -/

theorem level_of_unlooped {p : Nat} {n : Line} (h : looped s.config p n = false) :
    s.level p n = (s.port p).pad.getLsbD n := by
  simp [State.level, h]

/-! ### Boundaries inside a line's command (Table R232) -/

theorem quiet_iedg {n : Nat} {e : EdgeSel} (hquiet : s.quiet 3) : s.quiet (accessCount (.iedg n e) s - 1) := by
  refine quiet_mono hquiet ?_
  cases e with
  | rising | falling | both | neither | unrecognised _ => simp [accessCount]

theorem quiet_iclr {n : Nat} (hquiet : s.quiet 1) : s.quiet (accessCount (.iclr n) s - 1) := by
  refine quiet_mono hquiet ?_
  rw [accessCount]
  split <;> decide

end Sys2Proof.Machine
end

section
/-! SUPPORT. Where a service starts, and one round of the interrupt storm: dispatch, routine, return. -/

namespace Sys2Proof.Machine

open Sys2Proof

variable {s t : State} {i : Instr} {v u : VectorId}

/-! ### The start of a service (R193, R197) -/

/-- At the end of the mainline the machine idles if no vector is up, else it takes one that is (R222). -/
theorem afterLast_of_idle (ha : s.active = none) : (s.vectorsUp = [] ∧ s.afterLast = s.tick) ∨
    ∃ v ∈ s.vectorsUp, s.afterLast = { (s.dispatch v).tick with draws := s.draws + 1 } := by
  simp only [State.afterLast, ha]
  cases hup : s.vectorsUp with
  | nil => exact .inl ⟨rfl, rfl⟩
  | cons w ws => exact .inr ⟨s.chooseVector w ws, chooseVector_mem s w ws, rfl⟩

theorem dispatchable_iff : s.dispatchable v = true ↔ s.active = none ∧ s.Up v := by
  rw [State.dispatchable, Bool.and_eq_true, Option.isNone_iff_eq_none, decide_eq_true_iff, mem_vectorsUp]
  rfl

/-- Of the other agents' steps only the dispatch of a dispatchable vector starts a service. -/
theorem up_of_apply_starts {e : Event} {svc : Service} (ha : s.active = none) (h : (e.apply s).active = some svc) :
    s.Up svc.vector := by
  cases e with
  | padDrive _ _ _ | forcePending _ | clockOn _ => cases ha.symm.trans h
  | dispatch w =>
    cases hw : s.dispatchable w with
    | true =>
      rw [Event.apply, if_pos hw, dispatch_active, Option.some.injEq] at h
      rw [← h]
      exact (dispatchable_iff.1 hw).2
    | false =>
      rw [Event.apply, if_neg (by simp [hw])] at h
      cases ha.symm.trans h

/-- A command of the mainline starts no service. -/
theorem active_exec_none (ha : s.active = none) (h : exec i s = .next t) : t.active = none := by
  have hset : ∀ (x : State) (c : Ctx), x.active = none → (x.setCur c).active = none := fun x c hx => by
    simp [State.setCur, hx]
  refine exec_induct (·.active = none) (fun a _ x hx => ?_) (fun _ hx => hx) (fun x hx => hset x _ hx)
    (fun x b hx => hset x _ hx) h ha
  rw [perform_eq_setCur]
  exact hset _ _ ((effect_active a _ x).trans hx)

/-! ### What keeps a request up (R165) -/

theorem up_congr (h : s.Up u) (hc : t.config = s.config) (he : t.exti = s.exti) (hv : t.ven = s.ven) : t.Up u := by
  unfold State.Up
  rwa [hc, he, hv]

/-- An uninterrupted command other than `ICLR` withdraws no request: it clears no pending flag, no mask bit and no enable. -/
theorem up_exec (hf : s.fresh) (hquiet : s.quiet (accessCount i s - 1)) (hi : ∀ m, i ≠ .iclr m) (h : exec i s = .next t)
    (hup : s.Up u) : t.Up u := by
  obtain ⟨n, hvec, hpr, himr, hven⟩ := hup
  have hn : n.val ≤ 15 := Nat.le_of_lt_succ n.isLt
  have hkept : (t.regRead (.exti .imr)).getLsbD n = true := by
    refine (uninterruptedCommandsClearNoConfigurationBit i s t hf hquiet h).2 .imr (by decide) n ?_
    exact (bitOf_regRead_exti .imr hn).trans himr
  obtain ⟨hconfig, -, -, henables⟩ := persists_exec h
  refine ⟨n, by rw [hconfig]; exact hvec, ?_, (bitOf_regRead_exti .imr hn).symm.trans hkept, henables u hven⟩
  by_contra hcleared
  exact hi n (iclr_of_exec_clears h hpr (by simpa using hcleared))

/-- How many accesses a command other than `ICLR` makes depends on the number of ports alone. -/
theorem accessCount_congr (hn : t.nports = s.nports) (hi : ∀ m, i ≠ .iclr m) : accessCount i t = accessCount i s := by
  cases i with
  | iclr n => exact absurd rfl (hi n)
  | iedg _ e => cases e <;> rfl
  | ien _ _ => rfl
  | cfg _ _ _ _ _ _ _ | rdp _ _ | wrp _ _ _ | tgl _ _ | saf _ _ _ => simp only [accessCount, resolvePort_congr hn]

/-! ### One round of the storm (R200) -/

/-- The storm's state once its vector is taken: in service, with the next dispatch one move behind the routine. -/
def stormService (s : State) (v : VectorId) (i : Instr) : State :=
  (s.dispatch v).withPlan [(max 1 (accessCount i s) + 1, .dispatch v)]

/-- The storm's state at the end of the routine, the next dispatch one move away. -/
structure StormReturn (s t : State) (v : VectorId) : Prop where
  main    : t.main = s.main
  service : ∃ ctx, t.active = some ⟨v, ctx⟩ ∧ ctx.finished = true
  plan    : t.plan = [(1, .dispatch v)]
  cycle   : t.cycle = s.cycle
  config  : t.config = s.config
  nports  : t.nports = s.nports
  up      : ∀ u, s.Up u → t.Up u

section Storm
variable (h : Storm s v i)
include h

theorem step_storm : step s = .next (stormService s v i) := by
  have hround : s.nextRound = [(max 1 (accessCount i s) + 1, .dispatch v)] := by
    rw [nextRound_cons s h.again, Nat.max_eq_right (Nat.le_add_left 1 _)]
  have hdispatchable : { s with plan := s.planAfter [] }.dispatchable v = true := dispatchable_iff.2 ⟨h.idle, h.up⟩
  rw [step_of_due h.now, Event.apply, if_pos hdispatchable, planAfter_nil, hround]
  rfl

/-- The routine, one command, runs to its end in one step: the next dispatch falls behind its last access. -/
theorem step_stormService : ∃ t, step (stormService s v i) = .next t ∧ StormReturn s t v := by
  obtain ⟨w, hisr, hdecode⟩ := h.routine
  have hactive : (stormService s v i).active = some ⟨v, Ctx.start [w]⟩ := by
    change some (⟨v, Ctx.start (isrOf s.config v)⟩ : Service) = _
    rw [isrOf_eq, hisr]
    rfl
  have hcur : (stormService s v i).cur = Ctx.start [w] := by rw [State.cur, hactive]
  have hplan : (stormService s v i).plan = [(max 1 (accessCount i s) + 1, .dispatch v)] := rfl
  have hcount : accessCount i (stormService s v i) = accessCount i s := accessCount_congr rfl h.keeps
  have hfresh : (stormService s v i).fresh := by
    rw [State.fresh, hcur]
    rfl
  have hquiet : (stormService s v i).quiet (accessCount i (stormService s v i) - 1) := by
    rw [hcount, State.quiet, hplan]
    change accessCount i s - 1 < max 1 (accessCount i s) + 1
    omega
  have hexec := exec_uninterrupted h.pin hfresh fun _ => hquiet
  have hstep : step (stormService s v i) = exec i (stormService s v i) := by
    refine step_command ?_ ?_ ?_
    · exact (eventDue_iff _).2 (quiet_mono hquiet (Nat.zero_le _))
    · rw [hcur]
      exact Nat.zero_lt_one
    · rw [State.fetch, hcur]
      exact hdecode
  obtain ⟨hmain, hact, -, hconfig, hcycle⟩ :=
    completed_commandState i (stormService s v i) (max 1 (accessCount i (stormService s v i)))
  refine ⟨_, hstep.trans hexec, {
    main := hmain.trans (setCur_main_of_active _ _ hactive)
    service := ⟨_, hact.trans (by rw [State.setCur, hactive]), by rw [hcur]; rfl⟩
    plan := ?_
    cycle := hcycle
    config := hconfig
    nports := (persists_exec hexec).2.1
    up := fun u hu => up_exec hfresh hquiet h.keeps hexec (up_congr hu rfl rfl rfl) }⟩
  rw [at_plan, commandState_plan, hplan, hcount]
  simp [ticks]

/-- The return brings the storm back to where it was. -/
theorem storm_return (ht : StormReturn s t v) : Storm t.return.tick v i where
  idle := rfl
  up := ht.up v h.up
  routine := by
    change ∃ w, t.config.isr.find? (fun e => e.1 = v) = some (v, [w]) ∧ decode w = .command i
    rw [ht.config]
    exact h.routine
  pin := h.pin
  keeps := h.keeps
  now := by
    rw [tick_plan, return_plan, ht.plan]
    rfl
  again := by
    rw [accessCount_congr (s := s) (t := t.return.tick) ht.nports h.keeps]
    exact ht.cycle.trans h.again

end Storm

theorem step_stormReturn (ht : StormReturn s t v) : step t = .next t.return.tick := by
  obtain ⟨ctx, hactive, hfinished⟩ := ht.service
  have hcur : t.cur.finished = true := by
    rw [State.cur, hactive]
    exact hfinished
  rw [step_not_due (by simp [State.eventDue, ht.plan]), if_pos hcur, afterLast_of_active hactive]

/-- Every position of the storm's run, by rounds of three steps. -/
theorem run_storm (k : Nat) (h : Storm s v i) : ∃ t : State, Sys2Proof.core.run k s = .next t ∧ t.main = s.main ∧
    (∀ u, s.Up u → t.Up u) ∧ t.active.map Service.vector = (if k % 3 = 0 then none else some v) := by
  induction k using Nat.strongRecOn generalizing s with
  | ind k ih =>
  obtain ⟨b, hservice, hb⟩ := step_stormService h
  have hfirst : ∀ k, Sys2Proof.core.run (k + 1) s = Sys2Proof.core.run k (stormService s v i) := fun k =>
    run_cons (M := Sys2Proof.core) (step_storm h)
  have hsecond : ∀ k, Sys2Proof.core.run (k + 2) s = Sys2Proof.core.run k b := fun k =>
    (hfirst (k + 1)).trans (run_cons (M := Sys2Proof.core) hservice)
  have hthird : ∀ k, Sys2Proof.core.run (k + 3) s = Sys2Proof.core.run k b.return.tick := fun k =>
    (hsecond (k + 1)).trans (run_cons (M := Sys2Proof.core) (step_stormReturn hb))
  match k with
  | 0 => exact ⟨s, rfl, rfl, fun _ hu => hu, by rw [h.idle]; rfl⟩
  | 1 => exact ⟨_, hfirst 0, rfl, fun _ hu => up_congr hu rfl rfl rfl, rfl⟩
  | 2 =>
    obtain ⟨ctx, hactive, -⟩ := hb.service
    exact ⟨b, hsecond 0, hb.main, hb.up, by rw [hactive]; rfl⟩
  | k + 3 =>
    obtain ⟨t, hrun, hmain, hup, hserved⟩ := ih k (by omega) (storm_return h hb)
    refine ⟨t, (hthird k).trans hrun, hmain.trans hb.main, fun u hu => hup u (hb.up u hu), ?_⟩
    rw [hserved, Nat.add_mod_right]

end Sys2Proof.Machine
end

section
/-! PROOFS. The obligations of 42_interrupt_line.md. -/

namespace Sys2Proof.Machine

open Sys2Proof

/-- Settles O19: each trigger bit is one read-modify-write of a register of its own; the frame is that of every `IEDG` (O25). -/
theorem configureEdgeArmsExactlyThatLine : Obligations.ConfigureEdgeArmsExactlyThatLine := by
  intro s n hf
  have hexec := fun e => exec_uninterrupted (i := .iedg n e) (Nat.le_of_lt_succ n.isLt) hf
  have hdone := fun e => completed_commandState (.iedg n e) s
  rw [twoPow_eq_pinMask]
  refine ⟨fun hquiet => ?rising, fun hquiet => ?falling, fun hquiet => ?both, ?neither, fun c => ?unrecognised⟩
  case rising =>
    have h := hexec .rising fun _ => hquiet
    obtain ⟨-, -, hframe, -⟩ := commandsWriteOnlyTheirRegisters s _ n
    refine ⟨_, h, hdone .rising _, hframe h, ?_⟩
    rw [at_exti]
    exact stored_orReg_exti s n (r := .rtsr) nofun
  case falling =>
    have h := hexec .falling fun _ => hquiet
    obtain ⟨-, -, -, hframe, -⟩ := commandsWriteOnlyTheirRegisters s _ n
    refine ⟨_, h, hdone .falling _, hframe h, ?_⟩
    rw [at_exti]
    exact stored_orReg_exti s n (r := .ftsr) nofun
  case both =>
    have h := hexec .both fun _ => hquiet
    obtain ⟨-, -, -, -, hframe, -⟩ := commandsWriteOnlyTheirRegisters s _ n
    have hrtsr : (s.orReg (.exti .rtsr) (pinMask n)).stored (.exti .rtsr) = s.regRead (.exti .rtsr) ||| pinMask n :=
      stored_orReg_exti s n nofun
    have hftsr : (s.orReg (.exti .rtsr) (pinMask n)).regRead (.exti .ftsr) = s.regRead (.exti .ftsr) :=
      regRead_regWrite_other nofun nofun nofun
    refine ⟨_, h, hdone .both _, hframe h, ?_, ?_⟩
    · rw [at_exti, ← hrtsr]
      exact stored_regWrite_other (y := .exti .rtsr) nofun nofun
    · rw [at_exti, ← hftsr]
      exact stored_orReg_exti (s.orReg (.exti .rtsr) (pinMask n)) n (r := .ftsr) nofun
  case neither => exact ⟨_, hexec .neither nofun, hdone .neither _, sameBut_at s _ _⟩
  case unrecognised => exact ⟨_, hexec (.unrecognised c) nofun, hdone (.unrecognised c) _, sameBut_at s _ _⟩

/-- Settles O20: the mask bit is one read-modify-write, and the enable of the vector is ORed in. -/
theorem enableInterruptUnmasksAndEnables : Obligations.EnableInterruptUnmasksAndEnables := by
  intro s n v hf hquiet
  have h := exec_uninterrupted (i := .ien n v) (Nat.le_of_lt_succ n.isLt) hf fun _ => hquiet
  obtain ⟨-, -, -, -, -, -, -, hframe, -, -⟩ := commandsWriteOnlyTheirRegisters s _ n
  obtain ⟨hplatform, hregs, -⟩ := hframe v h
  refine ⟨_, h, completed_commandState _ s _, ?imr, fun u => ?vectors, hplatform, hregs⟩
  case imr =>
    rw [twoPow_eq_pinMask, at_exti]
    exact stored_orReg_exti s n (r := .imr) nofun
  case vectors =>
    have hven : (commandState (.ien n v) s).ven = s.ven ||| BitVec.twoPow 256 v.val := by
      simp [commandState, State.orReg, State.enableVector]
    rw [at_ven, hven, BitVec.getLsbD_or, BitVec.getLsbD_twoPow]
    simp [Fin.ext_iff, eq_comm]

/-- Settles O21: `ICLR` writes its line's bit alone to `PR`, or ends at the read. -/
theorem clearPendingClearsExactlyThatFlag : Obligations.ClearPendingClearsExactlyThatFlag := by
  intro s n hf
  have hpin : n.val ≤ 15 := Nat.le_of_lt_succ n.isLt
  refine ⟨fun hset hquiet => ?set, fun hclear => ?clear⟩
  case set =>
    have h := exec_uninterrupted (i := .iclr n) hpin hf fun _ => quiet_iclr hquiet
    obtain ⟨-, -, -, -, -, -, -, -, hframe, -⟩ := commandsWriteOnlyTheirRegisters s _ n
    refine ⟨_, h, completed_commandState _ s _, ?_, (hframe h).1⟩
    have hset' : bitOf s.exti.pr n = true := hset
    rw [twoPow_eq_pinMask, at_exti, commandState, if_pos hset']
    exact pr_clearPending s n
  case clear =>
    have hclear' : ¬bitOf s.exti.pr n = true := by simpa [bitOf] using hclear
    refine ⟨_, exec_uninterrupted (i := .iclr n) hpin hf ?_, completed_commandState _ s _, ?_⟩
    · simp [accessCount, hclear']
    · rw [commandState, if_neg hclear']
      exact sameBut_at s _ _

/-- Settles O22: a command changes the flags of its own line only, and Table R167 is what they make of each state. -/
theorem commandsMoveTheLineStateMachine : Obligations.CommandsMoveTheLineStateMachine := by
  intro s t n hf hquiet hreachable
  refine ⟨fun e h => ?iedg, fun v h => ?ien, fun h => ?iclr⟩
  case iedg =>
    obtain rfl := exec_uninterrupted_next hf (fun _ => quiet_iedg hquiet) h
    refine ⟨fun m hm => by simp [lineState_iedg, lineState_eq s, hm], ?_⟩
    rw [lineState_at, lineState_iedg, decide_eq_true rfl, Bool.and_true]
    cases e with
    | rising | falling | both =>
      rw [lineState_eq] at hreachable
      rw [arms, Bool.or_true, lineStateOf_arm hreachable, ← lineState_eq]
      cases s.lineState n <;> rfl
    | neither | unrecognised _ => rw [arms, Bool.or_false, ← lineState_eq]
  case ien =>
    obtain rfl := exec_uninterrupted_next hf (fun _ => quiet_mono hquiet (by simp [accessCount])) h
    refine ⟨fun m hm => by simp [lineState_ien, lineState_eq s, hm], ?_⟩
    rw [lineState_eq] at hreachable
    rw [lineState_at, lineState_ien, decide_eq_true rfl, Bool.or_true, lineStateOf_unmask hreachable, ← lineState_eq]
    cases s.lineState n <;> rfl
  case iclr =>
    obtain rfl := exec_uninterrupted_next hf (fun _ => quiet_iclr (quiet_mono hquiet (by decide))) h
    refine ⟨fun m hm => by simp [lineState_iclr, lineState_eq s, hm], ?_⟩
    rw [lineState_eq] at hreachable
    rw [lineState_at, lineState_iclr, decide_eq_true rfl, Bool.not_true, Bool.and_false, lineStateOf_clear hreachable,
      ← lineState_eq]
    cases s.lineState n <;> rfl

/-- Settles O36: the edge sets the flag as R163 says (O35), and leaves the trigger and mask bits. -/
theorem armedEdgeMovesTheLineStateMachine : Obligations.ArmedEdgeMovesTheLineStateMachine := by
  intro s t n b rest hplan hport hloop hpad harmed h
  obtain ⟨t', ht, hdriven, -, -, -, ⟨hflags, -⟩, hregs, -, ⟨-, -, hconfig, -, -⟩, -⟩ :=
    padDriveLatchesArmedEdges s _ n b rest hplan hport
  obtain rfl : t' = t := Host.Outcome.next.inj (ht.symm.trans h)
  have hbefore : s.lineIn n = !b := (level_of_unlooped hloop).trans hpad
  have hafter : t'.lineIn n = b := by
    rw [State.lineIn, hconfig, level_of_unlooped (by rw [hconfig]; exact hloop), hdriven, if_pos rfl]
  have harm : (bitOf (s.stored (.exti .rtsr)) n || bitOf (s.stored (.exti .ftsr)) n) = true := by
    rw [Bool.or_eq_true]
    cases b
    · exact .inr harmed
    · exact .inl harmed
  have hpending : bitOf (t'.stored (.exti .pr)) n =
      (bitOf (s.stored (.exti .pr)) n || (bitOf (s.stored (.exti .imr)) n || !s.config.latchGatedByMask)) := by
    refine (hflags n).trans ?_
    rw [hbefore, hafter]
    cases b with
    | true =>
      have hrising : s.exti.rtsr.getLsbD n = true := harmed
      simp [hrising, bitOf, State.stored, Exti.get]
    | false =>
      have hfalling : s.exti.ftsr.getLsbD n = true := harmed
      simp [hfalling, bitOf, State.stored, Exti.get]
  rw [lineState_eq, lineState_eq, hpending, hregs (.exti .rtsr) (by decide), hregs (.exti .ftsr) (by decide),
    hregs (.exti .imr) (by decide), harm]
  exact lineStateOf_edge _ _ _

/-- Settles O37: the flag is ORed into `PR` and nothing else is touched. -/
theorem forcePendingSetsOnlyThatFlag : Obligations.ForcePendingSetsOnlyThatFlag := by
  intro s n rest hplan
  refine ⟨_, step_of_due hplan, ?_, ⟨⟨rfl, fun _ => ⟨rfl, rfl⟩⟩, rfl, fun r hr => ?_⟩, ⟨rfl, rfl, rfl, rfl, rfl⟩, rfl⟩
  · rw [twoPow_eq_pinMask]
    rfl
  · cases r with
    | port p r => rfl
    | exti r =>
      cases r with
      | rtsr | ftsr | imr => rfl
      | pr => exact absurd (List.mem_singleton_self _) hr

/-- Settles O41: a service starts at a planned dispatch, which tests the vector, or at the end of the mainline, which takes one of
the vectors up. -/
theorem servicesStartForDispatchableVectorsOnly : Obligations.ServicesStartForDispatchableVectorsOnly := by
  intro s t svc hidle h hactive
  obtain ⟨e, rest, -, rfl⟩ | ⟨-, -, rfl⟩ | ⟨-, -, i, -, hi⟩ := step_next h
  · exact up_of_apply_starts (s := { s with plan := s.planAfter rest }) hidle hactive
  · obtain ⟨-, hlast⟩ | ⟨v, hv, hlast⟩ := afterLast_of_idle hidle
    · rw [hlast] at hactive
      cases hidle.symm.trans hactive
    · rw [hlast] at hactive
      obtain rfl : (⟨v, Ctx.start (isrOf s.config v)⟩ : Service) = svc := Option.some.inj hactive
      exact (mem_vectorsUp s v).1 hv
  · cases (active_exec_none hidle hi).symm.trans hactive

/-- Settles O45: the return leaves the request, and the finished mainline must be interrupted while one is up. -/
theorem unclearedFlagIsServedAgain : Obligations.UnclearedFlagIsServedAgain := by
  intro s svc hactive hend hquiet hmain hrequest
  have hfinished : s.cur.finished = true := by simp [State.cur, hactive, Ctx.finished, hend]
  have hreturn : step s = .next s.return.tick := by
    rw [step_not_due ((eventDue_iff s).2 (quiet_mono hquiet (Nat.zero_le 1))), if_pos hfinished, afterLast_of_active hactive]
  have hdue : s.return.tick.eventDue = false := (eventDue_iff _).2 ((quiet_ticks 1 0 (tick_plan s.return)).2 hquiet)
  have hup : s.return.tick.vectorsUp ≠ [] := by
    obtain ⟨n, hpr, himr, hven⟩ := hrequest
    exact List.ne_nil_of_mem ((mem_vectorsUp s.return.tick _).2 ⟨n, rfl, hpr, himr, hven⟩)
  obtain ⟨hnone, -⟩ | ⟨v, -, hlast⟩ := afterLast_of_idle (s := s.return.tick) rfl
  · exact absurd hnone hup
  · refine ⟨_, _, hreturn, rfl, step_finished_main rfl hmain hdue, ?_⟩
    rw [hlast]
    exact ⟨rfl, ⟨⟨rfl, fun _ => ⟨rfl, rfl⟩⟩, rfl, sameRegsBut_nil (fun _ => rfl) rfl⟩, rfl⟩

/-- Settles O48: by rounds of dispatch, routine and return, the third of which leaves the storm as it was. -/
theorem stormStarvesTheMainline : Obligations.StormStarvesTheMainline :=
  fun _ _ _ h k => run_storm k h

/-- Settles O60: at power-on no flag is set, so every line is in the first row of Table R166 and none requests a vector. -/
theorem noInterruptAtTheStart : Obligations.NoInterruptAtTheStart := by
  intro c nports pads prog
  refine ⟨fun n => ?_, fun v => ?_⟩
  · simp [lineState_eq, stored_powerOn, bitOf, lineStateOf]
  · refine Bool.eq_false_iff.2 fun hdispatchable => ?_
    obtain ⟨-, n, -, hpr, -, -⟩ := dispatchable_iff.1 hdispatchable
    simp [State.powerOn, ResetValues.zero] at hpr

end Sys2Proof.Machine
end

section
/-! SUPPORT. Runs and what they keep; the progress of a mainline that no service interrupts; the positions of the storm. -/

namespace Sys2Proof.Machine

open Sys2Proof

variable {s t : State} {i : Instr} {v u : VectorId}

/-! ### Runs -/

/-- INVERSION of a run: its first step, and the rest of it. -/
theorem run_succ_inv {M : Host.Core} {k : Nat} {s t : M.State} (h : M.run (k + 1) s = .next t) :
    ∃ x, M.step s = .next x ∧ M.run k x = .next t := by
  rw [Host.Core.run] at h
  cases hs : M.step s with
  | next x =>
    rw [hs] at h
    exact ⟨x, rfl, h⟩
  | fault r | refused r =>
    rw [hs] at h
    cases h

/-- What every step keeps, every position of a run keeps. -/
theorem run_induct {R : State → Prop} (hstep : ∀ x y, R x → step x = .next y → R y) {k : Nat}
    (h : Sys2Proof.core.run k s = .next t) (hs : R s) : R t := by
  induction k generalizing s with
  | zero =>
    obtain rfl : s = t := Host.Outcome.next.inj h
    exact hs
  | succ k ih =>
    obtain ⟨x, hx, hrun⟩ := run_succ_inv (M := Sys2Proof.core) h
    exact ih hrun (hstep s x hs hx)

theorem persists_run {k : Nat} (h : Sys2Proof.core.run k s = .next t) : Persists s t :=
  run_induct (R := Persists s) (fun _ _ hx hstep => hx.trans (persists_step hstep)) h (.refl s)

/-- The run from `s` meets no refusal, however long. -/
def State.RunsOn (s : State) : Prop := ∀ k, ∃ t : State, Sys2Proof.core.run k s = .next t

theorem runsOn_step (h : s.RunsOn) : ∃ t, step s = .next t ∧ t.RunsOn := by
  obtain ⟨_, hfirst⟩ := h 1
  obtain ⟨t, ht, -⟩ := run_succ_inv (M := Sys2Proof.core) hfirst
  refine ⟨t, ht, fun k => ?_⟩
  obtain ⟨x, hx⟩ := h (k + 1)
  exact ⟨x, (run_cons (M := Sys2Proof.core) ht).symm.trans hx⟩

/-! ### The moves that are not commands -/

theorem tick_eq (s : State) : s.tick = { s with plan := ticks 1 s.plan } := by
  rw [← tick_plan]
  rfl

/-- A service at the end of its list, no event being due, returns (R198). -/
theorem step_return {svc : Service} (ha : s.active = some svc) (hend : svc.ctx.finished = true) (hd : s.eventDue = false) :
    step s = .next s.return.tick := by
  have hcur : s.cur.finished = true := by
    rw [State.cur, ha]
    exact hend
  rw [step_not_due hd, if_pos hcur, afterLast_of_active ha]

theorem vectorsUp_eq_nil (h : ∀ n : Line, ¬(s.exti.pr.getLsbD n = true ∧ s.exti.imr.getLsbD n = true ∧
    s.ven.getLsbD s.config.vecOf[n] = true)) : s.vectorsUp = [] := by
  refine List.eq_nil_iff_forall_not_mem.2 fun v hv => ?_
  obtain ⟨n, rfl, hpending, hunmasked, henabled⟩ := (mem_vectorsUp s v).1 hv
  exact h n ⟨hpending, hunmasked, henabled⟩

/-- While a vector is up, the end of the mainline starts the service of one that is (R222). -/
theorem afterLast_of_up (ha : s.active = none) (hup : s.Up v) :
    ∃ w, s.Up w ∧ s.afterLast = { (s.dispatch w).tick with draws := s.draws + 1 } := by
  obtain ⟨hnone, -⟩ | ⟨w, hw, hlast⟩ := afterLast_of_idle ha
  · exact absurd ((mem_vectorsUp s v).2 hup) (by simp [hnone])
  · exact ⟨w, (mem_vectorsUp s w).1 hw, hlast⟩

/-! ### Progress (log entry 8) -/

/-- The accesses a context may still make, at most eight for a command (Table R232), and one more for each command's end. -/
def Ctx.workLeft (c : Ctx) : Nat := 9 * (c.prog.length - c.cp) + (8 - c.flight.done)

/-- The events due before the machine moves again. -/
def State.dueEvents (s : State) : Nat := (s.plan.takeWhile (·.1 = 0)).length

/-- No command lists more than the eight accesses of `CFG` (Table R76). -/
theorem listedAccesses_length_le (i : Instr) (s : State) : (listedAccesses i s).length ≤ 8 := by
  cases i with
  | cfg port _ _ _ _ _ _ => cases hp : s.resolvePort port <;> simp [listedAccesses, hp, cfgAccesses, rmwOr]
  | rdp port _ => cases hp : s.resolvePort port <;> simp [listedAccesses, hp, rdpAccesses]
  | wrp port _ b => cases hp : s.resolvePort port <;> cases b <;> simp [listedAccesses, hp, wrpAccesses, rmwOr, rmwAndn]
  | tgl port _ => cases hp : s.resolvePort port <;> simp [listedAccesses, hp, tglAccesses]
  | saf port _ _ => cases hp : s.resolvePort port <;> simp [listedAccesses, hp, safAccesses, rmwOr]
  | iedg _ e => cases e <;> simp [listedAccesses, iedgAccesses, rmwOr]
  | ien _ _ => simp [listedAccesses, ienAccesses, rmwOr]
  | iclr _ => simp [listedAccesses, iclrAccesses]

theorem workLeft_runCommand (as : List Access) (hlen : as.length ≤ 8) (hcp : s.cur.cp < s.cur.prog.length) :
    (runCommand as s).cur.workLeft < s.cur.workLeft := by
  obtain ⟨hprog, hcompleted | ⟨hpaused, hmore, hlisted⟩⟩ := runAccesses_progress (as.drop s.cur.flight.done) s
  · rw [runCommand, Ctx.workLeft, Ctx.workLeft, hprog, hcompleted]
    omega
  · rw [List.length_drop] at hlisted
    rw [runCommand, Ctx.workLeft, Ctx.workLeft, hprog, hpaused]
    omega

/-- A step at a command leaves its context less to do, whether the command completes or pauses. -/
theorem workLeft_exec (h : exec i s = .next t) (hcp : s.cur.cp < s.cur.prog.length) : t.cur.workLeft < s.cur.workLeft := by
  obtain ⟨-, rfl | ⟨_, _, _, _, rfl⟩⟩ := exec_next h
  · exact workLeft_runCommand _ (listedAccesses_length_le i s) hcp
  · simpa [Ctx.workLeft] using workLeft_runCommand (s := s.setRes false) [] (by simp) (by simpa using hcp)

/-- Another agent's step leaves fewer events due: a new round of the cycle has none due at once. -/
theorem dueEvents_planAfter {e : Event} {rest : List (Nat × Event)} (h : s.plan = (0, e) :: rest) :
    { s with plan := s.planAfter rest }.dueEvents < s.dueEvents := by
  cases rest with
  | nil =>
    cases hcycle : s.cycle with
    | nil => simp [State.dueEvents, h, nextRound_nil s hcycle]
    | cons c cs =>
      obtain ⟨d, e'⟩ := c
      have hround : max 1 d ≠ 0 := by omega
      simp [State.dueEvents, h, nextRound_cons s hcycle, hround]
  | cons c cs => simp [State.dueEvents, h]

/-- The order in which the mainline comes to its end: less work left, or as much and fewer events due. -/
def State.Nearer (t s : State) : Prop :=
  Prod.Lex (· < ·) (· < ·) (t.main.workLeft, t.dueEvents) (s.main.workLeft, s.dueEvents)

theorem nearer_wf : WellFounded State.Nearer :=
  InvImage.wf (fun s : State => (s.main.workLeft, s.dueEvents)) (Prod.lex Nat.lt_wfRel Nat.lt_wfRel).wf

theorem nearer_exec (ha : s.active = none) (h : exec i s = .next t) (hcp : s.cur.cp < s.cur.prog.length) : t.Nearer s := by
  have hwork := workLeft_exec h hcp
  simp only [State.cur, ha, active_exec_none ha h] at hwork
  exact Prod.Lex.left _ _ hwork

theorem nearer_apply {e : Event} {rest : List (Nat × Event)} (h : s.plan = (0, e) :: rest) :
    (e.apply { s with plan := s.planAfter rest }).Nearer s := by
  obtain ⟨hmain, hplan, -⟩ := apply_main e { s with plan := s.planAfter rest }
  rw [State.Nearer, hmain, State.dueEvents, hplan]
  exact Prod.Lex.right _ (dueEvents_planAfter h)

/-- A step that leaves a dispatchable vector without any service brings the mainline nearer to its end, where one must start. -/
theorem nearer_step (ha : s.active = none) (hup : s.Up v) (h : step s = .next t) (ht : t.active = none) : t.Nearer s := by
  obtain ⟨e, rest, hplan, rfl⟩ | ⟨-, -, rfl⟩ | ⟨-, hunfinished, i, -, hi⟩ := step_next h
  · exact nearer_apply hplan
  · obtain ⟨w, -, hlast⟩ := afterLast_of_up ha hup
    rw [hlast] at ht
    cases ht
  · exact nearer_exec ha hi ((finished_iff _).1 hunfinished)

/-- The step from `t` to `u` ends the wait of `v`, dispatchable in `t`: a service of a dispatchable vector starts, or the request
is withdrawn. -/
def WaitEnds (v : VectorId) (t u : State) : Prop :=
  step t = .next u ∧ t.active = none ∧ t.Up v ∧
    ((∃ svc, u.active = some svc ∧ t.Up svc.vector) ∨ (u.active = none ∧ ¬u.Up v))

/-- By induction on how far the mainline is from its end. -/
theorem waitEnds_of_runsOn (s : State) (ha : s.active = none) (hup : s.Up v) (hgo : s.RunsOn) :
    ∃ (k : Nat) (t u : State), Sys2Proof.core.run k s = .next t ∧ WaitEnds v t u := by
  induction s using nearer_wf.induction with
  | _ s ih =>
  obtain ⟨x, hx, hgo'⟩ := runsOn_step hgo
  cases hactive : x.active with
  | some svc =>
    have hserved : s.Up svc.vector := servicesStartForDispatchableVectorsOnly s x svc ha hx hactive
    exact ⟨0, s, x, rfl, hx, ha, hup, .inl ⟨svc, hactive, hserved⟩⟩
  | none =>
    by_cases hstays : x.Up v
    · obtain ⟨k, t, u, hrun, hends⟩ := ih x (nearer_step ha hup hx hactive) hactive hstays hgo'
      exact ⟨k + 1, t, u, (run_cons (M := Sys2Proof.core) hx).trans hrun, hends⟩
    · exact ⟨0, s, x, rfl, hx, ha, hup, .inr ⟨hactive, hstays⟩⟩

/-! ### The positions of the storm (R200) -/

@[simp] theorem apply_ven (e : Event) (s : State) : (e.apply s).ven = s.ven := by
  cases e with
  | padDrive _ _ _ | forcePending _ | clockOn _ => rfl
  | dispatch v =>
    simp only [Event.apply]
    split <;> rfl

@[simp] theorem afterLast_ven (s : State) : s.afterLast.ven = s.ven := by
  obtain h | ⟨v, h⟩ | h := afterLast_cases s <;> rw [h] <;> rfl

/-- A step that is not at the `IEN` of vector `u` leaves the enable of `u` (R161). -/
theorem vectorEnable_step (h : step s = .next t)
    (hi : ∀ n, s.eventDue = false → s.cur.finished = false → decode s.fetch ≠ .command (.ien n u)) :
    t.ven.getLsbD u = s.ven.getLsbD u := by
  obtain ⟨e, rest, -, rfl⟩ | ⟨-, -, rfl⟩ | ⟨hdue, hunfinished, i, hdecode, hexec⟩ := step_next h
  · rw [apply_ven]
  · rw [afterLast_ven]
  · refine vectorEnable_exec hexec ?_
    rintro n rfl
    exact hi n hdue hunfinished hdecode

/-- The three states a round of the storm goes through: before the dispatch, in the routine, and at its end. -/
inductive StormPosition (v : VectorId) (i : Instr) : State → Prop
  | beforeDispatch {s : State} (h : Storm s v i) : StormPosition v i s
  | inRoutine {s : State} (h : Storm s v i) : StormPosition v i (stormService s v i)
  | atEnd {s t : State} (h : Storm s v i) (ht : StormReturn s t v) : StormPosition v i t

theorem stormPosition_step (h : StormPosition v i s) (hstep : step s = .next t) : StormPosition v i t := by
  cases h with
  | beforeDispatch h =>
    obtain rfl : stormService s v i = t := Host.Outcome.next.inj ((step_storm h).symm.trans hstep)
    exact .inRoutine h
  | inRoutine h =>
    obtain ⟨x, hx, hreturn⟩ := step_stormService h
    obtain rfl : x = t := Host.Outcome.next.inj (hx.symm.trans hstep)
    exact .atEnd h hreturn
  | atEnd h hreturn =>
    obtain rfl := Host.Outcome.next.inj ((step_stormReturn hreturn).symm.trans hstep)
    exact .beforeDispatch (storm_return h hreturn)

/-- The only command the storm runs is its routine's. -/
theorem stormPosition_command {j : Instr} (h : StormPosition v i s) (hdue : s.eventDue = false)
    (hunfinished : s.cur.finished = false) (hj : decode s.fetch = .command j) : j = i := by
  cases h with
  | beforeDispatch h => simp [State.eventDue, h.now] at hdue
  | @inRoutine x h =>
    obtain ⟨w, hisr, hdecode⟩ := h.routine
    have hfetch : (stormService x v i).fetch = w := by
      change (isrOf x.config v).getD 0 0 = w
      rw [isrOf_eq, hisr]
      rfl
    rw [hfetch, hdecode] at hj
    exact (Verdict.command.inj hj).symm
  | atEnd h hreturn =>
    obtain ⟨ctx, hactive, hfinished⟩ := hreturn.service
    rw [State.cur, hactive, hfinished] at hunfinished
    cases hunfinished

/-- A storm in which vector `u` is not enabled, and whose routine does not enable it, never enables it. -/
theorem storm_run_disabled {k : Nat} (h : Storm s v i) (hi : ∀ n, i ≠ .ien n u) (hs : s.ven.getLsbD u = false)
    (hrun : Sys2Proof.core.run k s = .next t) : t.ven.getLsbD u = false := by
  refine (run_induct (R := fun x => StormPosition v i x ∧ x.ven.getLsbD u = false) ?_ hrun ⟨.beforeDispatch h, hs⟩).2
  rintro x y ⟨hx, hdisabled⟩ hstep
  have hkept := vectorEnable_step (u := u) hstep fun n hdue hunfinished hdecode =>
    hi n (stormPosition_command hx hdue hunfinished hdecode).symm
  exact ⟨stormPosition_step hx hstep, hkept.trans hdisabled⟩

end Sys2Proof.Machine
end

section
/-! PROOFS. The obligations of 60_exceptions.md. -/

namespace Sys2Proof.Machine

open Sys2Proof

/-- Settles O44: at the end of the mainline one of the vectors up is taken. -/
theorem finishedMainlineIsInterrupted : Obligations.FinishedMainlineIsInterrupted := by
  rintro s hidle hmain hdue ⟨n, hpending, hunmasked, henabled⟩
  obtain ⟨v, hv, hlast⟩ := afterLast_of_up hidle (v := s.config.vecOf[n]) ⟨n, rfl, hpending, hunmasked, henabled⟩
  refine ⟨_, v, step_finished_main hidle hmain hdue, hv, ?_⟩
  rw [hlast]
  exact ⟨⟨_, rfl, isrOf_eq s.config v⟩, ⟨⟨rfl, fun _ => ⟨rfl, rfl⟩⟩, rfl, sameRegsBut_nil (fun _ => rfl) rfl⟩, rfl, rfl⟩

/-- Settles O46: while the vector waits the mainline comes nearer to its end, where a service must start. -/
theorem noVectorStaysDispatchableForEver : Obligations.NoVectorStaysDispatchableForEver :=
  fun s _ hidle hup hgo => waitEnds_of_runsOn s hidle hup hgo

/-- Settles O47: a line that keeps its flag and mask bit keeps its vector up, for enables and parameters persist; fairness then
gives it a service. -/
theorem fairRunsServePendingLines : Obligations.FairRunsServePendingLines := by
  intro s n hfair hgo _ _ henabled
  by_contra hnever
  have hup : ∀ k, 0 ≤ k → ∃ t : State, Sys2Proof.core.run k s = .next t ∧ t.Up s.config.vecOf[n] := by
    intro k _
    obtain ⟨t, hrun⟩ := hgo k
    obtain ⟨hconfig, -, -, henables⟩ := persists_run hrun
    refine ⟨t, hrun, n, by rw [hconfig], ?pending, ?unmasked, henables _ henabled⟩
    case pending => exact Bool.of_not_eq_false fun hclear => hnever ⟨k, t, hrun, .inr (.inl hclear)⟩
    case unmasked => exact Bool.of_not_eq_false fun hmasked => hnever ⟨k, t, hrun, .inr (.inr hmasked)⟩
  obtain ⟨k, t, -, hrun, hserved⟩ := hfair _ 0 hup
  exact hnever ⟨k, t, hrun, .inl hserved⟩

/-- Settles O49: the storm serves its own vector in every round and no other, and only its own may be enabled. -/
theorem stormIsFairUnlessItStarvesAVector : Obligations.StormIsFairUnlessItStarvesAVector := by
  intro s v i hstorm
  refine ⟨fun halone hien u m hup => ?fair, fun u hu hup hfair => ?starved⟩
  case fair =>
    have hu : u = v := by
      by_contra hu
      obtain ⟨t, hrun, _, -, -, -, henabled⟩ := hup m le_rfl
      have hdisabled := storm_run_disabled hstorm (fun n hi => hu (hien n u hi)) (halone u hu) hrun
      exact Bool.false_ne_true (hdisabled.symm.trans henabled)
    obtain ⟨t, hrun, -, -, hserved⟩ := run_storm (3 * m + 1) hstorm
    refine ⟨3 * m + 1, t, by omega, hrun, ?_⟩
    rw [hserved, if_neg (by omega), hu]
  case starved =>
    have hstays : ∀ k, 0 ≤ k → ∃ t : State, Sys2Proof.core.run k s = .next t ∧ t.Up u := fun k _ =>
      (run_storm k hstorm).imp fun _ ht => ⟨ht.1, ht.2.2.1 u hup⟩
    obtain ⟨k, t, -, hrun, hserved⟩ := hfair u 0 hstays
    obtain ⟨x, hx, -, -, hactive⟩ := run_storm k hstorm
    obtain rfl : t = x := Host.Outcome.next.inj (hrun.symm.trans hx)
    rw [hserved] at hactive
    split at hactive
    · cases hactive
    · exact hu (Option.some.inj hactive)

/-- Settles O40: the planned step tests whether the vector is dispatchable. -/
theorem dispatchEntersTheRoutine : Obligations.DispatchEntersTheRoutine := by
  intro s v rest hplan
  have hstep := step_of_due hplan
  refine ⟨fun hcan => ?taken, fun hcannot => ?skipped⟩
  case taken =>
    rw [Event.apply, if_pos (dispatchable_iff (s := { s with plan := s.planAfter rest }).2 hcan)] at hstep
    exact ⟨_, _, hstep, isrOf_eq s.config v, rfl⟩
  case skipped =>
    rw [hstep, Event.apply, if_neg fun h => hcannot (dispatchable_iff (s := { s with plan := s.planAfter rest }).1 h)]

/-- Settles O42: the return clears `active` and moves the plan on. -/
theorem returnResumesTheMainline : Obligations.ReturnResumesTheMainline := by
  intro s svc hactive hend hdue
  exact ⟨_, step_return hactive (by simp [Ctx.finished, hend]) hdue, tick_eq s.return⟩

/-- Settles O50: with no vector up the end of the mainline is an idle move. -/
theorem finishedRunStaysPut : Obligations.FinishedRunStaysPut := by
  intro s hidle hmain hdue hnone
  have hlast : s.afterLast = s.tick := by
    simp only [State.afterLast, hidle, vectorsUp_eq_nil hnone]
  rw [step_finished_main hidle hmain hdue, hlast, tick_eq]

end Sys2Proof.Machine
end

section
/-! PROOFS. The obligation of 92_eei_decisions.md: the reset state at the spec's defaults for tests. -/

namespace Sys2Proof.Machine

open Sys2Proof

/-- By default every line is fed from port 0 (92_eei_decisions.md, section 5). -/
theorem src_default (n : Line) : Config.default.src[n] = 0 := Vector.getElem_ofFn n.isLt

/-- Settles O59: each clause is a field of the power-on state or of the defaults; the sources hold line by line. -/
theorem resetIsPowerOnAtTheDefaults : Obligations.ResetIsPowerOnAtTheDefaults :=
  ⟨rfl, rfl, rfl, rfl, rfl, rfl, src_default, rfl, rfl⟩

end Sys2Proof.Machine
end
